-- ==== Sys2Proof/Word.lean ====
section
/-! DEFINITION. The word types of the block: everything the spec gives a width is a bit vector of that width. -/

namespace Sys2Proof

/-- One byte of memory, of the LUT or of an output row. -/
abbrev Byte := BitVec 8

/-- A 16-bit operand field, duration or register. -/
abbrev Half := BitVec 16

/-- A 32-bit register or byte address. -/
abbrev Word := BitVec 32

/-- One command descriptor (rule R62). -/
abbrev Desc := BitVec 128

/-- A row of output bytes, of plane bytes or of source groups, byte 0 first (rule R5). -/
abbrev Row := List Byte

end Sys2Proof
end

