-- ==== Sys2Proof/Config.lean ====
section
/-! DEFINITION. The configuration record `CFG` (rule R4) and the free values of the spec (rule R21).
`CFG` is a model argument: it is carried by the machine state as a field nothing writes, so that a statement about every
state is a statement about every configuration. -/

namespace Sys2Proof

/-- The parameters of rule R4 as they are written down, before they are checked. -/
structure RawCfg where
  /-- `PANEL_W`, pixels. -/
  panelW : Nat
  /-- `PANEL_H`, rows. -/
  panelH : Nat
  /-- `CONTRAST_4[0..14]`. -/
  contrast4 : List Half
  /-- `CONTRAST_2[0..2]`. -/
  contrast2 : List Half
  /-- `MIN_PULSE`. -/
  minPulse : Half
  /-- `DISSIPATION_CYCLES`. -/
  dissipation : Word
  /-- `DARK_TIME`. -/
  darkTime : Half
  /-- `CLEAR_TIME`. -/
  clearTime : Half
  deriving DecidableEq, Repr

/-- The constraint column of rule R4 (and rule R159): what a configuration must satisfy to be constructed.
`PANEL_W` and `PANEL_H` are 16-bit parameters, hence the two upper bounds (DEDUCED for `PANEL_W`, log entry 16). -/
def RawCfg.valid (c : RawCfg) : Bool :=
  decide (0 < c.panelW) && decide (c.panelW < 65536) && decide (c.panelW % 16 = 0)
    && decide (0 < c.panelH) && decide (c.panelH ≤ 65535)
    && decide (c.contrast4.length = 15) && c.contrast4.all (fun d => decide (1 ≤ d.toNat))
    && decide (c.contrast2.length = 3) && c.contrast2.all (fun d => decide (1 ≤ d.toNat))
    && decide (c.dissipation.toNat < 2 ^ 31)

/-- `CFG`: the parameters together with the proof that they satisfy rule R4, so that an invalid configuration cannot be
built ("caught at construction"). -/
structure Cfg extends RawCfg where
  isValid : toRawCfg.valid = true
  deriving DecidableEq, Repr

/-- Construction of a configuration: a record that breaks a constraint of rule R4 is refused (rule R159). -/
def RawCfg.build (c : RawCfg) : Option Cfg :=
  if h : c.valid = true then some { toRawCfg := c, isValid := h } else none

/-- The value the `n`-th host read sees where the spec says a word read is "any value" (rule R21). A free value: nothing
constrains it (log entry 12). -/
opaque Config.anyWord : Nat → Word

/-- The byte the `n`-th host read sees where the spec says a `LUTMEM` read is "any byte" (rules R21, R23). A free value
(log entry 12). -/
opaque Config.anyByte : Nat → Byte

end Sys2Proof
end

