-- ==== Sys2Proof/Syntax.lean ====
section
/-! DEFINITION. The six commands (rules R62 to R65), one constructor per row of spec/opcode_table.json, and the textual
command lines of rules R68 and R69. -/

namespace Sys2Proof

/-- A decoded command. Every operand has the width of its descriptor field (rule R62), is unsigned and is used at face
value (rule R63); the operand order is that of rule R68. -/
inductive Instr where
  /-- `LUT_COMPILE k, bd`. -/
  | lutCompile (k : Half) (bd : Byte)
  /-- `DRAW_IMAGE x, y, w, h, fb, bd`. -/
  | drawImage (x y w h : Half) (fb : Word) (bd : Byte)
  /-- `DRAW_SOLID_BYTE x, y, w, h, d, b`. -/
  | drawSolidByte (x y w h d : Half) (b : Byte)
  /-- `CLEAR x, y, w, h`. -/
  | clear (x y w h : Half)
  /-- `ENCODE_UNARY fb`. -/
  | encodeUnary (fb : Word)
  /-- `DRAW_UNARY`. -/
  | drawUnary
  deriving DecidableEq, Repr

/-- One line of a textual program (rule R68), the four pseudo-commands of rule R69 among them: a mnemonic and unsigned
numbers as they are written, before it is known that they fit their fields. -/
inductive Line where
  | lutCompile (k bd : Nat)
  | drawImage (x y w h fb bd : Nat)
  | drawSolidByte (x y w h d b : Nat)
  | clear (x y w h : Nat)
  | encodeUnary (fb : Nat)
  | drawUnary
  /-- `CLEAR_SCREEN`. -/
  | clearScreen
  /-- `DRAW_SCREEN fb, bd`. -/
  | drawScreen (fb bd : Nat)
  /-- `FILL_DARK x, y, w, h, d`. -/
  | fillDark (x y w h d : Nat)
  /-- `FILL_CLEAR x, y, w, h, d`. -/
  | fillClear (x y w h d : Nat)
  deriving DecidableEq, Repr

end Sys2Proof
end

