-- ==== Sys2Proof/WellFormed.lean ====
section
/-! DEFINITION. Well-formedness. A decoded command carries its operands at their field widths, so every `Instr` is well
formed by its type, and values out of range are the command's own errors (rule R66). What can be ill formed is a written
line (rule R68): a number that does not fit the field it is for. A configuration's well-formedness is `RawCfg.valid`. -/

namespace Sys2Proof

/-- A written number fits an unsigned field of `n` bits (rule R63: no field is scaled, split or sign-extended). -/
def fitsField (n v : Nat) : Bool := decide (v < 2 ^ n)

/-- The four rect operands fit their 16-bit fields. -/
def rectFits (x y w h : Nat) : Bool := fitsField 16 x && fitsField 16 y && fitsField 16 w && fitsField 16 h

/-- Every number of a line fits the descriptor field it is written for (rules R62, R65, R68). -/
def Line.wellFormed : Line → Bool
  | .lutCompile k bd => fitsField 16 k && fitsField 8 bd
  | .drawImage x y w h fb bd => rectFits x y w h && fitsField 32 fb && fitsField 8 bd
  | .drawSolidByte x y w h d b => rectFits x y w h && fitsField 16 d && fitsField 8 b
  | .clear x y w h => rectFits x y w h
  | .encodeUnary fb => fitsField 32 fb
  | .drawUnary => true
  | .clearScreen => true
  | .drawScreen fb bd => fitsField 32 fb && fitsField 8 bd
  | .fillDark x y w h d => rectFits x y w h && fitsField 16 d
  | .fillClear x y w h d => rectFits x y w h && fitsField 16 d

end Sys2Proof
end

