-- ==== Sys2Proof/Decode.lean ====
section
/-! DEFINITION. Decoding a descriptor (rules R62, R65, R66, R73), the encoder written from the same table, the byte layout
of a descriptor in host memory (rule R40) and the expansion of a textual line (rules R68, R69). -/

namespace Sys2Proof

/-- Why a descriptor is illegal (rule R66). Both raise `ERR_OPCODE`. -/
inductive Illegal where
  /-- `OP` is `0x00` or `0x07` to `0xFF`. -/
  | unknownOpcode (op : Byte)
  /-- `OP` is a command's, and a bit of a must-be-zero field of that command is set. -/
  | mustBeZero (op : Byte)
  deriving DecidableEq, Repr

/-- Field `OP`, bits `[7:0]`. -/
def fieldOP (d : Desc) : Byte := d.extractLsb' 0 8
/-- Field `A`, bits `[15:8]`. -/
def fieldA (d : Desc) : Byte := d.extractLsb' 8 8
/-- Field `B`, bits `[31:16]`. -/
def fieldB (d : Desc) : Half := d.extractLsb' 16 16
/-- Field `X`, bits `[47:32]`. -/
def fieldX (d : Desc) : Half := d.extractLsb' 32 16
/-- Field `Y`, bits `[63:48]`. -/
def fieldY (d : Desc) : Half := d.extractLsb' 48 16
/-- Field `W`, bits `[79:64]`. -/
def fieldW (d : Desc) : Half := d.extractLsb' 64 16
/-- Field `H`, bits `[95:80]`. -/
def fieldH (d : Desc) : Half := d.extractLsb' 80 16
/-- Field `ADDR`, bits `[127:96]`. -/
def fieldADDR (d : Desc) : Word := d.extractLsb' 96 32

/-- Format `D` (rule R62): the descriptor with the eight given fields. -/
def formatD (op a : Byte) (b x y w h : Half) (addr : Word) : Desc :=
  addr ++ h ++ w ++ y ++ x ++ b ++ a ++ op

/-- A row of the opcode table: a descriptor selects it iff `d & mask = match` (rule R65). -/
structure OpRow where
  mask : Desc
  value : Desc
  deriving DecidableEq, Repr

/-- `d & mask = match` for this row. -/
def selectsRow (r : OpRow) (d : Desc) : Bool := decide (d &&& r.mask = r.value)

/-- The row of `LUT_COMPILE` in the table of rule R65. -/
def rowLutCompile : OpRow := ⟨0xFFFFFFFFFFFFFFFFFFFFFFFF000000FF#128, 0x01#128⟩
/-- The row of `DRAW_IMAGE`. -/
def rowDrawImage : OpRow := ⟨0x000000000000000000000000FFFF00FF#128, 0x02#128⟩
/-- The row of `DRAW_SOLID_BYTE`. -/
def rowDrawSolidByte : OpRow := ⟨0xFFFFFFFF0000000000000000000000FF#128, 0x03#128⟩
/-- The row of `CLEAR`. -/
def rowClear : OpRow := ⟨0xFFFFFFFF0000000000000000FFFFFFFF#128, 0x04#128⟩
/-- The row of `ENCODE_UNARY`. -/
def rowEncodeUnary : OpRow := ⟨0x00000000FFFFFFFFFFFFFFFFFFFFFFFF#128, 0x05#128⟩
/-- The row of `DRAW_UNARY`. -/
def rowDrawUnary : OpRow := ⟨0xFFFFFFFFFFFFFFFFFFFFFFFFFFFFFFFF#128, 0x06#128⟩

/-- The opcode table of rule R65, in the table's order. -/
def opcodeTable : List OpRow :=
  [rowLutCompile, rowDrawImage, rowDrawSolidByte, rowClear, rowEncodeUnary, rowDrawUnary]

/-- Whether `OP` is the opcode of a command (rule R64). -/
def knownOpcode (op : Byte) : Bool := decide (1 ≤ op.toNat ∧ op.toNat ≤ 6)

/-- The decoder of the command port (rule R73): total; the row of rule R65 that matches, with the operands that row uses, or
an illegal encoding by name. It performs no range check. -/
def decode (d : Desc) : Except Illegal Instr :=
  if selectsRow rowLutCompile d then .ok (.lutCompile (fieldB d) (fieldA d))
  else if selectsRow rowDrawImage d then
    .ok (.drawImage (fieldX d) (fieldY d) (fieldW d) (fieldH d) (fieldADDR d) (fieldA d))
  else if selectsRow rowDrawSolidByte d then
    .ok (.drawSolidByte (fieldX d) (fieldY d) (fieldW d) (fieldH d) (fieldB d) (fieldA d))
  else if selectsRow rowClear d then .ok (.clear (fieldX d) (fieldY d) (fieldW d) (fieldH d))
  else if selectsRow rowEncodeUnary d then .ok (.encodeUnary (fieldADDR d))
  else if selectsRow rowDrawUnary d then .ok .drawUnary
  else if knownOpcode (fieldOP d) then .error (.mustBeZero (fieldOP d))
  else .error (.unknownOpcode (fieldOP d))

/-- The encoder: the descriptor of a command, every must-be-zero field 0 (rules R62, R64, R65). -/
def encode : Instr → Desc
  | .lutCompile k bd => formatD 0x01 bd k 0 0 0 0 0
  | .drawImage x y w h fb bd => formatD 0x02 bd 0 x y w h fb
  | .drawSolidByte x y w h d b => formatD 0x03 b d x y w h 0
  | .clear x y w h => formatD 0x04 0 0 x y w h 0
  | .encodeUnary fb => formatD 0x05 0 0 0 0 0 0 fb
  | .drawUnary => formatD 0x06 0 0 0 0 0 0 0

/-- The table row a command belongs to (rules R64, R65). -/
def rowOf : Instr → OpRow
  | .lutCompile _ _ => rowLutCompile
  | .drawImage _ _ _ _ _ _ => rowDrawImage
  | .drawSolidByte _ _ _ _ _ _ => rowDrawSolidByte
  | .clear _ _ _ _ => rowClear
  | .encodeUnary _ => rowEncodeUnary
  | .drawUnary => rowDrawUnary

/-- The `n` low bytes of a number, least significant first (rule R40: the block is little-endian everywhere). -/
def bytesLE : Nat → Nat → List Byte
  | 0, _ => []
  | n + 1, w => BitVec.ofNat 8 w :: bytesLE n (w / 256)

/-- The number whose bytes, least significant first, are given (rule R40). -/
def ofBytesLE : List Byte → Nat
  | [] => 0
  | b :: bs => b.toNat + 256 * ofBytesLE bs

/-- A descriptor stored as sixteen bytes in host memory, byte 0 being `OP` (rules R40 (c), R62). -/
def descOfBytes (bs : List Byte) : Option Desc :=
  if bs.length = 16 then some (BitVec.ofNat 128 (ofBytesLE bs)) else none

/-- The decoder on the bytes of a descriptor: `none` unless there are sixteen of them and they are a legal encoding. -/
def decodeBytes (bs : List Byte) : Option Instr :=
  match descOfBytes bs with
  | none => none
  | some d => (decode d).toOption

/-- The command the decoder reads from a table word: the word's `nbits` low bits, laid out as the sixteen bytes of a
descriptor. -/
def decodeTableWord (nbits w : Nat) : Option Instr := decodeBytes (bytesLE 16 (w % 2 ^ nbits))

/-- The "dark" fill byte (rules R4, R98). -/
def darkByte : Byte := 0x55
/-- The "clear" fill byte (rules R4, R98). -/
def clearByte : Byte := 0xAA

/-- The command a written line stands for, its numbers put into their fields; a pseudo-command expands to one command with
`CFG` values filled in (rules R68, R69). -/
def expandLine (cfg : Cfg) : Line → Instr
  | .lutCompile k bd => .lutCompile (.ofNat 16 k) (.ofNat 8 bd)
  | .drawImage x y w h fb bd => .drawImage (.ofNat 16 x) (.ofNat 16 y) (.ofNat 16 w) (.ofNat 16 h) (.ofNat 32 fb) (.ofNat 8 bd)
  | .drawSolidByte x y w h d b =>
      .drawSolidByte (.ofNat 16 x) (.ofNat 16 y) (.ofNat 16 w) (.ofNat 16 h) (.ofNat 16 d) (.ofNat 8 b)
  | .clear x y w h => .clear (.ofNat 16 x) (.ofNat 16 y) (.ofNat 16 w) (.ofNat 16 h)
  | .encodeUnary fb => .encodeUnary (.ofNat 32 fb)
  | .drawUnary => .drawUnary
  | .clearScreen => .clear 0 0 (.ofNat 16 cfg.panelW) (.ofNat 16 cfg.panelH)
  | .drawScreen fb bd => .drawImage 0 0 (.ofNat 16 cfg.panelW) (.ofNat 16 cfg.panelH) (.ofNat 32 fb) (.ofNat 8 bd)
  | .fillDark x y w h d =>
      .drawSolidByte (.ofNat 16 x) (.ofNat 16 y) (.ofNat 16 w) (.ofNat 16 h) (.ofNat 16 d) darkByte
  | .fillClear x y w h d =>
      .drawSolidByte (.ofNat 16 x) (.ofNat 16 y) (.ofNat 16 w) (.ofNat 16 h) (.ofNat 16 d) clearByte

/-- Assembling a line: the command of a well-formed line, nothing for an ill-formed one (rule R68). -/
def assemble (cfg : Cfg) (l : Line) : Option Instr :=
  if l.wellFormed then some (expandLine cfg l) else none

end Sys2Proof
end

