-- ==== Sys2Proof/Machine/State.lean ====
section
/-! DEFINITION. The machine state (rules R10 to R32), the two memories, the event trace, the reference peripheral (rule R118),
the reasons a step stops, and the state after reset. State is plain data. -/

namespace Sys2Proof.Machine

/-- The outcome codes of a command (rule R150). Codes 6 to 15 are reserved and never produced, so the type has six values. -/
inductive ErrCode where
  /-- 0: the command ran to its end. -/
  | ok
  /-- 1 `ERR_BITDEPTH`. -/
  | bitDepth
  /-- 2 `ERR_NOMEM`. -/
  | noMem
  /-- 3 `ERR_RECT`. -/
  | rect
  /-- 4 `ERR_OPCODE`. -/
  | opcode
  /-- 5 `ERR_FRAME`. -/
  | frame
  deriving DecidableEq, Repr

/-- The peripheral operations the block performs (rule R70; the two it never issues are left out, log entry 20) and the recorded
busy-wait (rule R72). -/
inductive Event where
  | frameStart
  | frameEnd
  /-- A whole row of `LINE_BYTES` bytes replaces the current output buffer (rule R71). -/
  | bufWrite (row : Row)
  | switchBuf
  /-- The duration is in the peripheral's abstract time units. -/
  | commitRow (d : Half)
  | fastSkip
  /-- At least `n` ticks of `CCOUNT` passed here; not an operation on the port. -/
  | dwell (n : Word)
  deriving DecidableEq, Repr

/-- One entry of the event trace: the event and the sequencer position at the moment it was emitted (rule R13). -/
structure Emitted where
  pass : BitVec 5
  k : BitVec 4
  row : Half
  event : Event
  deriving DecidableEq, Repr

/-- One entry of the reference peripheral's log `ROWS`: `(pos, data or none, d or none)` (rule R118); which row the
duration times is open (rule R121, log entry 19). -/
structure RowEntry where
  pos : Nat
  data : Option Row
  duration : Option Half
  deriving DecidableEq, Repr

/-- The state of the reference peripheral (rule R118): `BUF[0]`, `BUF[1]`, `CUR`, `POS`, `OPEN` and `ROWS`. -/
structure Peripheral where
  buf0 : Row
  buf1 : Row
  /-- `CUR = 1`. -/
  cur : Bool
  pos : Nat
  isOpen : Bool
  rows : List RowEntry
  deriving DecidableEq, Repr

/-- A descriptor presented on the command port (rule R60), with the value `ALLOC_OK` has at the moment it is accepted
(rule R61). -/
structure Presented where
  data : Desc
  allocOk : Bool
  deriving DecidableEq, Repr

/-- A byte-addressed memory: the addresses whose byte is not the one an unlisted address reads as, strictly rising. -/
abbrev Memory := List Host.Cell

/-- What an unlisted address of `MEM` or `PLN` reads as. The spec gives no contents (rules R32, R171): DESIGN CHOICE, log
entry 2. -/
def Memory.blank : Byte := 0

/-- `f i, f (i+1), …`, `n` values. -/
def tabulateFrom {α : Type} (f : Nat → α) : Nat → Nat → List α
  | _, 0 => []
  | i, n + 1 => f i :: tabulateFrom f (i + 1) n

theorem length_tabulateFrom {α : Type} (f : Nat → α) (n i : Nat) : (tabulateFrom f i n).length = n := by
  induction n generalizing i with
  | zero => rfl
  | succ n ih => simp [tabulateFrom, ih]

/-- The vector `f 0, …, f (n-1)`. -/
def tabulateVec {α : Type} (n : Nat) (f : Nat → α) : Vector α n := ⟨⟨tabulateFrom f 0 n⟩, length_tabulateFrom f n 0⟩

/-- The ConversionLUT: 65536 bytes (rule R22), held in four levels of sixteen so that `LUT[i]` is reached by the four nibbles
of `i`, the most significant first. -/
abbrev Lut := Vector (Vector (Vector (Vector Byte 16) 16) 16) 16

/-- The table whose entry `i` is `f i`. -/
def Lut.tabulate (f : Nat → Byte) : Lut :=
  tabulateVec 16 fun a => tabulateVec 16 fun b => tabulateVec 16 fun c => tabulateVec 16 fun d =>
    f (4096 * a + 256 * b + 16 * c + d)

/-- Why a step faults. -/
inductive Fault where
  /-- Raised by `step` alone, in a state whose `BUSY` is 1. A step of this model runs a command to its end, so between steps
  `BUSY = 1` can only be a block that will never go on (entry U7 `stuck`: the peripheral takes no operation or `CCOUNT` stands
  still, rule R163); only reset leaves it. Safe: the model stops. -/
  | hung
  deriving DecidableEq, Repr

/-- Why a step is refused. -/
inductive Refusal where
  /-- Raised by `exec` for a constructor that has no meaning yet. No arm answers it in this model. Safe. -/
  | notModelled (mnemonic : String)
  deriving DecidableEq, Repr

/-- Everything the spec gives the machine. -/
structure State where
  /-- `CFG` (rule R4), the ROM registers' source (rule R20); nothing writes it. -/
  cfg : Cfg
  /-- The descriptor latch `DESC` (rule R10). -/
  desc : Desc
  /-- `PASS` (rule R12). -/
  pass : BitVec 5
  /-- `K` (rule R12). -/
  k : BitVec 4
  /-- `ROW` (rule R12). -/
  row : Half
  /-- `BUSY` (rule R14). -/
  busy : Bool
  /-- `ERR` (rules R14, R150). -/
  err : ErrCode
  /-- `LUT_VALID` (rules R14, R24). -/
  lutValid : Bool
  /-- `LUT_BD` (rules R18, R24). -/
  lutBd : BitVec 3
  /-- `LUT_K` (rules R18, R24). -/
  lutK : BitVec 4
  /-- `SKIPPING` (rule R15). -/
  skipping : Half
  /-- The ConversionLUT (rule R22). -/
  lut : Lut
  /-- `FILLROW` (rule R26). -/
  fillRow : Row
  /-- The host's memory `MEM` (rules R28, R43). -/
  mem : Memory
  /-- The plane store `PLN` (rules R28, R45). -/
  pln : Memory
  /-- The command port (rules R60, R61): the descriptors the host presents, in the order they are to be accepted (log
  entry 7). -/
  port : List Presented
  /-- `ALLOC_OK` as sampled at the last accept (rules R61, R156; log entry 7). -/
  allocOk : Bool
  /-- The event trace, oldest first (rules R5, R6); the model's own field (log entry 14). -/
  trace : List Emitted
  /-- The reference peripheral (rules R29, R118); `none` once an operation has broken one of its preconditions, after which
  the spec does not say what it holds (log entry 10). -/
  periph : Option Peripheral
  deriving DecidableEq, Repr

/-- What the spec leaves unspecified after power-up (rules R32, R118, R171): a parameter of the initial state (entry U2). -/
structure PowerUp where
  cfg : Cfg
  lut : Lut
  fillRow : Row
  mem : Memory
  pln : Memory
  buf0 : Row
  buf1 : Row
  deriving DecidableEq, Repr

/-- The state after reset (rules R32, R170), for the given unspecified contents; the peripheral is in its own reset state
(rule R118) and nothing has been emitted or presented. Rule R118 gives no reset value for the peripheral's `POS` and `ROWS`: that
they are 0 and empty is the model's choice (DESIGN CHOICE, log entry 4). -/
def State.resetWith (u : PowerUp) : State where
  cfg := u.cfg
  desc := 0
  pass := 0
  k := 0
  row := 0
  busy := false
  err := .ok
  lutValid := false
  lutBd := 0
  lutK := 0
  skipping := 0
  lut := u.lut
  fillRow := u.fillRow
  mem := u.mem
  pln := u.pln
  port := []
  allocOk := true
  trace := []
  periph := some ⟨u.buf0, u.buf1, false, 0, false, []⟩

/-- The parameter values `State.reset` has: the test configuration of decision D37 on the smallest panel of the spec's
programs. DESIGN CHOICE, log entry 1; no statement about every state rests on it. -/
def Cfg.reset : Cfg where
  panelW := 16
  panelH := 2
  contrast4 := [100, 101, 102, 103, 104, 105, 106, 107, 108, 109, 110, 111, 112, 113, 114]
  contrast2 := [200, 201, 202]
  minPulse := 10
  dissipation := 12000
  darkTime := 40
  clearTime := 80
  isValid := by decide

/-- The unspecified contents `State.reset` has: all zero. DESIGN CHOICE, log entries 2, 3 and 4. -/
def PowerUp.zero (cfg : Cfg) : PowerUp where
  cfg := cfg
  lut := Lut.tabulate fun _ => 0
  fillRow := List.replicate (cfg.panelW / 4) 0
  mem := []
  pln := []
  buf0 := List.replicate (cfg.panelW / 4) 0
  buf1 := List.replicate (cfg.panelW / 4) 0

/-- The machine right after reset. -/
def State.reset : State := State.resetWith (PowerUp.zero Cfg.reset)

end Sys2Proof.Machine
end

