-- ==== Sys2Proof/Machine/Operands.lean ====
section
/-! DEFINITION. The operand forms: bit depth, rect, frame index, and the constants derived from `CFG` (rule R4) that the
commands use. -/

namespace Sys2Proof.Machine

/-- `LINE_BYTES = PANEL_W / 4` (rule R4). -/
def lineBytes (cfg : Cfg) : Nat := cfg.panelW / 4

/-- `GROUPS = PANEL_W / 4` (rule R4). -/
def groups (cfg : Cfg) : Nat := cfg.panelW / 4

/-- `PLANE_ROW_BYTES = PANEL_W / 8` (rule R4). -/
def planeRowBytes (cfg : Cfg) : Nat := cfg.panelW / 8

/-- The number of bytes of `PLN` (rule R45). -/
def plnSize (cfg : Cfg) : Nat := 15 * cfg.panelH * planeRowBytes cfg

/-- A legal bit depth: 2 or 4 bits per pixel (rule R155). -/
inductive BitDepth where
  | two
  | four
  deriving DecidableEq, Repr

/-- The bit-depth operand: legal iff the whole field is 2 or 4 (rules R63, R155). -/
def bitDepthOf (a : Byte) : Option BitDepth :=
  if a = 2 then some .two else if a = 4 then some .four else none

/-- The number of bits per pixel. -/
def depthBits : BitDepth → Nat
  | .two => 2
  | .four => 4

/-- `frame_count(bd) = 2^bd - 1` (rule R4). -/
def frameCount (bd : BitDepth) : Nat := 2 ^ depthBits bd - 1

/-- `SRC_STRIDE(bd) = PANEL_W * bd / 8` (rules R4, R41). -/
def srcStride (cfg : Cfg) (bd : BitDepth) : Nat := cfg.panelW * depthBits bd / 8

/-- `CONTRAST(bd)[k]` (rules R4, R128). -/
def contrast (cfg : Cfg) (bd : BitDepth) (k : Nat) : Half :=
  match bd with
  | .two => cfg.contrast2.getD k 0
  | .four => cfg.contrast4.getD k 0

/-- A rect in panel coordinates (glossary, rule R63), as unbounded integers, so that its sums do not wrap. -/
structure Rect where
  x : Nat
  y : Nat
  w : Nat
  h : Nat
  deriving DecidableEq, Repr

/-- The rect operand from its four fields. -/
def rectOf (x y w h : Half) : Rect := ⟨x.toNat, y.toNat, w.toNat, h.toNat⟩

/-- The full panel as a rect. -/
def panelRect (cfg : Cfg) : Rect := ⟨0, 0, cfg.panelW, cfg.panelH⟩

/-- `rect_ok` (rule R154). -/
def rectOk (cfg : Cfg) (r : Rect) : Bool := decide (r.x + r.w ≤ cfg.panelW) && decide (r.y + r.h ≤ cfg.panelH)

/-- Row `n` is inside the rect's vertical span (rule R129). -/
def rowInside (r : Rect) (n : Nat) : Bool := decide (r.y ≤ n) && decide (n < r.y + r.h)

/-- The frame check of `LUT_COMPILE` (rules R86, R155). -/
def frameError (bd : BitDepth) (k : Half) : Option ErrCode := if k.toNat < frameCount bd then none else some .frame

/-- The rect check (rule R154). -/
def rectError (cfg : Cfg) (r : Rect) : Option ErrCode := if rectOk cfg r then none else some .rect

/-- The allocation check on the sampled `ALLOC_OK` (rule R156). -/
def allocError (allocOk : Bool) : Option ErrCode := if allocOk then none else some .noMem

end Sys2Proof.Machine
end

