-- ==== Sys2Proof/Machine/Ops.lean ====
section
/-! DEFINITION. The named operations over the memories, the LUT, the registers and the operation port; accepting a command,
ending it, and raising an error (rules R61, R125, R152): the one shared operation that takes an exceptional outcome. -/

namespace Sys2Proof.Machine

/-- The canonical form of a memory: addresses strictly rising, and no entry equal to what an unlisted address reads as. -/
abbrev Memory.wf (m : Memory) : Prop := m.Pairwise (fun c d => c.1 < d.1) ∧ ∀ c ∈ m, c.2 ≠ Memory.blank

/-- The byte at an address. -/
def Memory.read : Memory → Nat → Byte
  | [], _ => Memory.blank
  | (b, v) :: m, a => if a = b then v else Memory.read m a

/-- Put an entry before a memory whose addresses are all greater, unless it is what an unlisted address reads as. -/
def Memory.consCell (a : Nat) (v : Byte) (m : Memory) : Memory := if v = Memory.blank then m else (a, v) :: m

/-- Set the byte at an address, keeping the canonical form. -/
def Memory.write : Memory → Nat → Byte → Memory
  | [], a, v => Memory.consCell a v []
  | (b, w) :: m, a, v =>
    if a < b then Memory.consCell a v ((b, w) :: m)
    else if a = b then Memory.consCell a v m
    else (b, w) :: Memory.write m a v

/-- `MemRead(addr, 1)` (rule R43): addresses are 32 bits and wrap (rule R44). -/
def memRead8 (m : Memory) (a : Word) : Byte := Memory.read m a.toNat

/-- `MemRead(addr, 2)` (rules R40, R43): two byte reads, little-endian, the second at `(addr + 1) mod 2^32`. -/
def memRead16 (m : Memory) (a : Word) : Half := memRead8 m (a + 1) ++ memRead8 m a

/-- `pln_index(k, r, b)` (rule R45). -/
def plnIndex (cfg : Cfg) (k r b : Nat) : Nat := (k * cfg.panelH + r) * planeRowBytes cfg + b

/-- `PlnRead(i)` (rule R45). -/
def plnRead (m : Memory) (i : Nat) : Byte := Memory.read m i

/-- `PlnWrite(i, v)` (rule R45). -/
def plnWrite (m : Memory) (i : Nat) (v : Byte) : Memory := Memory.write m i v

/-- `LUT[i]` (rule R22). -/
def Lut.read (t : Lut) (i : Half) : Byte :=
  (((t[i.toNat / 4096]'(by omega))[i.toNat / 256 % 16]'(by omega))[i.toNat / 16 % 16]'(by omega))[i.toNat % 16]'(by omega)

/-- `BUF[CUR]` (rule R118). -/
def currentBuf (p : Peripheral) : Row := if p.cur then p.buf1 else p.buf0

/-- `BUF[CUR] <- row` (rule R118). -/
def writeCurrentBuf (row : Row) (p : Peripheral) : Peripheral :=
  if p.cur then { p with buf1 := row } else { p with buf0 := row }

/-- One event taken by the reference peripheral (the table of rule R118); `none` where the event's precondition fails. -/
def periphTake (e : Event) (p : Peripheral) : Option Peripheral :=
  match e with
  | .frameStart => if p.isOpen then none else some { p with isOpen := true, pos := 0, rows := [] }
  | .bufWrite row => some (writeCurrentBuf row p)
  | .switchBuf => some { p with cur := !p.cur }
  | .commitRow d =>
    if p.isOpen then
      some { p with rows := p.rows ++ [⟨p.pos, some (currentBuf p), some d⟩], pos := p.pos + 1, cur := !p.cur }
    else none
  | .fastSkip => if p.isOpen then some { p with rows := p.rows ++ [⟨p.pos, none, none⟩], pos := p.pos + 1 } else none
  | .frameEnd => if p.isOpen then some { p with isOpen := false } else none
  | .dwell _ => some p

/-- The reference peripheral after a list of events (rule R118). -/
def periphRun (es : List Event) (p : Option Peripheral) : Option Peripheral :=
  es.foldl (fun q e => q.bind (periphTake e)) p

/-- The operation code of an event on the peripheral operation port (rule R70); a `Dwell` is not an operation (rule R72). -/
def opCode : Event → Option (BitVec 3)
  | .frameStart => some 0
  | .frameEnd => some 1
  | .bufWrite _ => some 2
  | .switchBuf => some 3
  | .commitRow _ => some 4
  | .fastSkip => some 5
  | .dwell _ => none

/-- `emit E` (rule R5): append the event to the trace, stamped with the sequencer position (rule R13), which is also the act
of performing it on the peripheral. -/
def emit (e : Event) (s : State) : State :=
  { s with trace := s.trace ++ [⟨s.pass, s.k, s.row, e⟩], periph := s.periph.bind (periphTake e) }

/-- `PASS <- p` (rule R12). -/
def setPass (p : Nat) (s : State) : State := { s with pass := BitVec.ofNat 5 p }

/-- `K <- k` (rule R12). -/
def setK (k : Nat) (s : State) : State := { s with k := BitVec.ofNat 4 k }

/-- `ROW <- r` (rule R12). -/
def setRow (r : Nat) (s : State) : State := { s with row := BitVec.ofNat 16 r }

/-- `SKIPPING <- v` (rule R15). -/
def setSkipping (v : Half) (s : State) : State := { s with skipping := v }

/-- Accept of a presented descriptor (rule R61): `DESC <- d`; `BUSY <- 1`; `ALLOC_OK` is sampled. -/
def accept (p : Presented) (s : State) : State := { s with desc := p.data, busy := true, allocOk := p.allocOk }

/-- `end with ERR <- e` (rule R125): `ERR <- e`; `PASS <- 0`; `K <- 0`; `ROW <- 0`; `BUSY <- 0`. -/
def endWith (e : ErrCode) (s : State) : State := { s with err := e, pass := 0, k := 0, row := 0, busy := false }

/-- `raise e` (rules R125, R152): the command ends with the error code and nothing else happens. There is no vector, no saved
address and no mode to change; nothing is returned from (rule R158). -/
def raise (e : ErrCode) (s : State) : State := endWith e s

end Sys2Proof.Machine
end

