-- ==== Sys2Proof/Machine/Lut.lean ====
section
/-! DEFINITION. The LUT compiler: the threshold rule, the table's contents and the operation `compile` (rules R80 to R88). -/

namespace Sys2Proof.Machine

/-- `activate(v, k)` (rule R81): frame `k` gives a pixel of intensity `v` a darkening pulse iff `v > k`. -/
def activate (v k : Nat) : Bool := decide (k < v)

/-- Lane value of one pixel in a LUT entry (rule R82): the activation bit in the low bit of lane `j`, bits `[2j+1:2j]`. -/
def laneBit (j : Nat) (on : Bool) : Byte := if on then 1#8 <<< (2 * j) else 0

/-- The four lanes of the intensities `v0 v1 v2 v3` in frame `k` (rules R82, R83, R84). -/
def lanes (k v0 v1 v2 v3 : Nat) : Byte :=
  laneBit 0 (activate v0 k) ||| laneBit 1 (activate v1 k) ||| laneBit 2 (activate v2 k) ||| laneBit 3 (activate v3 k)

/-- `lut4(k)[i]` (rule R83): pixel `j` of the group is the nibble `i[4j+3:4j]`. -/
def lut4 (k : Nat) (i : Half) : Byte :=
  lanes k (i.extractLsb' 0 4).toNat (i.extractLsb' 4 4).toNat (i.extractLsb' 8 4).toNat (i.extractLsb' 12 4).toNat

/-- `lut2(k)[i]` (rule R84): pixel `j` is the two-bit field `j` of the low byte of `i`. -/
def lut2 (k : Nat) (i : Half) : Byte :=
  lanes k (i.extractLsb' 0 2).toNat (i.extractLsb' 2 2).toNat (i.extractLsb' 4 2).toNat (i.extractLsb' 6 2).toNat

/-- The entry `compile(k, bd)` writes at index `i` (rule R85). -/
def lutEntry (bd : BitDepth) (k : Nat) (i : Half) : Byte :=
  match bd with
  | .two => lut2 k i
  | .four => lut4 k i

/-- The whole table `compile(k, bd)` leaves in the LUT (rule R85). -/
def compiledLut (bd : BitDepth) (k : Nat) : Lut := Lut.tabulate fun i => lutEntry bd k (BitVec.ofNat 16 i)

/-- `LUT_VALID <- 0` (rule R85). -/
def lutInvalidate (s : State) : State := { s with lutValid := false }

/-- The loop of rule R85 that writes all 65536 entries; the order of the writes is not observable (log
entry 15). -/
def lutFill (bd : BitDepth) (k : Nat) (s : State) : State := { s with lut := compiledLut bd k }

/-- `LUT_K <- k ; LUT_BD <- bd ; LUT_VALID <- 1` (rule R85). -/
def lutTag (bd : BitDepth) (k : Nat) (s : State) : State :=
  { s with lutK := BitVec.ofNat 4 k, lutBd := BitVec.ofNat 3 (depthBits bd), lutValid := true }

/-- The packed algorithm `trick4(i, k)` (rule R88, informative): the four comparisons in one 32-bit register. -/
def trick4 (i : Half) (k : Nat) : Byte :=
  let v0 : Word := i.setWidth 32
  let v1 := (v0 ||| (v0 <<< 8)) &&& 0x00FF00FF#32
  let v2 := (v1 ||| (v1 <<< 4)) &&& 0x0F0F0F0F#32
  let v3 := v2 + BitVec.ofNat 32 (15 - k) * 0x01010101#32
  let v4 := v3 &&& 0x10101010#32
  (v4.extractLsb' 4 1).setWidth 8 ||| ((v4.extractLsb' 12 1).setWidth 8 <<< 2)
    ||| ((v4.extractLsb' 20 1).setWidth 8 <<< 4) ||| ((v4.extractLsb' 28 1).setWidth 8 <<< 6)

end Sys2Proof.Machine
end

