-- ==== Sys2Proof/Machine/Codec.lean ====
section
/-! DEFINITION. The bit-plane reorderer (codec): masks, translation through the LUT, the interleave, the fill row, and the
compaction of an output row into plane bytes (rules R90 to R104). -/

namespace Sys2Proof.Machine

/-- Lane `j` of a mask: `0b11 << 2j` (rule R92). -/
def laneMask (j : Nat) (on : Bool) : Byte := if on then 3#8 <<< (2 * j) else 0

/-- Pixel `p` is in the horizontal span `[x, x+w)` (rule R92). -/
def inSpan (x w p : Nat) : Bool := decide (x ≤ p) && decide (p < x + w)

/-- The group mask `M(c, x, w)` (rule R92). -/
def groupMask (c x w : Nat) : Byte :=
  laneMask 0 (inSpan x w (4 * c)) ||| laneMask 1 (inSpan x w (4 * c + 1))
    ||| laneMask 2 (inSpan x w (4 * c + 2)) ||| laneMask 3 (inSpan x w (4 * c + 3))

/-- The address of the first byte of framebuffer row `r` (rule R41); the arithmetic wraps modulo `2^32` (rule R44). -/
def rowBase (cfg : Cfg) (fb : Word) (bd : BitDepth) (r : Nat) : Word := fb + BitVec.ofNat 32 (r * srcStride cfg bd)

/-- The LUT index of group `c` of the row at address `a`: its chunk, 16 bits at 4 bits per pixel, one zero-extended byte at
2 (rules R42, R93). -/
def groupIndex (m : Memory) (a : Word) (bd : BitDepth) (c : Nat) : Half :=
  match bd with
  | .four => memRead16 m (a + BitVec.ofNat 32 (2 * c))
  | .two => (memRead8 m (a + BitVec.ofNat 32 c)).setWidth 16

/-- Byte `c` of `pre_row` (rule R93): a group whose mask is zero is not read. -/
def preByte (t : Lut) (m : Memory) (a : Word) (bd : BitDepth) (x w c : Nat) : Byte :=
  if groupMask c x w = 0 then 0 else t.read (groupIndex m a bd c) &&& groupMask c x w

/-- `pre_row(r, fb, bd, x, w)` (rule R93). -/
def preRow (cfg : Cfg) (t : Lut) (m : Memory) (r : Nat) (fb : Word) (bd : BitDepth) (x w : Nat) : Row :=
  (List.range (groups cfg)).map (preByte t m (rowBase cfg fb bd r) bd x w)

/-- `interleave(P)[i] = P[i xor 2]` (rule R95). -/
def interleave (p : Row) : Row := (List.range p.length).map fun i => p.getD (i ^^^ 2) 0

/-- `image_row(r, fb, bd, k, x, w)` (rule R96); the frame index is the one the LUT was compiled for. -/
def imageRow (cfg : Cfg) (t : Lut) (m : Memory) (r : Nat) (fb : Word) (bd : BitDepth) (x w : Nat) : Row :=
  interleave (preRow cfg t m r fb bd x w)

/-- `fill_row(b, x, w)` (rule R97). -/
def fillRowOf (cfg : Cfg) (b : Byte) (x w : Nat) : Row :=
  interleave ((List.range (groups cfg)).map fun c => b &&& groupMask c x w)

/-- `NULLROW` (rule R25): hardwired, `LINE_BYTES` bytes of `0x00`. -/
def nullRow (cfg : Cfg) : Row := List.replicate (lineBytes cfg) 0

/-- `n(e)` (rule R100): the four activation bits of an output byte. -/
def activationBits (e : Byte) : BitVec 4 :=
  e.extractLsb' 6 1 ++ e.extractLsb' 4 1 ++ e.extractLsb' 2 1 ++ e.extractLsb' 0 1

/-- `x4(h)` (rule R100): the output byte with the four given activation bits. -/
def lanesOfBits (h : BitVec 4) : Byte :=
  0#1 ++ h.extractLsb' 3 1 ++ 0#1 ++ h.extractLsb' 2 1 ++ 0#1 ++ h.extractLsb' 1 1 ++ 0#1 ++ h.extractLsb' 0 1

/-- `compact(O)` (rule R100): byte `b` holds the activation bits of output bytes `2b` (low nibble) and `2b+1`. -/
def compact (o : Row) : Row :=
  (List.range (o.length / 2)).map fun b => activationBits (o.getD (2 * b + 1) 0) ++ activationBits (o.getD (2 * b) 0)

/-- `expand(Q)` (rule R100). -/
def expand (q : Row) : Row :=
  q.flatMap fun b => [lanesOfBits (b.extractLsb' 0 4), lanesOfBits (b.extractLsb' 4 4)]

/-- `unary_row(k, r)` (rule R103). -/
def unaryRow (cfg : Cfg) (pln : Memory) (k r : Nat) : Row :=
  expand ((List.range (planeRowBytes cfg)).map fun b => plnRead pln (plnIndex cfg k r b))

/-- The first `n` `PlnWrite`s of a plane row (rule R102): byte `b` of `Q` at `pln_index(k, r, b)`, in order. -/
def storeBytes (cfg : Cfg) (k r : Nat) (q : Row) (n : Nat) (pln : Memory) : Memory :=
  (List.range n).foldl (fun m b => plnWrite m (plnIndex cfg k r b) (q.getD b 0)) pln

/-- All the `PlnWrite`s of one plane row (rule R102). -/
def storePlaneRow (cfg : Cfg) (k r : Nat) (q : Row) (pln : Memory) : Memory :=
  storeBytes cfg k r q (planeRowBytes cfg) pln

end Sys2Proof.Machine
end

