-- ==== Sys2Proof/Machine/Pipeline.lean ====
section
/-! DEFINITION. The pipelined row-skip controller (rules R110 to R116). -/

namespace Sys2Proof.Machine

/-- `scan_start()` (rule R113). -/
def scanStart (s : State) : State := setSkipping 0 s

/-- `output_row(d)` (rule R111): the counter is reset, then the current buffer is committed. -/
def outputRow (d : Half) (s : State) : State := emit (.commitRow d) (setSkipping 0 s)

/-- The loop condition of `busy_wait(n)` no longer holds at a reading of `CCOUNT`: at least `n` ticks have passed since `t0`, the
difference taken modulo `2^32` (rule R114). -/
def waitOver (n t0 now : Word) : Bool := !decide ((now - t0).toNat < n.toNat)

/-- The loop of `busy_wait(n)` over the successive readings of the input `CCOUNT` (rules R30, R114): how many of them it polls in
vain before one at which it ends; `none` if it does not end in them (rule R163). Log entry 13. -/
def pollsInVain (n t0 : Word) : List Word → Option Nat
  | [] => none
  | c :: cs => if waitOver n t0 c then some 0 else (pollsInVain n t0 cs).map (· + 1)

/-- `busy_wait(n)` in an untimed model (rules R72, R114): the event alone. -/
def busyWait (n : Word) (s : State) : State := emit (.dwell n) s

/-- `SKIPPING <- min(SKIPPING + 1, 0xFFFF)` (rule R112). -/
def countSkip (s : State) : State :=
  setSkipping (if s.skipping = 0xFFFF then 0xFFFF else s.skipping + 1) s

/-- The slow skip of rule R112: neutral row, minimal pulse, dissipation wait. -/
def slowSkip (s : State) : State :=
  busyWait s.cfg.dissipation (emit (.commitRow s.cfg.minPulse) (emit (.bufWrite (nullRow s.cfg)) s))

/-- `skip_row()` (rule R112): slow for the first two skips of a run, fast from the third on. -/
def skipRow (s : State) : State :=
  countSkip (if s.skipping.toNat < 2 then slowSkip s else emit .fastSkip s)

end Sys2Proof.Machine
end

