-- ==== Sys2Proof/Machine/Sequencer.lean ====
section
/-! DEFINITION. The frame sequencer: a command's rule as the list of micro-operations its pseudocode performs, in program
order (rules R6, R50, R125, R131), and the running of such a list. A prefix of the list is the command stopped part-way. -/

namespace Sys2Proof.Machine

/-- One statement of a command rule's pseudocode. -/
inductive Micro where
  /-- `PASS <- p` (rule R145). -/
  | setPass (p : Nat)
  /-- `K <- k` (rules R85, R133). -/
  | setK (k : Nat)
  /-- `ROW <- r`. -/
  | setRow (r : Nat)
  /-- `LUT_VALID <- 0` (rule R85). -/
  | lutInvalidate
  /-- The writing of the 65536 entries (rule R85). -/
  | lutFill (bd : BitDepth) (k : Nat)
  /-- The writing of the tag (rule R85). -/
  | lutTag (bd : BitDepth) (k : Nat)
  /-- `FILLROW <- fill_row(b, x, w)` (rule R141). -/
  | loadFill (b : Byte) (x w : Nat)
  /-- `scan_start()` (rule R113). -/
  | scanStart
  /-- `emit E` of an event without a computed payload. -/
  | emit (e : Event)
  /-- `emit BufWrite(image_row(r, fb, bd, k, x, w))` (rule R126). -/
  | writeImage (r : Nat) (fb : Word) (bd : BitDepth) (x w : Nat)
  /-- `emit BufWrite(FILLROW)` (rule R141). -/
  | writeFill
  /-- `emit BufWrite(unary_row(k, r))` (rule R133). -/
  | writeUnary (k r : Nat)
  /-- Computing `Q = compact(image_row(r, fb, 4, k, 0, PANEL_W))` and its `PlnWrite`s (rule R102). -/
  | storePlane (k r : Nat) (fb : Word)
  /-- `output_row(d)` (rule R111). -/
  | outputRow (d : Half)
  /-- `skip_row()` (rule R112). -/
  | skipRow
  deriving DecidableEq, Repr

/-- What one micro-operation does. -/
def doMicro (u : Micro) (s : State) : State :=
  match u with
  | .setPass p => Machine.setPass p s
  | .setK k => Machine.setK k s
  | .setRow r => Machine.setRow r s
  | .lutInvalidate => Machine.lutInvalidate s
  | .lutFill bd k => Machine.lutFill bd k s
  | .lutTag bd k => Machine.lutTag bd k s
  | .loadFill b x w => { s with fillRow := fillRowOf s.cfg b x w }
  | .scanStart => Machine.scanStart s
  | .emit e => Machine.emit e s
  | .writeImage r fb bd x w => Machine.emit (.bufWrite (imageRow s.cfg s.lut s.mem r fb bd x w)) s
  | .writeFill => Machine.emit (.bufWrite s.fillRow) s
  | .writeUnary k r => Machine.emit (.bufWrite (unaryRow s.cfg s.pln k r)) s
  | .storePlane k r fb =>
    { s with pln := storePlaneRow s.cfg k r (compact (imageRow s.cfg s.lut s.mem r fb .four 0 s.cfg.panelW)) s.pln }
  | .outputRow d => Machine.outputRow d s
  | .skipRow => Machine.skipRow s

/-- A list of micro-operations, one after another (rule R50: each is complete before the next begins). -/
def runMicros (us : List Micro) (s : State) : State := us.foldl (fun t u => doMicro u t) s

/-- The first `j` statements of a micro-operation that is several statements: of a slow skip its three events, of `output_row`
the reset of the counter, of a plane row its `PlnWrite`s (rules R102, R111, R112). One that is a single statement has not
happened yet. -/
def partMicro (j : Nat) (u : Micro) (s : State) : State :=
  match u with
  | .skipRow =>
    ((if s.skipping.toNat < 2 then [.bufWrite (nullRow s.cfg), .commitRow s.cfg.minPulse, .dwell s.cfg.dissipation]
      else [.fastSkip]).take j).foldl (fun t e => Machine.emit e t) s
  | .outputRow _ => if j = 0 then s else setSkipping 0 s
  | .storePlane k r fb =>
    { s with
      pln := storeBytes s.cfg k r (compact (imageRow s.cfg s.lut s.mem r fb .four 0 s.cfg.panelW))
        (min j (planeRowBytes s.cfg)) s.pln }
  | .setPass _ => s
  | .setK _ => s
  | .setRow _ => s
  | .lutInvalidate => s
  | .lutFill _ _ => s
  | .lutTag _ _ => s
  | .loadFill _ _ _ => s
  | .scanStart => s
  | .emit _ => s
  | .writeImage _ _ _ _ _ => s
  | .writeFill => s
  | .writeUnary _ _ => s

/-- `compile(k, bd)` (rule R85). -/
def compileOps (bd : BitDepth) (k : Nat) : List Micro := [.lutInvalidate, .setK k, .lutFill bd k, .lutTag bd k]

/-- The shape every frame has (rules R116, R126, R133, R141): what comes before the scan, `scan_start`, `FrameStart`, the row
loop, the flush with the frame's duration `d`, `FrameEnd`. -/
def frameOps (cfg : Cfg) (before : List Micro) (rowOps : Nat → List Micro) (d : Half) : List Micro :=
  before ++ [.scanStart, .setRow 0, .emit .frameStart]
    ++ (List.range cfg.panelH).flatMap (fun r => .setRow r :: rowOps r)
    ++ [.setRow cfg.panelH, .outputRow d, .emit .frameEnd]

/-- The end of the check stage and the run stage (rules R125, R151, R153): the first error that holds ends the command, else
its micro-operations run and it ends with `OK`. -/
def checkAndRun (error : Option ErrCode) (ops : List Micro) (s : State) : State :=
  match error with
  | some e => raise e s
  | none => endWith .ok (runMicros ops s)

end Sys2Proof.Machine
end

