-- ==== Sys2Proof/Machine/CodecCommands.lean ====
section
/-! DEFINITION. The command `ENCODE_UNARY` (rule R102). -/

namespace Sys2Proof.Machine

/-- The run stage of `ENCODE_UNARY` (rule R102): plane by plane, row by row. -/
def encodeOps (cfg : Cfg) (fb : Word) : List Micro :=
  (List.range 15).flatMap fun k =>
    compileOps .four k ++ (List.range cfg.panelH).flatMap fun r => [.setRow r, .storePlane k r fb]

/-- `ENCODE_UNARY fb` (rule R102). -/
def execEncodeUnary (fb : Word) (s : State) : Host.Outcome State Fault Refusal :=
  .next (checkAndRun (allocError s.allocOk) (encodeOps s.cfg fb) s)

end Sys2Proof.Machine
end

