-- ==== Sys2Proof/Machine/ImageCommands.lean ====
section
/-! DEFINITION. The image path and the unary replay: `DRAW_IMAGE` (rule R126) and `DRAW_UNARY` (rule R133). -/

namespace Sys2Proof.Machine

/-- The row loop's body in `DRAW_IMAGE` (rules R126, R129). -/
def imageRowOps (cfg : Cfg) (rc : Rect) (fb : Word) (bd : BitDepth) (k r : Nat) : List Micro :=
  if rowInside rc r then [.writeImage r fb bd rc.x rc.w, .outputRow (contrast cfg bd k)] else [.skipRow]

/-- The run stage of `DRAW_IMAGE` (rule R126): the frames in order (rule R127). -/
def imageOps (cfg : Cfg) (rc : Rect) (fb : Word) (bd : BitDepth) : List Micro :=
  (List.range (frameCount bd)).flatMap fun k =>
    frameOps cfg (compileOps bd k) (imageRowOps cfg rc fb bd k) (contrast cfg bd k)

/-- `DRAW_IMAGE x, y, w, h, fb, bd` (rule R126), its checks in the order of rule R151. -/
def execDrawImage (x y w h : Half) (fb : Word) (bd : Byte) (s : State) : Host.Outcome State Fault Refusal :=
  .next (match bitDepthOf bd with
    | none => raise .bitDepth s
    | some dep =>
      checkAndRun ((rectError s.cfg (rectOf x y w h)).or (allocError s.allocOk))
        (imageOps s.cfg (rectOf x y w h) fb dep) s)

/-- The run stage of `DRAW_UNARY` (rule R133): fifteen frames, every row output. -/
def unaryOps (cfg : Cfg) : List Micro :=
  (List.range 15).flatMap fun k =>
    frameOps cfg [.setK k] (fun r => [.writeUnary k r, .outputRow (contrast cfg .four k)]) (contrast cfg .four k)

/-- `DRAW_UNARY` (rule R133). -/
def execDrawUnary (s : State) : Host.Outcome State Fault Refusal :=
  .next (checkAndRun (allocError s.allocOk) (unaryOps s.cfg) s)

end Sys2Proof.Machine
end

