-- ==== Sys2Proof/Machine/LutCommands.lean ====
section
/-! DEFINITION. The command `LUT_COMPILE` (rule R86). -/

namespace Sys2Proof.Machine

/-- `LUT_COMPILE k, bd` (rule R86), its checks in the order of rule R151. -/
def execLutCompile (k : Half) (bd : Byte) (s : State) : Host.Outcome State Fault Refusal :=
  .next (match bitDepthOf bd with
    | none => raise .bitDepth s
    | some dep => checkAndRun ((frameError dep k).or (allocError s.allocOk)) (compileOps dep k.toNat) s)

end Sys2Proof.Machine
end

