-- ==== Sys2Proof/Machine/PatternCommands.lean ====
section
/-! DEFINITION. The pattern path: `DRAW_SOLID_BYTE` (rule R143) and `CLEAR` with its fixed recipe (rules R145, R146). -/

namespace Sys2Proof.Machine

/-- The row loop's body in `pattern_frame` (rules R141, R142): skip outside the rect, prime both halves at its first row. -/
def patternRowOps (rc : Rect) (d : Half) (r : Nat) : List Micro :=
  if !rowInside rc r then [.skipRow]
  else if r = rc.y then [.emit .switchBuf, .writeFill, .emit .switchBuf, .writeFill, .outputRow d]
  else [.outputRow d]

/-- `pattern_frame(x, y, w, h, d, b)` (rule R141). -/
def patternFrameOps (cfg : Cfg) (rc : Rect) (d : Half) (b : Byte) : List Micro :=
  frameOps cfg [.loadFill b rc.x rc.w] (patternRowOps rc d) d

/-- `DRAW_SOLID_BYTE x, y, w, h, d, b` (rule R143), its checks in the order of rule R151. -/
def execDrawSolidByte (x y w h d : Half) (b : Byte) (s : State) : Host.Outcome State Fault Refusal :=
  .next (checkAndRun ((rectError s.cfg (rectOf x y w h)).or (allocError s.allocOk))
    (patternFrameOps s.cfg (rectOf x y w h) d b) s)

/-- `RECIPE[p].byte` (rule R146). -/
def recipeByte (p : Nat) : Byte := if p / 3 % 2 = 0 then darkByte else clearByte

/-- `RECIPE[p].duration` (rule R146). -/
def recipeDuration (cfg : Cfg) (p : Nat) : Half := if p < 3 then cfg.darkTime else cfg.clearTime

/-- The run stage of `CLEAR` (rule R145): the 18 passes in order, none shortened, merged or reordered (rule R147). -/
def clearOps (cfg : Cfg) (rc : Rect) : List Micro :=
  (List.range 18).flatMap fun p => .setPass p :: patternFrameOps cfg rc (recipeDuration cfg p) (recipeByte p)

/-- `CLEAR x, y, w, h` (rule R145), its checks in the order of rule R151. -/
def execClear (x y w h : Half) (s : State) : Host.Outcome State Fault Refusal :=
  .next (checkAndRun ((rectError s.cfg (rectOf x y w h)).or (allocError s.allocOk))
    (clearOps s.cfg (rectOf x y w h)) s)

end Sys2Proof.Machine
end

