-- ==== Sys2Proof/Machine/Dispatch.lean ====
section
/-! DEFINITION. One arm per command, each a direct call of its meaning (rule R64). -/

namespace Sys2Proof.Machine

-- The run of a decoded command after its accept: the check stage and the run stage of rule R125.
def exec (i : Instr) (s : State) : Host.Outcome State Fault Refusal :=
  match i with
  | .lutCompile k bd => Sys2Proof.Machine.execLutCompile k bd s
  | .drawImage x y w h fb bd => Sys2Proof.Machine.execDrawImage x y w h fb bd s
  | .drawSolidByte x y w h d b => Sys2Proof.Machine.execDrawSolidByte x y w h d b s
  | .clear x y w h => Sys2Proof.Machine.execClear x y w h s
  | .encodeUnary fb => Sys2Proof.Machine.execEncodeUnary fb s
  | .drawUnary => Sys2Proof.Machine.execDrawUnary s

end Sys2Proof.Machine
end

