-- ==== Sys2Proof/Machine/Fetch.lean ====
section
/-! DEFINITION. Taking the next descriptor from the command port, and running the one taken (rules R60, R61, R66). -/

namespace Sys2Proof.Machine

/-- The descriptor presented on the command port and the state after its accept, if one is presented (rules R60, R61). -/
def fetch (s : State) : Option (Desc × State) :=
  match s.port with
  | [] => none
  | p :: rest => some (p.data, accept p { s with port := rest })

/-- The accepted descriptor is decoded, and its command runs, or it raises `ERR_OPCODE` (rules R61, R66). -/
def runDescriptor (d : Desc) (s : State) : Host.Outcome State Fault Refusal :=
  match decode d with
  | .ok i => exec i s
  | .error _ => .next (raise .opcode s)

/-- `s`, idle, with the descriptor `w` (its `nbits` low bits) presented first on the command port, `ALLOC_OK` being 1 as in a
conforming instance (rules R60, R156; log entry 8). -/
def presentFirst (nbits w : Nat) (s : State) : State :=
  { s with busy := false, port := ⟨BitVec.ofNat 128 (w % 2 ^ nbits), true⟩ :: s.port }

end Sys2Proof.Machine
end

