-- ==== Sys2Proof/Machine/Step.lean ====
section
/-! DEFINITION. One step of the machine: an idle block accepts the presented descriptor and runs its command to the end
(rules R6, R61, R125). -/

namespace Sys2Proof.Machine

/-- One step. Idle with a descriptor presented: accept it and run it (rule R61). Idle with none presented: the block stays as
it is, ready. A block that is busy between steps is stuck (entry U7, log entry 6). Log entries 5 and 17. -/
def step (s : State) : Host.Outcome State Fault Refusal :=
  if s.busy then .fault .hung
  else match fetch s with
    | none => .next s
    | some (d, t) => runDescriptor d t

/-- `s` with the descriptor `w` (its `nbits` low bits) presented so that the next step accepts and runs it. -/
def State.withFetchWord (s : State) (nbits w : Nat) : State := presentFirst nbits w s

end Sys2Proof.Machine
end

