-- ==== Sys2Proof/Machine/Flags.lean ====
section
/-! DEFINITION. The flags and the read-only registers (rules R14, R17 to R20): every register word computed from the state
and `CFG`. -/

namespace Sys2Proof.Machine

/-- A flag as a bit. -/
def flagBit (b : Bool) : BitVec 1 := if b then 1 else 0

/-- The four-bit code of an outcome (rule R150). -/
def errBits : ErrCode → BitVec 4
  | .ok => 0
  | .bitDepth => 1
  | .noMem => 2
  | .rect => 3
  | .opcode => 4
  | .frame => 5

/-- `STATUS` (rule R18). -/
def statusWord (s : State) : Word :=
  0#16 ++ s.lutK ++ s.lutBd ++ flagBit s.lutValid ++ errBits s.err ++ 0#3 ++ flagBit s.busy

/-- `SEQ` (rule R19). -/
def seqWord (s : State) : Word := 0#7 ++ s.pass ++ s.k ++ s.row

/-- `SKIPCNT` (rule R19). -/
def skipcntWord (s : State) : Word := 0#16 ++ s.skipping

/-- A ROM word with two 16-bit halves, the low one first. -/
def halves (lo hi : Half) : Word := hi ++ lo

/-- The word of `REG` with index `n`, that is at offset `4n` (rule R20); an index not listed reads 0 (rule R17). -/
def regWord (s : State) (n : Nat) : Word :=
  match n with
  | 0 => statusWord s
  | 1 => seqWord s
  | 2 => skipcntWord s
  | 4 => s.desc.extractLsb' 0 32
  | 5 => s.desc.extractLsb' 32 32
  | 6 => s.desc.extractLsb' 64 32
  | 7 => s.desc.extractLsb' 96 32
  | 8 => halves (.ofNat 16 s.cfg.panelW) (.ofNat 16 s.cfg.panelH)
  | 9 => halves s.cfg.minPulse 0
  | 10 => s.cfg.dissipation
  | 11 => 0#16 ++ clearByte ++ darkByte
  | 12 => halves s.cfg.darkTime s.cfg.clearTime
  | 16 => halves (s.cfg.contrast4.getD 0 0) (s.cfg.contrast4.getD 1 0)
  | 17 => halves (s.cfg.contrast4.getD 2 0) (s.cfg.contrast4.getD 3 0)
  | 18 => halves (s.cfg.contrast4.getD 4 0) (s.cfg.contrast4.getD 5 0)
  | 19 => halves (s.cfg.contrast4.getD 6 0) (s.cfg.contrast4.getD 7 0)
  | 20 => halves (s.cfg.contrast4.getD 8 0) (s.cfg.contrast4.getD 9 0)
  | 21 => halves (s.cfg.contrast4.getD 10 0) (s.cfg.contrast4.getD 11 0)
  | 22 => halves (s.cfg.contrast4.getD 12 0) (s.cfg.contrast4.getD 13 0)
  | 23 => halves (s.cfg.contrast4.getD 14 0) 0
  | 24 => halves (s.cfg.contrast2.getD 0 0) (s.cfg.contrast2.getD 1 0)
  | 25 => halves (s.cfg.contrast2.getD 2 0) 0
  | _ => 0

end Sys2Proof.Machine
end

