-- ==== Sys2Proof/Machine/HostPort.lean ====
section
/-! DEFINITION. The host's side of the block: presenting descriptors, reading registers and the LUT window, writing memory,
reset, and a command stopped part-way (rules R17, R20, R21, R23, R46, R51, R60, R168, R170). None of these is a step: they are
what the outside world may do between steps. -/

namespace Sys2Proof.Machine

/-- `cmd_ready = not BUSY` (rule R60). -/
def cmdReady (s : State) : Bool := !s.busy

/-- `cmd_valid`: the host presents a descriptor (rule R60). -/
def cmdValid (s : State) : Bool := !s.port.isEmpty

/-- `cmd_data`: the descriptor presented, held until it is accepted (rules R60, R182). -/
def cmdData (s : State) : Option Desc := s.port.head?.map (·.data)

/-- The host presents a descriptor after those already waiting; it is held until it is accepted (rules R60, R61, R182). -/
def present (p : Presented) (s : State) : State := { s with port := s.port ++ [p] }

/-- What the `n`-th host read of the `REG` word with index `i` returns while the block is busy (rule R21): `STATUS` shows
`BUSY = 1`, its reserved bits 0 and any value in its other fields (log entry 12); `SEQ` and `SKIPCNT` any value; `CMD0` to `CMD3` and the ROM
registers their defined value. -/
def busyRegWord (n : Nat) (s : State) (i : Nat) : Word :=
  match i with
  | 0 => (Config.anyWord n &&& 0x0000FFF0#32) ||| 1#32
  | 1 => Config.anyWord n
  | 2 => Config.anyWord n
  | _ => regWord s i

/-- The `n`-th host read of `REG` at a byte offset, rounded down to a multiple of 4 (rules R17, R20, R21, R46). It has no side
effect: it is a function of the state. -/
def hostReadReg (n off : Nat) (s : State) : Word :=
  if s.busy then busyRegWord n s (off / 4) else regWord s (off / 4)

/-- A byte-wise read of `REG`: bits `[7:0]` of a word are at its lowest offset (rule R40 (b)). -/
def hostReadRegByte (n off : Nat) (s : State) : Byte := (hostReadReg n off s).extractLsb' (8 * (off % 4)) 8

/-- A host write to `REG` is ignored (rule R17). -/
def hostWriteReg (_off : Nat) (_v : Word) (s : State) : State := s

/-- The `n`-th host read of `LUTMEM` (rules R21, R23): the LUT byte when the block is idle and the table is valid, else any
byte. -/
def hostReadLut (n : Nat) (i : Half) (s : State) : Byte :=
  if !s.busy && s.lutValid then s.lut.read i else Config.anyByte n

/-- A host write to `LUTMEM` is ignored (rule R23). -/
def hostWriteLut (_i : Half) (_v : Byte) (s : State) : State := s

/-- The host reads a byte of its own memory. -/
def hostReadMem (a : Word) (s : State) : Byte := memRead8 s.mem a

/-- The commands that read `MEM` (rules R28, R47). -/
def readsMem : Instr → Bool
  | .lutCompile _ _ => false
  | .drawImage _ _ _ _ _ _ => true
  | .drawSolidByte _ _ _ _ _ _ => false
  | .clear _ _ _ _ => false
  | .encodeUnary _ => true
  | .drawUnary => false

/-- The commands that read or write `PLN` (rules R28, R47). -/
def usesPln : Instr → Bool
  | .lutCompile _ _ => false
  | .drawImage _ _ _ _ _ _ => false
  | .drawSolidByte _ _ _ _ _ _ => false
  | .clear _ _ _ _ => false
  | .encodeUnary _ => true
  | .drawUnary => true

/-- A command with the given property is running: the one whose descriptor `DESC` holds (rule R11). -/
def runningWith (f : Instr → Bool) (s : State) : Bool :=
  s.busy && match decode s.desc with
    | .ok i => f i
    | .error _ => false

/-- The host writes a byte of `MEM` (rules R43, R51); `none` while a command that reads `MEM` runs (entry U5: refused;
log entry 9). -/
def hostWriteMem (a : Word) (v : Byte) (s : State) : Option State :=
  if runningWith readsMem s then none else some { s with mem := Memory.write s.mem a.toNat v }

/-- The host reads a byte of `PLN` (rules R28, R176); `none` outside the array, or while a command that uses `PLN` runs
(log entries 9 and 18). -/
def hostReadPln (i : Nat) (s : State) : Option Byte :=
  if i < plnSize s.cfg ∧ runningWith usesPln s = false then some (plnRead s.pln i) else none

/-- The host writes a byte of `PLN` (rules R28, R45, R51, R176); `none` outside the array, or while a command that uses `PLN`
runs (entry U5: refused; log entries 9 and 18). -/
def hostWritePln (i : Nat) (v : Byte) (s : State) : Option State :=
  if i < plnSize s.cfg ∧ runningWith usesPln s = false then some { s with pln := plnWrite s.pln i v } else none

/-- The reset input is asserted (rule R170): the block's registers take the values of rule R32; the LUT and `FILLROW` are left
with unspecified contents, here arbitrary arguments (rule R171, entry U2); no event is emitted and neither `MEM` nor `PLN` is
written (log entry 11). What lies outside the block (the port's waiting descriptors, the peripheral) is not reset with it (rule R168). -/
def assertReset (lut : Lut) (fillRow : Row) (s : State) : State :=
  { s with
    desc := 0, pass := 0, k := 0, row := 0, busy := false, err := .ok, lutValid := false, lutBd := 0, lutK := 0,
    skipping := 0, lut := lut, fillRow := fillRow }

/-- The host resets the peripheral (rule R118): `OPEN = 0`, `CUR = 0`, both buffers unspecified. Rule R118 gives no reset value
for `POS` and `ROWS`: that they are 0 and empty is the model's choice (DESIGN CHOICE, log entry 4). -/
def resetPeripheral (buf0 buf1 : Row) (s : State) : State :=
  { s with periph := some ⟨buf0, buf1, false, 0, false, []⟩ }

/-- The run stage of a command that passes its checks, as its list of micro-operations. -/
def runOps (cfg : Cfg) : Instr → List Micro
  | .lutCompile k bd => match bitDepthOf bd with
    | some dep => compileOps dep k.toNat
    | none => []
  | .drawImage x y w h fb bd => match bitDepthOf bd with
    | some dep => imageOps cfg (rectOf x y w h) fb dep
    | none => []
  | .drawSolidByte x y w h d b => patternFrameOps cfg (rectOf x y w h) d b
  | .clear x y w h => clearOps cfg (rectOf x y w h)
  | .encodeUnary fb => encodeOps cfg fb
  | .drawUnary => unaryOps cfg

/-- The state an accepted command that passed its checks has reached after its first `n` micro-operations (rule R6): `BUSY` is
1 and the sequencer position says where it is (rule R13). -/
def partWay (i : Instr) (n : Nat) (s : State) : State := runMicros ((runOps s.cfg i).take n) s

/-- The same, with the first `j` statements of the micro-operation that comes next. -/
def midWay (i : Instr) (n j : Nat) (s : State) : State :=
  match (runOps s.cfg i)[n]? with
  | some u => partMicro j u (partWay i n s)
  | none => partWay i n s

/-- Reset while the block is busy (rules R168, R170): the command is abandoned where it stood, and the trace simply stops, at
any event (entry U11, log entry 21). -/
def resetDuring (i : Instr) (n j : Nat) (lut : Lut) (fillRow : Row) (s : State) : State :=
  assertReset lut fillRow (midWay i n j s)

end Sys2Proof.Machine
end

