-- ==== Sys2Proof/Safety.lean ====
section
/-! DEFINITION. The terms claims use: the idle state and the invariant of the states between steps, what a run may reach, the
error a command reports, and the traces of rules R126, R133, R141 and R145 in closed form, without the skip counter. -/

namespace Sys2Proof.Machine

/-- The sequencer position is at rest (rule R16). -/
def AtRest (s : State) : Prop := s.pass = 0 ∧ s.k = 0 ∧ s.row = 0

/-- The block is idle (rule R16). -/
def Idle (s : State) : Prop := s.busy = false ∧ s.skipping = 0 ∧ AtRest s

/-- The tag says which table the LUT holds (rules R18, R24). -/
def LutTagged (s : State) : Prop :=
  s.lutValid = true → ∃ bd k, k < frameCount bd ∧ s.lutK = BitVec.ofNat 4 k ∧ s.lutBd = BitVec.ofNat 3 (depthBits bd)
    ∧ s.lut = compiledLut bd k

/-- A peripheral between frames whose buffers hold whole rows (rules R71, R118). -/
def BetweenFrames (cfg : Cfg) (p : Peripheral) : Prop :=
  p.isOpen = false ∧ p.buf0.length = lineBytes cfg ∧ p.buf1.length = lineBytes cfg

/-- The invariant of the states between steps: the block is idle (rule R16), the tag is true (rule R24), the row latch holds a
whole row (rule R26), both memories are in canonical form and within their spaces (rules R43, R45), and the reference
peripheral is between frames (rule R119). -/
structure Inv (s : State) : Prop where
  idle : Idle s
  tagged : LutTagged s
  fillRow : s.fillRow.length = lineBytes s.cfg
  memWf : Memory.wf s.mem
  memIn : ∀ c ∈ s.mem, c.1 < 2 ^ 32
  plnWf : Memory.wf s.pln
  plnIn : ∀ c ∈ s.pln, c.1 < plnSize s.cfg
  periph : ∃ p, s.periph = some p ∧ BetweenFrames s.cfg p

/-- Unspecified initial contents of the right shape: whole rows, memories in canonical form and within their spaces. -/
structure PowerUp.Wf (u : PowerUp) : Prop where
  fillRow : u.fillRow.length = lineBytes u.cfg
  buf0 : u.buf0.length = lineBytes u.cfg
  buf1 : u.buf1.length = lineBytes u.cfg
  memWf : Memory.wf u.mem
  memIn : ∀ c ∈ u.mem, c.1 < 2 ^ 32
  plnWf : Memory.wf u.pln
  plnIn : ∀ c ∈ u.pln, c.1 < plnSize u.cfg

/-- A run is safe when no step of it stops. -/
def Safe (s : State) : Prop := ∃ t, step s = .next t

/-- The rect operand of a command that has one. -/
def rectOperand : Instr → Option Rect
  | .lutCompile _ _ => none
  | .drawImage x y w h _ _ => some (rectOf x y w h)
  | .drawSolidByte x y w h _ _ => some (rectOf x y w h)
  | .clear x y w h => some (rectOf x y w h)
  | .encodeUnary _ => none
  | .drawUnary => none

/-- The bit-depth operand of a command that has one. -/
def depthOperand : Instr → Option Byte
  | .lutCompile _ bd => some bd
  | .drawImage _ _ _ _ _ bd => some bd
  | .drawSolidByte _ _ _ _ _ _ => none
  | .clear _ _ _ _ => none
  | .encodeUnary _ => none
  | .drawUnary => none

/-- `ERR_BITDEPTH` is due (rule R155). -/
def badDepth (i : Instr) : Prop := ∃ a, depthOperand i = some a ∧ a ≠ 2 ∧ a ≠ 4

/-- `ERR_FRAME` is due, once the bit depth is known good (rule R155). -/
def badFrame (i : Instr) : Prop := ∃ k bd dep, i = .lutCompile k bd ∧ bitDepthOf bd = some dep ∧ frameCount dep ≤ k.toNat

/-- `ERR_RECT` is due (rule R154). -/
def badRect (cfg : Cfg) (i : Instr) : Prop :=
  ∃ r, rectOperand i = some r ∧ ¬ (r.x + r.w ≤ cfg.panelW ∧ r.y + r.h ≤ cfg.panelH)

/-- The error checks of rule R151 all pass, on the state of the accepted command. -/
def Passes (i : Instr) (s : State) : Prop :=
  ¬ badDepth i ∧ ¬ badFrame i ∧ ¬ badRect s.cfg i ∧ s.allocOk = true

/-- The states a system reaches: from reset with any unspecified contents, by presenting descriptors, by host writes between
commands, by steps, and by a reset of the block, at rest or in the middle of a command, together with the peripheral (rules
R168, R170, R172). -/
inductive Reachable : State → Prop where
  | powerUp (u : PowerUp) (h : u.Wf) : Reachable (State.resetWith u)
  | present (p : Presented) {s : State} (h : Reachable s) : Reachable (present p s)
  | writeMem (a : Word) (v : Byte) {s t : State} (h : Reachable s) (hw : hostWriteMem a v s = some t) : Reachable t
  | writePln (i : Nat) (v : Byte) {s t : State} (h : Reachable s) (hw : hostWritePln i v s = some t) : Reachable t
  | step {s t : State} (h : Reachable s) (hs : step s = .next t) : Reachable t
  | reset (lut : Lut) (fillRow buf0 buf1 : Row) {s : State} (h : Reachable s)
      (hf : fillRow.length = lineBytes s.cfg) (h0 : buf0.length = lineBytes s.cfg) (h1 : buf1.length = lineBytes s.cfg) :
      Reachable (resetPeripheral buf0 buf1 (assertReset lut fillRow s))
  | resetDuring (p : Presented) (i : Instr) (n j : Nat) (lut : Lut) (fillRow buf0 buf1 : Row) {s : State} (h : Reachable s)
      (hd : decode p.data = .ok i) (hp : Passes i (accept p s))
      (hf : fillRow.length = lineBytes s.cfg) (h0 : buf0.length = lineBytes s.cfg) (h1 : buf1.length = lineBytes s.cfg) :
      Reachable (resetPeripheral buf0 buf1 (resetDuring i n j lut fillRow (accept p s)))

/-- The state after a command ended by error `e`: only `ERR` and `BUSY` are written, and the position is 0 (rule R152). -/
def afterError (e : ErrCode) (s : State) : State := { s with err := e, pass := 0, k := 0, row := 0, busy := false }

/-- The events of a trace without their positions. -/
def eventsOf (t : List Emitted) : List Event := t.map (·.event)

/-- A trace with the `PASS` of every entry erased. -/
def withoutPass (t : List Emitted) : List Emitted := t.map fun e => { e with pass := 0 }

/-- An event stamped with a sequencer position (rule R13). -/
def stamp (p k r : Nat) (e : Event) : Emitted := ⟨BitVec.ofNat 5 p, BitVec.ofNat 4 k, BitVec.ofNat 16 r, e⟩

/-- The events of a slow skip (rule R112). -/
def slowEvents (cfg : Cfg) : List Event :=
  [.bufWrite (nullRow cfg), .commitRow cfg.minPulse, .dwell cfg.dissipation]

/-- The events of skip number `n` (from 0) of a run that starts with the counter at 0 (rule R115). -/
def skipEvents (cfg : Cfg) (n : Nat) : List Event := if n < 2 then slowEvents cfg else [.fastSkip]

/-- The events of a run of `m` skips (rule R115). -/
def skipRunEvents (cfg : Cfg) (m : Nat) : List Event :=
  (List.replicate (min m 2) (slowEvents cfg)).flatten ++ List.replicate (m - 2) .fastSkip

/-- How many skips precede row `r` in its run of skipped rows: the rows above the rect are one run, those below another, and
an empty rect makes all rows one run (rules R115, R130, R132). -/
def skipIndex (rc : Rect) (r : Nat) : Nat := if r < rc.y ∨ rc.h = 0 then r else r - (rc.y + rc.h)

/-- The trace of one frame at pass `p` and frame index `k` (rules R13, R116, R119). -/
def frameTrace (cfg : Cfg) (p k : Nat) (rowEvents : Nat → List Event) (d : Half) : List Emitted :=
  [stamp p k 0 .frameStart] ++ (List.range cfg.panelH).flatMap (fun r => (rowEvents r).map (stamp p k r))
    ++ [stamp p k cfg.panelH (.commitRow d), stamp p k cfg.panelH .frameEnd]

/-- The events of row `r` in frame `k` of the image path (rules R126, R129). -/
def imageRowEvents (cfg : Cfg) (m : Memory) (rc : Rect) (fb : Word) (bd : BitDepth) (k r : Nat) : List Event :=
  if rowInside rc r then
    [.bufWrite (imageRow cfg (compiledLut bd k) m r fb bd rc.x rc.w), .commitRow (contrast cfg bd k)]
  else skipEvents cfg (skipIndex rc r)

/-- The trace of `DRAW_IMAGE` (rule R126). -/
def imageTrace (cfg : Cfg) (m : Memory) (rc : Rect) (fb : Word) (bd : BitDepth) : List Emitted :=
  (List.range (frameCount bd)).flatMap fun k =>
    frameTrace cfg 0 k (imageRowEvents cfg m rc fb bd k) (contrast cfg bd k)

/-- The trace of `DRAW_UNARY` (rule R133). -/
def unaryTrace (cfg : Cfg) (pln : Memory) : List Emitted :=
  (List.range 15).flatMap fun k =>
    frameTrace cfg 0 k (fun r => [.bufWrite (unaryRow cfg pln k r), .commitRow (contrast cfg .four k)])
      (contrast cfg .four k)

/-- The events of row `r` of a pattern frame (rules R141, R142). -/
def patternRowEvents (cfg : Cfg) (rc : Rect) (d : Half) (b : Byte) (r : Nat) : List Event :=
  if rowInside rc r then
    (if r = rc.y then
      [.switchBuf, .bufWrite (fillRowOf cfg b rc.x rc.w), .switchBuf, .bufWrite (fillRowOf cfg b rc.x rc.w)]
    else []) ++ [.commitRow d]
  else skipEvents cfg (skipIndex rc r)

/-- The trace of one pattern frame at pass `p` (rule R141). -/
def patternTrace (cfg : Cfg) (p : Nat) (rc : Rect) (d : Half) (b : Byte) : List Emitted :=
  frameTrace cfg p 0 (patternRowEvents cfg rc d b) d

/-- The trace of `CLEAR` (rules R145, R146). -/
def clearTrace (cfg : Cfg) (rc : Rect) : List Emitted :=
  (List.range 18).flatMap fun p => patternTrace cfg p rc (recipeDuration cfg p) (recipeByte p)

/-- A position event of the scan (rule R117). -/
def isPosition : Event → Bool
  | .frameStart => false
  | .frameEnd => false
  | .bufWrite _ => false
  | .switchBuf => false
  | .commitRow _ => true
  | .fastSkip => true
  | .dwell _ => false

/-- An event that opens or closes a frame. -/
def isBracket : Event → Bool
  | .frameStart => true
  | .frameEnd => true
  | .bufWrite _ => false
  | .switchBuf => false
  | .commitRow _ => false
  | .fastSkip => false
  | .dwell _ => false

/-- The form of a frame (rule R119): `FrameStart`, then `PANEL_H + 1` position events among other events, the last of them a
`CommitRow`, then `FrameEnd`. -/
def IsFrame (cfg : Cfg) (es : List Event) : Prop :=
  ∃ body d, es = [.frameStart] ++ body ++ [.commitRow d, .frameEnd] ∧ body.all (fun e => !isBracket e) = true
    ∧ body.countP isPosition = cfg.panelH

/-- The intensity of pixel `x` of framebuffer row `r`, read from the byte that holds it (rules R41, R42). -/
def pixelAt (cfg : Cfg) (m : Memory) (fb : Word) (bd : BitDepth) (r x : Nat) : Nat :=
  match bd with
  | .four => ((memRead8 m (rowBase cfg fb .four r + BitVec.ofNat 32 (x / 2))).extractLsb' (4 * (x % 2)) 4).toNat
  | .two => ((memRead8 m (rowBase cfg fb .two r + BitVec.ofNat 32 (x / 4))).extractLsb' (2 * (x % 4)) 2).toNat

/-- The address of byte `n` of the chunk of group `c` of row `r` (rule R42). -/
def chunkAddress (cfg : Cfg) (fb : Word) (bd : BitDepth) (r c n : Nat) : Word :=
  match bd with
  | .four => rowBase cfg fb .four r + BitVec.ofNat 32 (2 * c) + BitVec.ofNat 32 n
  | .two => rowBase cfg fb .two r + BitVec.ofNat 32 c

/-- The read set of `DRAW_IMAGE` (rule R54): the chunk bytes of the groups that hold a pixel of the horizontal span, in the
rows of the vertical span. -/
def InReadSet (cfg : Cfg) (rc : Rect) (fb : Word) (bd : BitDepth) (a : Word) : Prop :=
  ∃ r c n j, rowInside rc r = true ∧ c < groups cfg ∧ n < 2 ∧ j < 4 ∧ inSpan rc.x rc.w (4 * c + j) = true
    ∧ a = chunkAddress cfg fb bd r c n

/-- Commands presented one after another, each accepted when the one before has ended (rule R68). -/
def execAll : List Instr → State → Host.Outcome State Fault Refusal
  | [], s => .next s
  | i :: is, s =>
    match exec i s with
    | .next t => execAll is t
    | .fault f => .fault f
    | .refused r => .refused r

/-- The `DRAW_SOLID_BYTE` commands of the clear recipe, in order (rules R145, R146). -/
def recipeCommands (cfg : Cfg) (x y w h : Half) : List Instr :=
  (List.range 18).map fun p => .drawSolidByte x y w h (recipeDuration cfg p) (recipeByte p)

/-- How many frames a command emits once its checks pass (rule R119). -/
def framesOf : Instr → Nat
  | .lutCompile _ _ => 0
  | .drawImage _ _ _ _ _ bd => match bitDepthOf bd with
    | some dep => frameCount dep
    | none => 0
  | .drawSolidByte _ _ _ _ _ _ => 1
  | .clear _ _ _ _ => 18
  | .encodeUnary _ => 0
  | .drawUnary => 15

/-- The number of slow skips in a frame over a rect (rule R132). -/
def slowCount (cfg : Cfg) (rc : Rect) : Nat :=
  if rc.h = 0 then min cfg.panelH 2 else min rc.y 2 + min (cfg.panelH - rc.y - rc.h) 2

/-- The number of fast skips in a frame over a rect (rule R132). -/
def fastCount (cfg : Cfg) (rc : Rect) : Nat :=
  if rc.h = 0 then cfg.panelH - 2 else (rc.y - 2) + (cfg.panelH - rc.y - rc.h - 2)

/-- The event is a `CommitRow`. -/
def isCommit : Event → Bool
  | .frameStart => false
  | .frameEnd => false
  | .bufWrite _ => false
  | .switchBuf => false
  | .commitRow _ => true
  | .fastSkip => false
  | .dwell _ => false

/-- The event is a `BufWrite`. -/
def isWrite : Event → Bool
  | .frameStart => false
  | .frameEnd => false
  | .bufWrite _ => true
  | .switchBuf => false
  | .commitRow _ => false
  | .fastSkip => false
  | .dwell _ => false

/-- The event is a `Dwell`. -/
def isDwell : Event → Bool
  | .frameStart => false
  | .frameEnd => false
  | .bufWrite _ => false
  | .switchBuf => false
  | .commitRow _ => false
  | .fastSkip => false
  | .dwell _ => true

/-- The entry the reference peripheral logs for a skipped row (rules R112, R120 (b), (c)). -/
def skippedEntry (cfg : Cfg) (rc : Rect) (r : Nat) : RowEntry :=
  if skipIndex rc r < 2 then ⟨r, some (nullRow cfg), some cfg.minPulse⟩ else ⟨r, none, none⟩

/-- What row `r` presents when the rect's rows carry `data` with duration `d` (rules R117, R120). -/
def presentedEntry (cfg : Cfg) (rc : Rect) (data : Nat → Row) (d : Half) (r : Nat) : RowEntry :=
  if rowInside rc r then ⟨r, some (data r), some d⟩ else skippedEntry cfg rc r

end Sys2Proof.Machine
end

