-- ==== Sys2Proof/Certificates/Slice0/Obligations.lean ====
section
/-! DEFINITION. The statements about the machine, one `def Obligations.<Name> : Prop` each, from the numbered rules of the
spec. `OBLIGATIONS.json` lists them with the rule or the sections each rests on. -/

open Sys2Proof Sys2Proof.Machine

/-! ### The step, reset and the invariant -/

/-- An idle block accepts the first presented descriptor and runs the command it decodes to, after `DESC <- d`, `BUSY <- 1` and
the sampling of `ALLOC_OK` (rule R61). -/
def Obligations.StepRunsTheDecodedCommand : Prop :=
  ∀ (s : State) (p : Presented) (rest : List Presented) (i : Instr),
    s.busy = false → s.port = p :: rest → decode p.data = .ok i →
      step s = exec i { s with port := rest, desc := p.data, busy := true, allocOk := p.allocOk }

/-- An illegal descriptor is accepted and raises `ERR_OPCODE`; nothing but `DESC` and `ERR` changes in an idle block (rule
R66); the port moves on and the sampled `ALLOC_OK` is the descriptor's. -/
def Obligations.IllegalDescriptorRaisesOpcodeError : Prop :=
  ∀ (s : State) (p : Presented) (rest : List Presented) (e : Illegal),
    Idle s → s.port = p :: rest → decode p.data = .error e →
      step s = .next { s with port := rest, desc := p.data, allocOk := p.allocOk, err := .opcode }

/-- An idle block with nothing presented stays as it is. The model's choice of what a step then is: log entry 5. -/
def Obligations.StepWithoutDescriptorChangesNothing : Prop :=
  ∀ s : State, s.busy = false → s.port = [] → step s = .next s

/-- While `BUSY = 1` the block is not ready and accepts nothing. That the step then faults is the model's choice: log entry 6. -/
def Obligations.BusyBlockAcceptsNothing : Prop :=
  ∀ s : State, s.busy = true → cmdReady s = false ∧ step s = .fault .hung

/-- The state after reset, whatever the unspecified contents are (rule R32): the registers are 0, the block is idle and its
command port ready, the registers read 0, and the ROM registers hold their `CFG` values as before. -/
def Obligations.ResetLeavesRegistersZero : Prop :=
  ∀ u : PowerUp,
    let s := State.resetWith u
    s.desc = 0 ∧ s.pass = 0 ∧ s.k = 0 ∧ s.row = 0 ∧ s.busy = false ∧ s.err = .ok ∧ s.lutValid = false ∧ s.lutK = 0
      ∧ s.lutBd = 0 ∧ s.skipping = 0 ∧ cmdReady s = true
      ∧ (∀ n, n < 8 → regWord s n = 0)
      ∧ (∀ t : State, t.cfg = u.cfg → ∀ n, 8 ≤ n → regWord s n = regWord t n)
      ∧ nullRow s.cfg = List.replicate (s.cfg.panelW / 4) 0

/-- The invariant holds after reset with any unspecified contents of the right shape, and in `State.reset`. -/
def Obligations.ResetEstablishesTheInvariant : Prop :=
  (∀ u : PowerUp, u.Wf → Inv (State.resetWith u)) ∧ Inv State.reset

/-- Every step keeps the invariant: the block is idle between commands with `SKIPPING = PASS = K = ROW = 0` (rule R16), the LUT
is the table its tag names (rule R24), `MEM` and `PLN` stay canonical and inside their spaces, and the peripheral is between
frames, so none of its preconditions was ever broken (rules R118, R119). -/
def Obligations.StepKeepsTheInvariant : Prop :=
  ∀ s t : State, Inv s → step s = .next t → Inv t

/-- Every state a system reaches has the invariant: after any steps, any presented descriptors, host writes between commands,
and resets at rest or in the middle of a command. -/
def Obligations.ReachableStatesHaveTheInvariant : Prop :=
  ∀ s : State, Reachable s → Inv s

/-- Every command ends, in every state and for every operand, with the block idle and at rest (rules R125, R131, R187); it
writes neither `DESC`, `CFG`, the port nor any byte of `MEM`, and leaves `SKIPPING` 0 if it was. Rules R131 and R187 say that a
command ends provided the peripheral takes every operation and `CCOUNT` advances: that a run of `exec` has both is the model's
assumption, log entry 17. -/
def Obligations.EveryCommandEndsAtRest : Prop :=
  ∀ (i : Instr) (s : State), ∃ t, exec i s = .next t ∧ t.busy = false ∧ AtRest t ∧ (s.skipping = 0 → t.skipping = 0)
    ∧ t.desc = s.desc ∧ t.cfg = s.cfg ∧ t.port = s.port ∧ t.allocOk = s.allocOk ∧ ∀ a, memRead8 t.mem a = memRead8 s.mem a

/-! ### Encoding -/

/-- Decoding an encoded command gives it back, with every operand at every value its field admits. -/
def Obligations.DecodeInvertsEncode : Prop :=
  ∀ i : Instr, decode (encode i) = .ok i

/-- A descriptor that decodes to a command is that command's encoding: no bit is dropped. -/
def Obligations.EncodeInvertsDecode : Prop :=
  ∀ (d : Desc) (i : Instr), decode d = .ok i → encode i = d

/-- A descriptor selects a command iff `d & mask = match` for a row of the opcode table, and at most one row can match (rules
R65, R73). -/
def Obligations.DecodeFollowsTheTable : Prop :=
  (∀ d : Desc, (∃ i, decode d = .ok i) ↔ ∃ r ∈ opcodeTable, selectsRow r d = true)
    ∧ (∀ (d : Desc) (i : Instr), decode d = .ok i → selectsRow (rowOf i) d = true)
    ∧ ∀ (d : Desc) (r q : OpRow), r ∈ opcodeTable → q ∈ opcodeTable → selectsRow r d = true → selectsRow q d = true → r = q

/-- The illegal descriptors are those whose `OP` is `0x00` or `0x07` to `0xFF`, or whose `OP` is valid but which have a non-zero
bit in a must-be-zero field of their command (rules R65, R66). -/
def Obligations.IllegalDescriptorsExactly : Prop :=
  ∀ d : Desc, (∃ e, decode d = .error e) ↔
    (fieldOP d = 0 ∨ 7 ≤ (fieldOP d).toNat
      ∨ (fieldOP d = 1 ∧ ¬ (fieldX d = 0 ∧ fieldY d = 0 ∧ fieldW d = 0 ∧ fieldH d = 0 ∧ fieldADDR d = 0))
      ∨ (fieldOP d = 2 ∧ fieldB d ≠ 0)
      ∨ (fieldOP d = 3 ∧ fieldADDR d ≠ 0)
      ∨ (fieldOP d = 4 ∧ ¬ (fieldA d = 0 ∧ fieldB d = 0 ∧ fieldADDR d = 0))
      ∨ (fieldOP d = 5 ∧ ¬ (fieldA d = 0 ∧ fieldB d = 0 ∧ fieldX d = 0 ∧ fieldY d = 0 ∧ fieldW d = 0 ∧ fieldH d = 0))
      ∨ (fieldOP d = 6 ∧ ¬ (fieldA d = 0 ∧ fieldB d = 0 ∧ fieldX d = 0 ∧ fieldY d = 0 ∧ fieldW d = 0 ∧ fieldH d = 0
        ∧ fieldADDR d = 0)))

/-- One descriptor of each command, as the spec's vectors write it, decodes to its command. -/
def Obligations.SpecDescriptorsDecode : Prop :=
  decode 0x000000000000000000000000000E0401#128 = .ok (.lutCompile 14 4)
    ∧ decode 0x200000000002000A0003000300000402#128 = .ok (.drawImage 3 3 10 2 0x20000000 4)
    ∧ decode 0x00000000000200080002000400285503#128 = .ok (.drawSolidByte 4 2 8 2 40 0x55)
    ∧ decode 0x00000000000200100001000000000004#128 = .ok (.clear 0 1 16 2)
    ∧ decode 0x00001000000000000000000000000005#128 = .ok (.encodeUnary 0x1000)
    ∧ decode 0x00000000000000000000000000000006#128 = .ok .drawUnary

/-- The pseudo-commands expand to one command each with `CFG` values filled in (rule R69). -/
def Obligations.PseudoCommandsExpand : Prop :=
  ∀ (cfg : Cfg) (fb bd x y w h d : Nat), (Line.drawScreen fb bd).wellFormed = true →
    (Line.fillDark x y w h d).wellFormed = true →
    assemble cfg .clearScreen = assemble cfg (.clear 0 0 cfg.panelW cfg.panelH)
      ∧ assemble cfg (.drawScreen fb bd) = assemble cfg (.drawImage 0 0 cfg.panelW cfg.panelH fb bd)
      ∧ assemble cfg (.fillDark x y w h d) = assemble cfg (.drawSolidByte x y w h d 0x55)
      ∧ assemble cfg (.fillClear x y w h d) = assemble cfg (.drawSolidByte x y w h d 0xAA)

/-! ### Errors -/

/-- Which error a command reports (rule R151): the first that holds in the order `ERR_OPCODE`, `ERR_BITDEPTH`, `ERR_FRAME`,
`ERR_RECT`, `ERR_NOMEM`. The state after it differs from the idle state before its accept only in `DESC` and `ERR` (rule
R152); the port moves on and the sampled `ALLOC_OK` is the descriptor's. -/
def Obligations.FirstErrorIsReported : Prop :=
  ∀ (s : State) (p : Presented) (rest : List Presented), Idle s → s.port = p :: rest →
    let ends (e : ErrCode) : Prop :=
      step s = .next { s with port := rest, desc := p.data, allocOk := p.allocOk, err := e }
    ((∃ e, decode p.data = .error e) → ends .opcode)
      ∧ ∀ i, decode p.data = .ok i →
        (badDepth i → ends .bitDepth)
          ∧ (¬ badDepth i → badFrame i → ends .frame)
          ∧ (¬ badDepth i → ¬ badFrame i → badRect s.cfg i → ends .rect)
          ∧ (¬ badDepth i → ¬ badFrame i → ¬ badRect s.cfg i → p.allocOk = false → ends .noMem)

/-- A command whose checks pass runs to its end and reports `OK` (rule R153). -/
def Obligations.PassingCommandReportsOk : Prop :=
  ∀ (i : Instr) (s : State), Passes i s → ∃ t, exec i s = .next t ∧ t.err = .ok

/-- The bit-depth, frame and rect checks (rules R154, R155): `A` is legal iff it is 2 or 4; the frame index is too large from 3
on at `A = 2` and from 15 on at `A = 4`; the sums of the rect check do not wrap. -/
def Obligations.OperandChecksAreExact : Prop :=
  (∀ a : Byte, bitDepthOf a = none ↔ ¬ (a = 2 ∨ a = 4))
    ∧ (∀ k : Half, (frameError .two k = some .frame ↔ 3 ≤ k.toNat) ∧ (frameError .four k = some .frame ↔ 15 ≤ k.toNat))
    ∧ bitDepthOf 2 = some .two ∧ bitDepthOf 4 = some .four
    ∧ (∀ (cfg : Cfg) (x y w h : Half), rectError cfg (rectOf x y w h) = none ↔
        (x.toNat + w.toNat ≤ cfg.panelW ∧ y.toNat + h.toNat ≤ cfg.panelH))
    ∧ (∀ (cfg : Cfg) (y h : Half), rectError cfg (rectOf 0xFFFF y 1 h) = some .rect)

/-! ### The LUT compiler -/

/-- A pixel of intensity `v` is activated in exactly the first `v` frames (rule R87 (a), (b)). -/
def Obligations.FirstFramesActivate : Prop :=
  ∀ (bd : BitDepth) (v : Nat), v < 2 ^ depthBits bd →
    (List.range (frameCount bd)).filter (fun k => activate v k) = List.range v

/-- `activate` is unsigned `v > k` (rule R81). -/
def Obligations.ActivateComparesUnsigned : Prop :=
  ∀ v k : Nat, activate v k = true ↔ v > k

/-- The lanes of a table entry (rules R82, R83, R84): the low bit of lane `j` is the activation bit of field `j` of the index,
the high bit is 0, at both bit depths. -/
def Obligations.TableEntryLanes : Prop :=
  ∀ (k : Nat) (i : Half) (j : Nat), j < 4 →
    (lut4 k i).getLsbD (2 * j) = activate (i.extractLsb' (4 * j) 4).toNat k ∧ (lut4 k i).getLsbD (2 * j + 1) = false
      ∧ (lut2 k i).getLsbD (2 * j) = activate (i.extractLsb' (2 * j) 2).toNat k ∧ (lut2 k i).getLsbD (2 * j + 1) = false

/-- The packed algorithm gives the table's entry for every index and frame (rule R88). -/
def Obligations.PackedAlgorithmGivesTheTable : Prop :=
  ∀ (i : Half) (k : Nat), k < 15 → trick4 i k = lut4 k i

/-- `LUT_COMPILE` with legal operands (rule R86): all 65536 entries and the tag are written, `ERR` is 0, and nothing else
changes but `BUSY` and the position; the host then reads the entries through `LUTMEM`. -/
def Obligations.LutCompileWritesTheTable : Prop :=
  ∀ (s : State) (k : Half) (bd : Byte) (dep : BitDepth),
    bitDepthOf bd = some dep → k.toNat < frameCount dep → s.allocOk = true →
      ∃ t, exec (.lutCompile k bd) s = .next t
        ∧ t = { s with
            lut := t.lut, lutValid := true, lutK := BitVec.ofNat 4 k.toNat, lutBd := BitVec.ofNat 3 (depthBits dep)
            err := .ok, busy := false, pass := 0, k := 0, row := 0 }
        ∧ (∀ i, t.lut.read i = match dep with
            | .two => lut2 k.toNat i
            | .four => lut4 k.toNat i)
        ∧ ∀ n i, hostReadLut n i t = t.lut.read i

/-! ### The codec -/

/-- The group mask keeps exactly the lanes of the pixels in the span (rule R92); it is `0xFF` for a group wholly inside and
`0x00` for one wholly outside. -/
def Obligations.GroupMaskKeepsSpanLanes : Prop :=
  ∀ c x w : Nat,
    (∀ n, n < 8 → ((groupMask c x w).getLsbD n = true ↔ x ≤ 4 * c + n / 2 ∧ 4 * c + n / 2 < x + w))
      ∧ ((x ≤ 4 * c ∧ 4 * c + 3 < x + w) → groupMask c x w = 0xFF)
      ∧ ((4 * c + 3 < x ∨ x + w ≤ 4 * c) → groupMask c x w = 0x00)

/-- The interleave (rule R95): byte `i` of the result is byte `i xor 2`, the length stays, and applying it twice gives the row
back. -/
def Obligations.InterleaveSwapsHalves : Prop :=
  ∀ p : Row, p.length % 4 = 0 →
    (interleave p).length = p.length ∧ (∀ i, i < p.length → (interleave p)[i]? = p[i ^^^ 2]?)
      ∧ interleave (interleave p) = p

/-- `compact` and `expand` undo each other: on every row whose lanes are `0b00` or `0b01`, and on every plane row (rule
R100). -/
def Obligations.CompactAndExpandRoundTrip : Prop :=
  (∀ o : Row, o.length % 2 = 0 → (∀ b ∈ o, b &&& 0xAA#8 = 0) → expand (compact o) = o) ∧ ∀ q : Row, compact (expand q) = q

/-- What the image path puts on every pixel (rules R42, R81, R91, R93, R95): output byte `i` drives group `i xor 2`; lane `j` of
it is `0b01` if that pixel is in the span and its intensity in the framebuffer is activated in frame `k`, else `0b00`. -/
def Obligations.ImageRowDrivesEachPixel : Prop :=
  ∀ (cfg : Cfg) (m : Memory) (r : Nat) (fb : Word) (bd : BitDepth) (k x w i j : Nat),
    i < lineBytes cfg → j < 4 →
      let o := (imageRow cfg (compiledLut bd k) m r fb bd x w).getD i 0
      let px := 4 * (i ^^^ 2) + j
      (o.getLsbD (2 * j) = true ↔ x ≤ px ∧ px < x + w ∧ activate (pixelAt cfg m fb bd r px) k = true)
        ∧ o.getLsbD (2 * j + 1) = false ∧ px < cfg.panelW

/-- The fill row (rule R97): lane `j` of the fill byte goes to pixel `4c+j` of every group, masked to the span. -/
def Obligations.FillRowDrivesEachPixel : Prop :=
  ∀ (cfg : Cfg) (b : Byte) (x w i n : Nat), i < lineBytes cfg → n < 8 →
    (((fillRowOf cfg b x w).getD i 0).getLsbD n = true ↔
      b.getLsbD n = true ∧ x ≤ 4 * (i ^^^ 2) + n / 2 ∧ 4 * (i ^^^ 2) + n / 2 < x + w)

/-- The plane store's layout (rule R45): every index the block forms is in range, and no two of them are the same. -/
def Obligations.PlaneIndexInRangeAndInjective : Prop :=
  ∀ (cfg : Cfg) (k r b k' r' b' : Nat), k < 15 → r < cfg.panelH → b < planeRowBytes cfg →
    k' < 15 → r' < cfg.panelH → b' < planeRowBytes cfg →
      plnIndex cfg k r b < plnSize cfg ∧ (plnIndex cfg k r b = plnIndex cfg k' r' b' → k = k' ∧ r = r' ∧ b = b')

/-- `ENCODE_UNARY` (rule R102): every plane byte holds the compacted output row of its plane and row, every other byte of `PLN`
reads as before, the LUT is left as `compile(14, 4)`, and nothing else changes but `ERR`, `BUSY` and the position. -/
def Obligations.EncodeUnaryWritesThePlanes : Prop :=
  ∀ (s : State) (fb : Word), Memory.wf s.pln → s.allocOk = true →
    ∃ t, exec (.encodeUnary fb) s = .next t
      ∧ t = { s with
          pln := t.pln, lut := compiledLut .four 14, lutValid := true, lutK := 14, lutBd := 4
          err := .ok, busy := false, pass := 0, k := 0, row := 0 }
      ∧ (∀ k r b, k < 15 → r < s.cfg.panelH → b < planeRowBytes s.cfg →
          plnRead t.pln (plnIndex s.cfg k r b) =
            (compact (imageRow s.cfg (compiledLut .four k) s.mem r fb .four 0 s.cfg.panelW)).getD b 0)
      ∧ (∀ a, (∀ k r b, k < 15 → r < s.cfg.panelH → b < planeRowBytes s.cfg → a ≠ plnIndex s.cfg k r b) →
          plnRead t.pln a = plnRead s.pln a)
      ∧ Memory.wf t.pln

/-- The round trip (rule R104): after `ENCODE_UNARY` the row replayed for plane `k`, row `r` is the row the image path makes. -/
def Obligations.ReplayedRowsAreImageRows : Prop :=
  ∀ (s t : State) (fb : Word) (k r : Nat), Memory.wf s.pln → s.allocOk = true → exec (.encodeUnary fb) s = .next t →
    k < 15 → r < s.cfg.panelH →
      unaryRow t.cfg t.pln k r = imageRow s.cfg (compiledLut .four k) s.mem r fb .four 0 s.cfg.panelW

/-! ### The row pipeline -/

/-- `output_row(d)` (rule R111): the counter is reset and one `CommitRow(d)` is emitted. -/
def Obligations.OutputRowCommits : Prop :=
  ∀ (d : Half) (s : State), outputRow d s =
    { s with
      skipping := 0
      trace := s.trace ++ [⟨s.pass, s.k, s.row, .commitRow d⟩]
      periph := s.periph.bind (periphTake (.commitRow d)) }

/-- `skip_row()` (rule R112): a slow skip while the counter is below 2, a fast one from then on; the counter counts, saturating
at `0xFFFF`. -/
def Obligations.SkipRowIsSlowThenFast : Prop :=
  ∀ s : State,
    let es : List Event := if s.skipping.toNat < 2 then
        [.bufWrite (nullRow s.cfg), .commitRow s.cfg.minPulse, .dwell s.cfg.dissipation]
      else [.fastSkip]
    skipRow s = { s with
      skipping := BitVec.ofNat 16 (min (s.skipping.toNat + 1) 0xFFFF)
      trace := s.trace ++ es.map (fun e => ⟨s.pass, s.k, s.row, e⟩)
      periph := periphRun es s.periph }

/-- A run of `m` skips from a zero counter (rule R115): `min(m, 2)` slow triples, then `max(m - 2, 0)` fast skips; the counter
ends at `m`. The counter is zero at the start of a scan and after an `output_row`. -/
def Obligations.SkipRunHasTwoSlowSkips : Prop :=
  (∀ (m : Nat) (s : State), s.skipping = 0 → m ≤ 65535 →
    ∃ t, runMicros (List.replicate m .skipRow) s = t ∧ t.skipping.toNat = m
      ∧ eventsOf t.trace = eventsOf s.trace
        ++ (List.replicate (min m 2)
            [Event.bufWrite (nullRow s.cfg), .commitRow s.cfg.minPulse, .dwell s.cfg.dissipation]).flatten
        ++ List.replicate (m - 2) .fastSkip)
    ∧ ∀ (d : Half) (s : State), (scanStart s).skipping = 0 ∧ (outputRow d s).skipping = 0

/-- The busy-wait (rules R114, R163, R184): where `CCOUNT` counts up by one from reading to reading, from any value and also
across its wrap, the loop ends at the reading `n` ticks after `t0`, and not before; where it stands still, a wait of any ticks
at all never ends. -/
def Obligations.BusyWaitLastsItsTicks : Prop :=
  ∀ (n t0 : Word) (m : Nat),
    (n.toNat < m → pollsInVain n t0 ((List.range m).map fun i => t0 + BitVec.ofNat 32 i) = some n.toNat)
      ∧ (m ≤ n.toNat → pollsInVain n t0 ((List.range m).map fun i => t0 + BitVec.ofNat 32 i) = none)
      ∧ (n ≠ 0 → pollsInVain n t0 (List.replicate m t0) = none)

/-! ### The drawing commands -/

/-- `DRAW_IMAGE` with legal operands (rule R126): its trace in closed form, positions included; the LUT left as the last frame's
table; nothing else changes but `SKIPPING` (left 0), the peripheral, `ERR`, `BUSY` and the position. -/
def Obligations.DrawImageEmitsItsFrames : Prop :=
  ∀ (s : State) (x y w h : Half) (fb : Word) (bd : Byte) (dep : BitDepth), AtRest s → bitDepthOf bd = some dep →
    x.toNat + w.toNat ≤ s.cfg.panelW → y.toNat + h.toNat ≤ s.cfg.panelH → s.allocOk = true →
      exec (.drawImage x y w h fb bd) s = .next
        { s with
          trace := s.trace ++ imageTrace s.cfg s.mem (rectOf x y w h) fb dep
          periph := periphRun (eventsOf (imageTrace s.cfg s.mem (rectOf x y w h) fb dep)) s.periph
          lut := compiledLut dep (frameCount dep - 1), lutValid := true, lutK := BitVec.ofNat 4 (frameCount dep - 1)
          lutBd := BitVec.ofNat 3 (depthBits dep), skipping := 0, err := .ok, busy := false }

/-- `DRAW_SOLID_BYTE` with legal operands (rules R141, R143): one pattern frame; the LUT and `PLN` untouched, `FILLROW` left as
the masked fill row. -/
def Obligations.DrawSolidByteEmitsOneFrame : Prop :=
  ∀ (s : State) (x y w h d : Half) (b : Byte), AtRest s →
    x.toNat + w.toNat ≤ s.cfg.panelW → y.toNat + h.toNat ≤ s.cfg.panelH → s.allocOk = true →
      exec (.drawSolidByte x y w h d b) s = .next
        { s with
          trace := s.trace ++ patternTrace s.cfg 0 (rectOf x y w h) d b
          periph := periphRun (eventsOf (patternTrace s.cfg 0 (rectOf x y w h) d b)) s.periph
          fillRow := fillRowOf s.cfg b x.toNat w.toNat, skipping := 0, err := .ok, busy := false }

/-- `CLEAR` with a legal rect (rules R145, R146): the 18 frames of the recipe; `FILLROW` is left as the last pass made it, and
the LUT and `PLN` are untouched. -/
def Obligations.ClearEmitsTheRecipe : Prop :=
  ∀ (s : State) (x y w h : Half), AtRest s →
    x.toNat + w.toNat ≤ s.cfg.panelW → y.toNat + h.toNat ≤ s.cfg.panelH → s.allocOk = true →
      exec (.clear x y w h) s = .next
        { s with
          trace := s.trace ++ clearTrace s.cfg (rectOf x y w h)
          periph := periphRun (eventsOf (clearTrace s.cfg (rectOf x y w h))) s.periph
          fillRow := fillRowOf s.cfg 0xAA x.toNat w.toNat, skipping := 0, err := .ok, busy := false }

/-- `DRAW_UNARY` (rule R133): fifteen frames of the rows the plane store holds; the LUT, its tag and `PLN` untouched. -/
def Obligations.DrawUnaryReplaysThePlanes : Prop :=
  ∀ s : State, AtRest s → s.allocOk = true →
    exec .drawUnary s = .next
      { s with
        trace := s.trace ++ unaryTrace s.cfg s.pln
        periph := periphRun (eventsOf (unaryTrace s.cfg s.pln)) s.periph
        skipping := 0, err := .ok, busy := false }

/-- The equivalence of the two encodings (rule R134): once `ENCODE_UNARY fb` has run, in any state `u` with the same `PLN`, `MEM`
and `CFG`, the trace of `DRAW_UNARY` is that of the full-panel `DRAW_IMAGE 0, 0, PANEL_W, PANEL_H, fb, 4`, event for event and
byte for byte, and the final states differ only in the LUT and its tag, which `DRAW_UNARY` leaves; directly after the
`ENCODE_UNARY` not even in these. -/
def Obligations.ReplayEqualsFullPanelImage : Prop :=
  ∀ (s t u : State) (fb : Word), Memory.wf s.pln → s.allocOk = true → exec (.encodeUnary fb) s = .next t →
    u.cfg = t.cfg → u.pln = t.pln → u.mem = t.mem →
      ∃ a b, exec .drawUnary u = .next a
        ∧ exec (.drawImage 0 0 (BitVec.ofNat 16 s.cfg.panelW) (BitVec.ofNat 16 s.cfg.panelH) fb 4) u = .next b
        ∧ a.trace = b.trace
        ∧ a = { b with lut := u.lut, lutValid := u.lutValid, lutK := u.lutK, lutBd := u.lutBd }
        ∧ (u = t → a = b)

/-- `CLEAR` is equivalent, in its events and in its final state, to the eighteen `DRAW_SOLID_BYTE` commands of the recipe issued
in order (rule R145), also where it raises an error. From a state at rest the trace entries are the same but for the `PASS` they
carry, which only `CLEAR` counts (rule R12). -/
def Obligations.ClearEqualsItsEighteenFills : Prop :=
  ∀ (s : State) (x y w h : Half), ∃ t u,
    exec (.clear x y w h) s = .next t ∧ execAll (recipeCommands s.cfg x y w h) s = .next u
      ∧ eventsOf t.trace = eventsOf u.trace ∧ t = { u with trace := t.trace }
      ∧ (AtRest s → withoutPass t.trace = withoutPass u.trace)

/-- The recipe (rule R146): three dark, three clear, and so on, six groups of three; the first group with `DARK_TIME`, the
others with `CLEAR_TIME`. -/
def Obligations.RecipeTable : Prop :=
  ∀ cfg : Cfg, (List.range 18).map (fun p => (recipeByte p, recipeDuration cfg p)) =
    List.replicate 3 (0x55, cfg.darkTime) ++ List.replicate 3 (0xAA, cfg.clearTime)
      ++ List.replicate 3 (0x55, cfg.clearTime) ++ List.replicate 3 (0xAA, cfg.clearTime)
      ++ List.replicate 3 (0x55, cfg.clearTime) ++ List.replicate 3 (0xAA, cfg.clearTime)

/-- The form of every trace (rules R116, R119): what a command adds is a concatenation of frames, each `FrameStart`, then
`PANEL_H + 1` position events the last of which is a `CommitRow`, then `FrameEnd`; as many frames as the command has, and none
if it raises an error. -/
def Obligations.TracesAreWholeFrames : Prop :=
  ∀ (i : Instr) (s : State), ∃ t frames, exec i s = .next t
    ∧ eventsOf t.trace = eventsOf s.trace ++ List.flatten frames ∧ (∀ f ∈ frames, IsFrame s.cfg f)
    ∧ (Passes i s → frames.length = framesOf i) ∧ (¬ Passes i s → frames = [])

/-- The position at every event (rule R13): `ROW` is 0 at `FrameStart`, `PANEL_H` at `FrameEnd`, and never beyond; `PASS` is at
most 17 and 0 but in `CLEAR`; `K` is at most 14 and 0 in the pattern path. -/
def Obligations.EventsCarryTheirPosition : Prop :=
  ∀ (i : Instr) (s : State), AtRest s → ∃ t es, exec i s = .next t ∧ t.trace = s.trace ++ es ∧ ∀ e ∈ es,
    (e.event = .frameStart → e.row = 0) ∧ (e.event = .frameEnd → e.row.toNat = s.cfg.panelH)
      ∧ e.row.toNat ≤ s.cfg.panelH ∧ e.pass.toNat ≤ 17 ∧ e.k.toNat ≤ 14
      ∧ (∀ x y w h fb bd, i = .drawImage x y w h fb bd → e.pass = 0)
      ∧ (i = .drawUnary → e.pass = 0)
      ∧ (∀ x y w h d b, i = .drawSolidByte x y w h d b → e.pass = 0 ∧ e.k = 0)
      ∧ (∀ x y w h, i = .clear x y w h → e.k = 0)

/-- Event counts (rule R132), over all frames of a `DRAW_IMAGE` or of a `DRAW_SOLID_BYTE` whose rect passed the check. -/
def Obligations.EventCountsPerCommand : Prop :=
  ∀ (s : State) (x y w h : Half) (rc : Rect), rc = rectOf x y w h → AtRest s →
    rc.x + rc.w ≤ s.cfg.panelW → rc.y + rc.h ≤ s.cfg.panelH → s.allocOk = true →
      (∀ (fb : Word) (bd : Byte) (dep : BitDepth), bitDepthOf bd = some dep →
        ∃ t es, exec (.drawImage x y w h fb bd) s = .next t ∧ eventsOf t.trace = eventsOf s.trace ++ es
          ∧ es.countP isCommit = frameCount dep * (rc.h + 1 + slowCount s.cfg rc)
          ∧ es.countP isWrite = frameCount dep * (rc.h + slowCount s.cfg rc)
          ∧ es.countP isDwell = frameCount dep * slowCount s.cfg rc
          ∧ es.count .fastSkip = frameCount dep * fastCount s.cfg rc
          ∧ es.count .switchBuf = 0)
      ∧ ∀ (d : Half) (b : Byte), ∃ t es, exec (.drawSolidByte x y w h d b) s = .next t
          ∧ eventsOf t.trace = eventsOf s.trace ++ es
          ∧ es.countP isCommit = rc.h + 1 + slowCount s.cfg rc
          ∧ es.countP isWrite = (if rc.h = 0 then 0 else 2) + slowCount s.cfg rc
          ∧ es.countP isDwell = slowCount s.cfg rc
          ∧ es.count .fastSkip = fastCount s.cfg rc
          ∧ es.count .switchBuf = if rc.h = 0 then 0 else 2

/-- Two totals of rule R187: a full-panel `DRAW_IMAGE` at 4 bits per pixel emits `15 * (2 * PANEL_H + 3)` events, a `CLEAR` of an
empty rect `18 * (PANEL_H + 7)` where `PANEL_H >= 2`. -/
def Obligations.EventTotals : Prop :=
  ∀ s : State, s.allocOk = true →
    (∀ fb : Word, ∃ t,
      exec (.drawImage 0 0 (BitVec.ofNat 16 s.cfg.panelW) (BitVec.ofNat 16 s.cfg.panelH) fb 4) s = .next t
        ∧ t.trace.length = s.trace.length + 15 * (2 * s.cfg.panelH + 3))
    ∧ (2 ≤ s.cfg.panelH → ∀ x y w : Half, x.toNat + w.toNat ≤ s.cfg.panelW → y.toNat ≤ s.cfg.panelH → ∃ t,
      exec (.clear x y w 0) s = .next t ∧ t.trace.length = s.trace.length + 18 * (s.cfg.panelH + 7))

/-! ### What the panel receives -/

/-- What a frame of the image path presents (rules R117, R120 (a) to (c)), under the reference peripheral: for panel row `n` of the
rect the image row with the frame's duration, for the first two rows of a run of skips the neutral row with the minimal pulse,
for the others nothing; then one flush position. -/
def Obligations.ImageFramePresentsItsRows : Prop :=
  ∀ (cfg : Cfg) (m : Memory) (rc : Rect) (fb : Word) (bd : BitDepth) (k : Nat) (p : Peripheral), p.isOpen = false →
    ∃ q data,
      periphRun (eventsOf (frameTrace cfg 0 k (imageRowEvents cfg m rc fb bd k) (contrast cfg bd k))) (some p) = some q
        ∧ q.isOpen = false
        ∧ q.rows = (List.range cfg.panelH).map (presentedEntry cfg rc
              (fun r => imageRow cfg (compiledLut bd k) m r fb bd rc.x rc.w) (contrast cfg bd k))
            ++ [⟨cfg.panelH, some data, some (contrast cfg bd k)⟩]

/-- What a pattern frame presents (rules R120 (d), (e), R142): every row of the rect presents the masked fill row, though only
the first is preceded by writes. At the flush position lies the fill row or the neutral row (rule R120 (f)); only on a panel of
one row that is not inside the rect lies there what the buffer not written held before the frame. -/
def Obligations.PatternFramePresentsTheFillRow : Prop :=
  ∀ (cfg : Cfg) (pass : Nat) (rc : Rect) (d : Half) (b : Byte) (p : Peripheral), p.isOpen = false →
    ∃ q data, periphRun (eventsOf (patternTrace cfg pass rc d b)) (some p) = some q
        ∧ q.isOpen = false
        ∧ q.rows = (List.range cfg.panelH).map (presentedEntry cfg rc (fun _ => fillRowOf cfg b rc.x rc.w) d)
            ++ [⟨cfg.panelH, some data, some d⟩]
        ∧ (data = fillRowOf cfg b rc.x rc.w ∨ data = nullRow cfg
          ∨ cfg.panelH = 1 ∧ rowInside rc 0 = false ∧ data = if p.cur then p.buf0 else p.buf1)

/-! ### What a command reads -/

/-- The read set of `DRAW_IMAGE` (rule R54): memory outside it changes nothing; two memories that agree on it give the same run. -/
def Obligations.DrawImageReadsOnlyItsReadSet : Prop :=
  ∀ (s : State) (m : Memory) (x y w h : Half) (fb : Word) (bd : Byte),
    (∀ dep a, bitDepthOf bd = some dep → InReadSet s.cfg (rectOf x y w h) fb dep a → memRead8 s.mem a = memRead8 m a) →
      ∃ t, exec (.drawImage x y w h fb bd) s = .next t
        ∧ exec (.drawImage x y w h fb bd) { s with mem := m } = .next { t with mem := m }

/-- Nothing carries over from one command to the next but `PLN` (rule R173): the LUT, its tag, `FILLROW`, `SKIPPING`, `ERR` and
`DESC` that a command finds change neither its trace, nor the plane store, nor its outcome, nor what it does to the peripheral;
and no command depends on the peripheral's state. -/
def Obligations.EarlierCommandsLeaveNoMeaning : Prop :=
  ∀ (i : Instr) (s : State) (lut : Lut) (valid : Bool) (bd : BitVec 3) (k : BitVec 4) (fill : Row) (sk : Half)
    (err : ErrCode) (desc : Desc) (per : Option Peripheral), ∃ t u, exec i s = .next t
      ∧ exec i { s with lut := lut, lutValid := valid, lutBd := bd, lutK := k, fillRow := fill, skipping := sk, err := err,
                        desc := desc, periph := per } = .next u
      ∧ u.trace = t.trace ∧ u.pln = t.pln ∧ u.err = t.err ∧ (per = s.periph → u.periph = t.periph)

/-- `DRAW_UNARY` reads `PLN` and not `MEM` (rules R54, R133). -/
def Obligations.DrawUnaryDoesNotReadMem : Prop :=
  ∀ (s : State) (m : Memory), ∃ t, exec .drawUnary s = .next t
    ∧ exec .drawUnary { s with mem := m } = .next { t with mem := m }

/-! ### Inside a command -/

/-- No stale LUT (rule R177): whenever the codec is about to translate a row, the tag is valid and names the present frame and
the command's bit depth, and the LUT holds that table; and while a compile is about to write, the tag is invalid. -/
def Obligations.LookupsFindTheFramesTable : Prop :=
  ∀ (i : Instr) (n : Nat) (s : State),
    (∀ r fb bd x w, (runOps s.cfg i)[n]? = some (.writeImage r fb bd x w) →
      let t := partWay i n s
      t.lutValid = true ∧ t.lutK = t.k ∧ t.lutBd = BitVec.ofNat 3 (depthBits bd) ∧ t.lut = compiledLut bd t.k.toNat
        ∧ depthOperand i = some (BitVec.ofNat 8 (depthBits bd)))
    ∧ (∀ k r fb, (runOps s.cfg i)[n]? = some (.storePlane k r fb) →
      let t := partWay i n s
      t.lutValid = true ∧ t.lutK = t.k ∧ t.lutBd = 4 ∧ t.lut = compiledLut .four k ∧ t.k.toNat = k)
    ∧ ∀ bd k, (runOps s.cfg i)[n]? = some (.lutFill bd k) → (partWay i n s).lutValid = false

/-- While a command runs (rules R11, R14, R15, R43): `DESC`, `BUSY`, `ERR` and every byte of `MEM` stay as they were at the
accept, and the skip counter stays at most `PANEL_H`, so its saturation is never reached. -/
def Obligations.RunningCommandHoldsItsDescriptor : Prop :=
  ∀ (i : Instr) (n j : Nat) (s : State), s.skipping = 0 →
    let t := midWay i n j s
    t.desc = s.desc ∧ t.busy = s.busy ∧ t.err = s.err ∧ t.cfg = s.cfg ∧ (∀ a, memRead8 t.mem a = memRead8 s.mem a)
      ∧ t.skipping.toNat ≤ s.cfg.panelH

/-- A reset in mid-command (rules R168, R170): the trace simply stops, a beginning of the trace the command would have emitted;
the registers read 0 afterwards, `MEM` is as it was, and the block is idle. -/
def Obligations.ResetAbandonsTheCommand : Prop :=
  ∀ (i : Instr) (n j : Nat) (s : State) (lut : Lut) (fill : Row), Passes i s →
    let t := resetDuring i n j lut fill s
    (∃ u, exec i s = .next u ∧ s.trace <+: t.trace ∧ t.trace <+: u.trace)
      ∧ Idle t ∧ t.desc = 0 ∧ t.err = .ok ∧ t.lutValid = false ∧ t.lutK = 0 ∧ t.lutBd = 0 ∧ statusWord t = 0
      ∧ t.mem = s.mem

/-- A reset of the block, whatever it is doing (rule R170): the registers are those after power-up, no event is emitted, and
neither `MEM` nor `PLN` is written. -/
def Obligations.AssertedResetTouchesNoMemory : Prop :=
  ∀ (lut : Lut) (fill : Row) (s : State),
    let t := assertReset lut fill s
    Idle t ∧ t.desc = 0 ∧ t.err = .ok ∧ t.lutValid = false ∧ t.lutK = 0 ∧ t.lutBd = 0 ∧ cmdReady t = true
      ∧ t.trace = s.trace ∧ t.periph = s.periph ∧ t.mem = s.mem ∧ t.pln = s.pln

/-! ### Registers and configuration -/

/-- The layout of `STATUS` (rule R18), which an idle block shows at offset `0x00`, and its value after reset. -/
def Obligations.StatusLayout : Prop :=
  (∀ u : PowerUp, statusWord (State.resetWith u) = 0) ∧ ∀ s : State,
    (∀ n, s.busy = false → hostReadReg n 0x00 s = statusWord s)
      ∧ (statusWord s).extractLsb' 0 1 = flagBit s.busy ∧ (statusWord s).extractLsb' 1 3 = 0
      ∧ (statusWord s).extractLsb' 4 4 = errBits s.err ∧ (statusWord s).extractLsb' 8 1 = flagBit s.lutValid
      ∧ (statusWord s).extractLsb' 9 3 = s.lutBd ∧ (statusWord s).extractLsb' 12 4 = s.lutK
      ∧ (statusWord s).extractLsb' 16 16 = 0

/-- The layouts of `SEQ` and `SKIPCNT` (rule R19), which an idle block shows at offsets `0x04` and `0x08`, and their values after
reset. -/
def Obligations.SequencerRegisterLayout : Prop :=
  (∀ u : PowerUp, seqWord (State.resetWith u) = 0 ∧ skipcntWord (State.resetWith u) = 0) ∧ ∀ s : State,
    (∀ n, s.busy = false → hostReadReg n 0x04 s = seqWord s ∧ hostReadReg n 0x08 s = skipcntWord s)
      ∧ (seqWord s).extractLsb' 0 16 = s.row ∧ (seqWord s).extractLsb' 16 4 = s.k ∧ (seqWord s).extractLsb' 20 5 = s.pass
      ∧ (seqWord s).extractLsb' 25 7 = 0 ∧ (skipcntWord s).extractLsb' 0 16 = s.skipping
      ∧ (skipcntWord s).extractLsb' 16 16 = 0

/-- The host's register reads (rules R17, R20, R21, R46), whether the block is busy or not: `CMD0` to `CMD3` hold the
descriptor; every ROM register holds the `CFG` values of its layout; the reserved offsets and those above the map read 0; an
unaligned offset reads the word below it; bit 0 of `STATUS` is `BUSY`. -/
def Obligations.HostRegisterReads : Prop :=
  ∀ (s : State) (n off : Nat),
    hostReadReg n 0x1C s ++ hostReadReg n 0x18 s ++ hostReadReg n 0x14 s ++ hostReadReg n 0x10 s = s.desc
      ∧ (hostReadReg n 0x20 s).toNat = s.cfg.panelW + 2 ^ 16 * s.cfg.panelH
      ∧ (hostReadReg n 0x24 s).toNat = s.cfg.minPulse.toNat
      ∧ hostReadReg n 0x28 s = s.cfg.dissipation
      ∧ hostReadReg n 0x2C s = 0x0000AA55
      ∧ (hostReadReg n 0x30 s).toNat = s.cfg.darkTime.toNat + 2 ^ 16 * s.cfg.clearTime.toNat
      ∧ (∀ j, j < 7 → (hostReadReg n (0x40 + 4 * j) s).toNat =
          (s.cfg.contrast4.getD (2 * j) 0).toNat + 2 ^ 16 * (s.cfg.contrast4.getD (2 * j + 1) 0).toNat)
      ∧ (hostReadReg n 0x5C s).toNat = (s.cfg.contrast4.getD 14 0).toNat
      ∧ (hostReadReg n 0x60 s).toNat =
          (s.cfg.contrast2.getD 0 0).toNat + 2 ^ 16 * (s.cfg.contrast2.getD 1 0).toNat
      ∧ (hostReadReg n 0x64 s).toNat = (s.cfg.contrast2.getD 2 0).toNat
      ∧ hostReadReg n 0x0C s = 0
      ∧ (0x34 ≤ off → off < 0x40 → hostReadReg n off s = 0)
      ∧ (0x68 ≤ off → hostReadReg n off s = 0)
      ∧ hostReadReg n off s = hostReadReg n (4 * (off / 4)) s
      ∧ (hostReadReg n 0 s).getLsbD 0 = s.busy
      ∧ (0x20 ≤ off → hostReadReg n off { s with busy := true } = hostReadReg n off { s with busy := false })

/-- Source addresses wrap modulo `2^32` and a chunk may lie at any address (rules R40, R43, R44, R46). -/
def Obligations.ChunkReadsWrap : Prop :=
  ∀ (m : Memory) (a : Word),
    (memRead16 m a).toNat = (Memory.read m a.toNat).toNat + 256 * (Memory.read m ((a.toNat + 1) % 2 ^ 32)).toNat

/-- A configuration that violates a constraint of rule R4 is refused at construction, and one that satisfies them all is
constructed. -/
def Obligations.InvalidConfigurationIsRefused : Prop :=
  ∀ c : RawCfg, (∃ g : Cfg, c.build = some g ∧ g.toRawCfg = c) ↔
    (0 < c.panelW ∧ c.panelW < 65536 ∧ c.panelW % 16 = 0 ∧ 0 < c.panelH ∧ c.panelH ≤ 65535
      ∧ c.contrast4.length = 15 ∧ (∀ d ∈ c.contrast4, 1 ≤ d.toNat) ∧ c.contrast2.length = 3
      ∧ (∀ d ∈ c.contrast2, 1 ≤ d.toNat) ∧ c.dissipation.toNat < 2 ^ 31)
end

