-- ==== Sys2Proof/Laws/Memory.lean ====
section
/-! SUPPORT. The basic laws of a memory: a read after a write, the canonical form, the bounds of the listed addresses, and
that equal contents are equal data. -/

namespace Sys2Proof.Machine

theorem Memory.wf_nil : Memory.wf [] := ⟨List.Pairwise.nil, by simp⟩

theorem Memory.wf_cons {a : Nat} {v : Byte} {m : Memory} :
    Memory.wf ((a, v) :: m) ↔ (∀ c ∈ m, a < c.1) ∧ v ≠ Memory.blank ∧ Memory.wf m := by
  simp only [Memory.wf, List.pairwise_cons, List.mem_cons, forall_eq_or_imp]
  tauto

/-- Below every listed address the memory is blank. -/
theorem Memory.read_below {m : Memory} {a : Nat} (h : ∀ c ∈ m, a < c.1) : Memory.read m a = Memory.blank := by
  induction m with
  | nil => rfl
  | cons c m ih =>
    obtain ⟨b, v⟩ := c
    have hb : a < b := h (b, v) (by simp)
    simp only [Memory.read, if_neg (Nat.ne_of_lt hb)]
    exact ih fun c hc => h c (List.mem_cons_of_mem _ hc)

theorem Memory.read_consCell_same {a : Nat} {v : Byte} {m : Memory} (h : ∀ c ∈ m, a < c.1) :
    Memory.read (Memory.consCell a v m) a = v := by
  unfold Memory.consCell
  split
  · next hv => rw [Memory.read_below h, hv]
  · simp [Memory.read]

theorem Memory.read_consCell_other {a b : Nat} {v : Byte} {m : Memory} (h : b ≠ a) :
    Memory.read (Memory.consCell a v m) b = Memory.read m b := by
  unfold Memory.consCell
  split
  · rfl
  · simp [Memory.read, h]

theorem Memory.wf_consCell {a : Nat} {v : Byte} {m : Memory} (h : ∀ c ∈ m, a < c.1) (hm : Memory.wf m) :
    Memory.wf (Memory.consCell a v m) := by
  unfold Memory.consCell
  split
  · exact hm
  · next hv => exact Memory.wf_cons.2 ⟨h, hv, hm⟩

/-- The listed addresses after a write are the old ones and the written one. -/
theorem Memory.mem_write {m : Memory} {a : Nat} {v : Byte} {c : Host.Cell} (h : c ∈ Memory.write m a v) :
    c.1 = a ∨ c ∈ m := by
  induction m with
  | nil =>
    simp only [Memory.write, Memory.consCell] at h
    split at h <;> simp_all
  | cons d m ih =>
    obtain ⟨b, w⟩ := d
    simp only [Memory.write, Memory.consCell] at h
    split_ifs at h <;> simp only [List.mem_cons] at h ⊢ <;> grind

/-- Every write keeps the canonical form. -/
theorem Memory.wf_write {m : Memory} (a : Nat) (v : Byte) (h : Memory.wf m) : Memory.wf (Memory.write m a v) := by
  induction m with
  | nil => exact Memory.wf_consCell (by simp) h
  | cons c m ih =>
    obtain ⟨b, w⟩ := c
    obtain ⟨hlt, hw, hm⟩ := Memory.wf_cons.1 h
    simp only [Memory.write]
    split_ifs with h1 h2
    · refine Memory.wf_consCell ?_ h
      intro c hc
      rcases List.mem_cons.1 hc with rfl | hc
      · exact h1
      · exact Nat.lt_trans h1 (hlt c hc)
    · exact Memory.wf_consCell (fun c hc => h2 ▸ hlt c hc) hm
    · refine Memory.wf_cons.2 ⟨?_, hw, ih hm⟩
      intro c hc
      rcases Memory.mem_write hc with he | hc
      · omega
      · exact hlt c hc

/-- A read after a write to the same address gives the value written. -/
theorem Memory.read_write_same {m : Memory} (a : Nat) (v : Byte) (h : Memory.wf m) :
    Memory.read (Memory.write m a v) a = v := by
  induction m with
  | nil => exact Memory.read_consCell_same (by simp)
  | cons c m ih =>
    obtain ⟨b, w⟩ := c
    obtain ⟨hlt, hw, hm⟩ := Memory.wf_cons.1 h
    simp only [Memory.write]
    split_ifs with h1 h2
    · refine Memory.read_consCell_same ?_
      intro c hc
      rcases List.mem_cons.1 hc with rfl | hc
      · exact h1
      · exact Nat.lt_trans h1 (hlt c hc)
    · exact Memory.read_consCell_same fun c hc => h2 ▸ hlt c hc
    · simp only [Memory.read, if_neg h2, ih hm]

/-- A write leaves every other address alone. -/
theorem Memory.read_write_other (m : Memory) {a b : Nat} (v : Byte) (h : b ≠ a) :
    Memory.read (Memory.write m a v) b = Memory.read m b := by
  induction m with
  | nil => exact Memory.read_consCell_other h
  | cons c m ih =>
    obtain ⟨d, w⟩ := c
    simp only [Memory.write]
    split_ifs with h1 h2
    · exact Memory.read_consCell_other h
    · subst h2; rw [Memory.read_consCell_other h]; simp [Memory.read, h]
    · simp only [Memory.read, ih]

/-- In canonical form, a listed address reads as its entry. -/
theorem Memory.read_of_mem {m : Memory} {c : Host.Cell} (h : Memory.wf m) (hc : c ∈ m) : Memory.read m c.1 = c.2 := by
  induction m with
  | nil => simp at hc
  | cons d m ih =>
    obtain ⟨b, w⟩ := d
    obtain ⟨hlt, hw, hm⟩ := Memory.wf_cons.1 h
    rcases List.mem_cons.1 hc with rfl | hc
    · simp [Memory.read]
    · simp only [Memory.read, if_neg (Nat.ne_of_gt (hlt c hc))]
      exact ih hm hc

/-- Equal contents are equal data: two memories in canonical form that read alike everywhere are the same list. -/
theorem Memory.ext_read {m n : Memory} (hm : Memory.wf m) (hn : Memory.wf n)
    (h : ∀ a, Memory.read m a = Memory.read n a) : m = n := by
  induction m generalizing n with
  | nil =>
    cases n with
    | nil => rfl
    | cons d n =>
      have := h d.1
      rw [Memory.read_of_mem hn (List.mem_cons_self)] at this
      exact absurd this.symm (hn.2 d List.mem_cons_self)
  | cons c m ih =>
    obtain ⟨a, v⟩ := c
    obtain ⟨hlt, hv, hm'⟩ := Memory.wf_cons.1 hm
    cases n with
    | nil =>
      have := h a
      simp only [Memory.read, if_pos] at this
      exact absurd this hv
    | cons d n =>
      obtain ⟨b, w⟩ := d
      obtain ⟨hlt', hw, hn'⟩ := Memory.wf_cons.1 hn
      have hab : a = b := by
        rcases Nat.lt_trichotomy a b with hl | he | hg
        · have h1 := h a
          rw [Memory.read_below (m := (b, w) :: n) (fun c hc => by
            rcases List.mem_cons.1 hc with rfl | hc
            · exact hl
            · exact Nat.lt_trans hl (hlt' c hc))] at h1
          simp only [Memory.read, if_pos] at h1
          exact absurd h1 hv
        · exact he
        · have h1 := h b
          rw [Memory.read_below (m := (a, v) :: m) (fun c hc => by
            rcases List.mem_cons.1 hc with rfl | hc
            · exact hg
            · exact Nat.lt_trans hg (hlt c hc))] at h1
          simp only [Memory.read, if_pos] at h1
          exact absurd h1.symm hw
      subst hab
      have hvw : v = w := by simpa [Memory.read] using h a
      subst hvw
      congr 1
      refine ih hm' hn' fun x => ?_
      rcases Nat.lt_or_ge a x with hx | hx
      · have := h x
        simpa only [Memory.read, if_neg (Nat.ne_of_gt hx)] using this
      · rw [Memory.read_below fun c hc => Nat.lt_of_le_of_lt hx (hlt c hc),
          Memory.read_below fun c hc => Nat.lt_of_le_of_lt hx (hlt' c hc)]

end Sys2Proof.Machine
end

