-- ==== Sys2Proof/Laws/State.lean ====
section
/-! SUPPORT. One lemma per field of State for each named update of it: what the update writes and what it leaves. -/

namespace Sys2Proof.Machine

@[simp] theorem emit_cfg (e : Event) (s : State) : (emit e s).cfg = s.cfg := rfl
@[simp] theorem emit_desc (e : Event) (s : State) : (emit e s).desc = s.desc := rfl
@[simp] theorem emit_pass (e : Event) (s : State) : (emit e s).pass = s.pass := rfl
@[simp] theorem emit_k (e : Event) (s : State) : (emit e s).k = s.k := rfl
@[simp] theorem emit_row (e : Event) (s : State) : (emit e s).row = s.row := rfl
@[simp] theorem emit_busy (e : Event) (s : State) : (emit e s).busy = s.busy := rfl
@[simp] theorem emit_err (e : Event) (s : State) : (emit e s).err = s.err := rfl
@[simp] theorem emit_lutValid (e : Event) (s : State) : (emit e s).lutValid = s.lutValid := rfl
@[simp] theorem emit_lutBd (e : Event) (s : State) : (emit e s).lutBd = s.lutBd := rfl
@[simp] theorem emit_lutK (e : Event) (s : State) : (emit e s).lutK = s.lutK := rfl
@[simp] theorem emit_skipping (e : Event) (s : State) : (emit e s).skipping = s.skipping := rfl
@[simp] theorem emit_lut (e : Event) (s : State) : (emit e s).lut = s.lut := rfl
@[simp] theorem emit_fillRow (e : Event) (s : State) : (emit e s).fillRow = s.fillRow := rfl
@[simp] theorem emit_mem (e : Event) (s : State) : (emit e s).mem = s.mem := rfl
@[simp] theorem emit_pln (e : Event) (s : State) : (emit e s).pln = s.pln := rfl
@[simp] theorem emit_port (e : Event) (s : State) : (emit e s).port = s.port := rfl
@[simp] theorem emit_allocOk (e : Event) (s : State) : (emit e s).allocOk = s.allocOk := rfl
@[simp] theorem emit_trace (e : Event) (s : State) : (emit e s).trace = s.trace ++ [⟨s.pass, s.k, s.row, e⟩] := rfl
@[simp] theorem emit_periph (e : Event) (s : State) : (emit e s).periph = s.periph.bind (periphTake e) := rfl

@[simp] theorem setPass_cfg (p : Nat) (s : State) : (setPass p s).cfg = s.cfg := rfl
@[simp] theorem setPass_desc (p : Nat) (s : State) : (setPass p s).desc = s.desc := rfl
@[simp] theorem setPass_pass (p : Nat) (s : State) : (setPass p s).pass = BitVec.ofNat 5 p := rfl
@[simp] theorem setPass_k (p : Nat) (s : State) : (setPass p s).k = s.k := rfl
@[simp] theorem setPass_row (p : Nat) (s : State) : (setPass p s).row = s.row := rfl
@[simp] theorem setPass_busy (p : Nat) (s : State) : (setPass p s).busy = s.busy := rfl
@[simp] theorem setPass_err (p : Nat) (s : State) : (setPass p s).err = s.err := rfl
@[simp] theorem setPass_lutValid (p : Nat) (s : State) : (setPass p s).lutValid = s.lutValid := rfl
@[simp] theorem setPass_lutBd (p : Nat) (s : State) : (setPass p s).lutBd = s.lutBd := rfl
@[simp] theorem setPass_lutK (p : Nat) (s : State) : (setPass p s).lutK = s.lutK := rfl
@[simp] theorem setPass_skipping (p : Nat) (s : State) : (setPass p s).skipping = s.skipping := rfl
@[simp] theorem setPass_lut (p : Nat) (s : State) : (setPass p s).lut = s.lut := rfl
@[simp] theorem setPass_fillRow (p : Nat) (s : State) : (setPass p s).fillRow = s.fillRow := rfl
@[simp] theorem setPass_mem (p : Nat) (s : State) : (setPass p s).mem = s.mem := rfl
@[simp] theorem setPass_pln (p : Nat) (s : State) : (setPass p s).pln = s.pln := rfl
@[simp] theorem setPass_port (p : Nat) (s : State) : (setPass p s).port = s.port := rfl
@[simp] theorem setPass_allocOk (p : Nat) (s : State) : (setPass p s).allocOk = s.allocOk := rfl
@[simp] theorem setPass_trace (p : Nat) (s : State) : (setPass p s).trace = s.trace := rfl
@[simp] theorem setPass_periph (p : Nat) (s : State) : (setPass p s).periph = s.periph := rfl

@[simp] theorem setK_cfg (n : Nat) (s : State) : (setK n s).cfg = s.cfg := rfl
@[simp] theorem setK_desc (n : Nat) (s : State) : (setK n s).desc = s.desc := rfl
@[simp] theorem setK_pass (n : Nat) (s : State) : (setK n s).pass = s.pass := rfl
@[simp] theorem setK_k (n : Nat) (s : State) : (setK n s).k = BitVec.ofNat 4 n := rfl
@[simp] theorem setK_row (n : Nat) (s : State) : (setK n s).row = s.row := rfl
@[simp] theorem setK_busy (n : Nat) (s : State) : (setK n s).busy = s.busy := rfl
@[simp] theorem setK_err (n : Nat) (s : State) : (setK n s).err = s.err := rfl
@[simp] theorem setK_lutValid (n : Nat) (s : State) : (setK n s).lutValid = s.lutValid := rfl
@[simp] theorem setK_lutBd (n : Nat) (s : State) : (setK n s).lutBd = s.lutBd := rfl
@[simp] theorem setK_lutK (n : Nat) (s : State) : (setK n s).lutK = s.lutK := rfl
@[simp] theorem setK_skipping (n : Nat) (s : State) : (setK n s).skipping = s.skipping := rfl
@[simp] theorem setK_lut (n : Nat) (s : State) : (setK n s).lut = s.lut := rfl
@[simp] theorem setK_fillRow (n : Nat) (s : State) : (setK n s).fillRow = s.fillRow := rfl
@[simp] theorem setK_mem (n : Nat) (s : State) : (setK n s).mem = s.mem := rfl
@[simp] theorem setK_pln (n : Nat) (s : State) : (setK n s).pln = s.pln := rfl
@[simp] theorem setK_port (n : Nat) (s : State) : (setK n s).port = s.port := rfl
@[simp] theorem setK_allocOk (n : Nat) (s : State) : (setK n s).allocOk = s.allocOk := rfl
@[simp] theorem setK_trace (n : Nat) (s : State) : (setK n s).trace = s.trace := rfl
@[simp] theorem setK_periph (n : Nat) (s : State) : (setK n s).periph = s.periph := rfl

@[simp] theorem setRow_cfg (r : Nat) (s : State) : (setRow r s).cfg = s.cfg := rfl
@[simp] theorem setRow_desc (r : Nat) (s : State) : (setRow r s).desc = s.desc := rfl
@[simp] theorem setRow_pass (r : Nat) (s : State) : (setRow r s).pass = s.pass := rfl
@[simp] theorem setRow_k (r : Nat) (s : State) : (setRow r s).k = s.k := rfl
@[simp] theorem setRow_row (r : Nat) (s : State) : (setRow r s).row = BitVec.ofNat 16 r := rfl
@[simp] theorem setRow_busy (r : Nat) (s : State) : (setRow r s).busy = s.busy := rfl
@[simp] theorem setRow_err (r : Nat) (s : State) : (setRow r s).err = s.err := rfl
@[simp] theorem setRow_lutValid (r : Nat) (s : State) : (setRow r s).lutValid = s.lutValid := rfl
@[simp] theorem setRow_lutBd (r : Nat) (s : State) : (setRow r s).lutBd = s.lutBd := rfl
@[simp] theorem setRow_lutK (r : Nat) (s : State) : (setRow r s).lutK = s.lutK := rfl
@[simp] theorem setRow_skipping (r : Nat) (s : State) : (setRow r s).skipping = s.skipping := rfl
@[simp] theorem setRow_lut (r : Nat) (s : State) : (setRow r s).lut = s.lut := rfl
@[simp] theorem setRow_fillRow (r : Nat) (s : State) : (setRow r s).fillRow = s.fillRow := rfl
@[simp] theorem setRow_mem (r : Nat) (s : State) : (setRow r s).mem = s.mem := rfl
@[simp] theorem setRow_pln (r : Nat) (s : State) : (setRow r s).pln = s.pln := rfl
@[simp] theorem setRow_port (r : Nat) (s : State) : (setRow r s).port = s.port := rfl
@[simp] theorem setRow_allocOk (r : Nat) (s : State) : (setRow r s).allocOk = s.allocOk := rfl
@[simp] theorem setRow_trace (r : Nat) (s : State) : (setRow r s).trace = s.trace := rfl
@[simp] theorem setRow_periph (r : Nat) (s : State) : (setRow r s).periph = s.periph := rfl

@[simp] theorem setSkipping_cfg (v : Half) (s : State) : (setSkipping v s).cfg = s.cfg := rfl
@[simp] theorem setSkipping_desc (v : Half) (s : State) : (setSkipping v s).desc = s.desc := rfl
@[simp] theorem setSkipping_pass (v : Half) (s : State) : (setSkipping v s).pass = s.pass := rfl
@[simp] theorem setSkipping_k (v : Half) (s : State) : (setSkipping v s).k = s.k := rfl
@[simp] theorem setSkipping_row (v : Half) (s : State) : (setSkipping v s).row = s.row := rfl
@[simp] theorem setSkipping_busy (v : Half) (s : State) : (setSkipping v s).busy = s.busy := rfl
@[simp] theorem setSkipping_err (v : Half) (s : State) : (setSkipping v s).err = s.err := rfl
@[simp] theorem setSkipping_lutValid (v : Half) (s : State) : (setSkipping v s).lutValid = s.lutValid := rfl
@[simp] theorem setSkipping_lutBd (v : Half) (s : State) : (setSkipping v s).lutBd = s.lutBd := rfl
@[simp] theorem setSkipping_lutK (v : Half) (s : State) : (setSkipping v s).lutK = s.lutK := rfl
@[simp] theorem setSkipping_skipping (v : Half) (s : State) : (setSkipping v s).skipping = v := rfl
@[simp] theorem setSkipping_lut (v : Half) (s : State) : (setSkipping v s).lut = s.lut := rfl
@[simp] theorem setSkipping_fillRow (v : Half) (s : State) : (setSkipping v s).fillRow = s.fillRow := rfl
@[simp] theorem setSkipping_mem (v : Half) (s : State) : (setSkipping v s).mem = s.mem := rfl
@[simp] theorem setSkipping_pln (v : Half) (s : State) : (setSkipping v s).pln = s.pln := rfl
@[simp] theorem setSkipping_port (v : Half) (s : State) : (setSkipping v s).port = s.port := rfl
@[simp] theorem setSkipping_allocOk (v : Half) (s : State) : (setSkipping v s).allocOk = s.allocOk := rfl
@[simp] theorem setSkipping_trace (v : Half) (s : State) : (setSkipping v s).trace = s.trace := rfl
@[simp] theorem setSkipping_periph (v : Half) (s : State) : (setSkipping v s).periph = s.periph := rfl

@[simp] theorem accept_cfg (p : Presented) (s : State) : (accept p s).cfg = s.cfg := rfl
@[simp] theorem accept_desc (p : Presented) (s : State) : (accept p s).desc = p.data := rfl
@[simp] theorem accept_pass (p : Presented) (s : State) : (accept p s).pass = s.pass := rfl
@[simp] theorem accept_k (p : Presented) (s : State) : (accept p s).k = s.k := rfl
@[simp] theorem accept_row (p : Presented) (s : State) : (accept p s).row = s.row := rfl
@[simp] theorem accept_busy (p : Presented) (s : State) : (accept p s).busy = true := rfl
@[simp] theorem accept_err (p : Presented) (s : State) : (accept p s).err = s.err := rfl
@[simp] theorem accept_lutValid (p : Presented) (s : State) : (accept p s).lutValid = s.lutValid := rfl
@[simp] theorem accept_lutBd (p : Presented) (s : State) : (accept p s).lutBd = s.lutBd := rfl
@[simp] theorem accept_lutK (p : Presented) (s : State) : (accept p s).lutK = s.lutK := rfl
@[simp] theorem accept_skipping (p : Presented) (s : State) : (accept p s).skipping = s.skipping := rfl
@[simp] theorem accept_lut (p : Presented) (s : State) : (accept p s).lut = s.lut := rfl
@[simp] theorem accept_fillRow (p : Presented) (s : State) : (accept p s).fillRow = s.fillRow := rfl
@[simp] theorem accept_mem (p : Presented) (s : State) : (accept p s).mem = s.mem := rfl
@[simp] theorem accept_pln (p : Presented) (s : State) : (accept p s).pln = s.pln := rfl
@[simp] theorem accept_port (p : Presented) (s : State) : (accept p s).port = s.port := rfl
@[simp] theorem accept_allocOk (p : Presented) (s : State) : (accept p s).allocOk = p.allocOk := rfl
@[simp] theorem accept_trace (p : Presented) (s : State) : (accept p s).trace = s.trace := rfl
@[simp] theorem accept_periph (p : Presented) (s : State) : (accept p s).periph = s.periph := rfl

@[simp] theorem endWith_cfg (e : ErrCode) (s : State) : (endWith e s).cfg = s.cfg := rfl
@[simp] theorem endWith_desc (e : ErrCode) (s : State) : (endWith e s).desc = s.desc := rfl
@[simp] theorem endWith_pass (e : ErrCode) (s : State) : (endWith e s).pass = 0 := rfl
@[simp] theorem endWith_k (e : ErrCode) (s : State) : (endWith e s).k = 0 := rfl
@[simp] theorem endWith_row (e : ErrCode) (s : State) : (endWith e s).row = 0 := rfl
@[simp] theorem endWith_busy (e : ErrCode) (s : State) : (endWith e s).busy = false := rfl
@[simp] theorem endWith_err (e : ErrCode) (s : State) : (endWith e s).err = e := rfl
@[simp] theorem endWith_lutValid (e : ErrCode) (s : State) : (endWith e s).lutValid = s.lutValid := rfl
@[simp] theorem endWith_lutBd (e : ErrCode) (s : State) : (endWith e s).lutBd = s.lutBd := rfl
@[simp] theorem endWith_lutK (e : ErrCode) (s : State) : (endWith e s).lutK = s.lutK := rfl
@[simp] theorem endWith_skipping (e : ErrCode) (s : State) : (endWith e s).skipping = s.skipping := rfl
@[simp] theorem endWith_lut (e : ErrCode) (s : State) : (endWith e s).lut = s.lut := rfl
@[simp] theorem endWith_fillRow (e : ErrCode) (s : State) : (endWith e s).fillRow = s.fillRow := rfl
@[simp] theorem endWith_mem (e : ErrCode) (s : State) : (endWith e s).mem = s.mem := rfl
@[simp] theorem endWith_pln (e : ErrCode) (s : State) : (endWith e s).pln = s.pln := rfl
@[simp] theorem endWith_port (e : ErrCode) (s : State) : (endWith e s).port = s.port := rfl
@[simp] theorem endWith_allocOk (e : ErrCode) (s : State) : (endWith e s).allocOk = s.allocOk := rfl
@[simp] theorem endWith_trace (e : ErrCode) (s : State) : (endWith e s).trace = s.trace := rfl
@[simp] theorem endWith_periph (e : ErrCode) (s : State) : (endWith e s).periph = s.periph := rfl

@[simp] theorem lutInvalidate_cfg (s : State) : (lutInvalidate s).cfg = s.cfg := rfl
@[simp] theorem lutInvalidate_desc (s : State) : (lutInvalidate s).desc = s.desc := rfl
@[simp] theorem lutInvalidate_pass (s : State) : (lutInvalidate s).pass = s.pass := rfl
@[simp] theorem lutInvalidate_k (s : State) : (lutInvalidate s).k = s.k := rfl
@[simp] theorem lutInvalidate_row (s : State) : (lutInvalidate s).row = s.row := rfl
@[simp] theorem lutInvalidate_busy (s : State) : (lutInvalidate s).busy = s.busy := rfl
@[simp] theorem lutInvalidate_err (s : State) : (lutInvalidate s).err = s.err := rfl
@[simp] theorem lutInvalidate_lutValid (s : State) : (lutInvalidate s).lutValid = false := rfl
@[simp] theorem lutInvalidate_lutBd (s : State) : (lutInvalidate s).lutBd = s.lutBd := rfl
@[simp] theorem lutInvalidate_lutK (s : State) : (lutInvalidate s).lutK = s.lutK := rfl
@[simp] theorem lutInvalidate_skipping (s : State) : (lutInvalidate s).skipping = s.skipping := rfl
@[simp] theorem lutInvalidate_lut (s : State) : (lutInvalidate s).lut = s.lut := rfl
@[simp] theorem lutInvalidate_fillRow (s : State) : (lutInvalidate s).fillRow = s.fillRow := rfl
@[simp] theorem lutInvalidate_mem (s : State) : (lutInvalidate s).mem = s.mem := rfl
@[simp] theorem lutInvalidate_pln (s : State) : (lutInvalidate s).pln = s.pln := rfl
@[simp] theorem lutInvalidate_port (s : State) : (lutInvalidate s).port = s.port := rfl
@[simp] theorem lutInvalidate_allocOk (s : State) : (lutInvalidate s).allocOk = s.allocOk := rfl
@[simp] theorem lutInvalidate_trace (s : State) : (lutInvalidate s).trace = s.trace := rfl
@[simp] theorem lutInvalidate_periph (s : State) : (lutInvalidate s).periph = s.periph := rfl

@[simp] theorem lutFill_cfg (bd : BitDepth) (n : Nat) (s : State) : (lutFill bd n s).cfg = s.cfg := rfl
@[simp] theorem lutFill_desc (bd : BitDepth) (n : Nat) (s : State) : (lutFill bd n s).desc = s.desc := rfl
@[simp] theorem lutFill_pass (bd : BitDepth) (n : Nat) (s : State) : (lutFill bd n s).pass = s.pass := rfl
@[simp] theorem lutFill_k (bd : BitDepth) (n : Nat) (s : State) : (lutFill bd n s).k = s.k := rfl
@[simp] theorem lutFill_row (bd : BitDepth) (n : Nat) (s : State) : (lutFill bd n s).row = s.row := rfl
@[simp] theorem lutFill_busy (bd : BitDepth) (n : Nat) (s : State) : (lutFill bd n s).busy = s.busy := rfl
@[simp] theorem lutFill_err (bd : BitDepth) (n : Nat) (s : State) : (lutFill bd n s).err = s.err := rfl
@[simp] theorem lutFill_lutValid (bd : BitDepth) (n : Nat) (s : State) : (lutFill bd n s).lutValid = s.lutValid := rfl
@[simp] theorem lutFill_lutBd (bd : BitDepth) (n : Nat) (s : State) : (lutFill bd n s).lutBd = s.lutBd := rfl
@[simp] theorem lutFill_lutK (bd : BitDepth) (n : Nat) (s : State) : (lutFill bd n s).lutK = s.lutK := rfl
@[simp] theorem lutFill_skipping (bd : BitDepth) (n : Nat) (s : State) : (lutFill bd n s).skipping = s.skipping := rfl
@[simp] theorem lutFill_lut (bd : BitDepth) (n : Nat) (s : State) : (lutFill bd n s).lut = compiledLut bd n := rfl
@[simp] theorem lutFill_fillRow (bd : BitDepth) (n : Nat) (s : State) : (lutFill bd n s).fillRow = s.fillRow := rfl
@[simp] theorem lutFill_mem (bd : BitDepth) (n : Nat) (s : State) : (lutFill bd n s).mem = s.mem := rfl
@[simp] theorem lutFill_pln (bd : BitDepth) (n : Nat) (s : State) : (lutFill bd n s).pln = s.pln := rfl
@[simp] theorem lutFill_port (bd : BitDepth) (n : Nat) (s : State) : (lutFill bd n s).port = s.port := rfl
@[simp] theorem lutFill_allocOk (bd : BitDepth) (n : Nat) (s : State) : (lutFill bd n s).allocOk = s.allocOk := rfl
@[simp] theorem lutFill_trace (bd : BitDepth) (n : Nat) (s : State) : (lutFill bd n s).trace = s.trace := rfl
@[simp] theorem lutFill_periph (bd : BitDepth) (n : Nat) (s : State) : (lutFill bd n s).periph = s.periph := rfl

@[simp] theorem lutTag_cfg (bd : BitDepth) (n : Nat) (s : State) : (lutTag bd n s).cfg = s.cfg := rfl
@[simp] theorem lutTag_desc (bd : BitDepth) (n : Nat) (s : State) : (lutTag bd n s).desc = s.desc := rfl
@[simp] theorem lutTag_pass (bd : BitDepth) (n : Nat) (s : State) : (lutTag bd n s).pass = s.pass := rfl
@[simp] theorem lutTag_k (bd : BitDepth) (n : Nat) (s : State) : (lutTag bd n s).k = s.k := rfl
@[simp] theorem lutTag_row (bd : BitDepth) (n : Nat) (s : State) : (lutTag bd n s).row = s.row := rfl
@[simp] theorem lutTag_busy (bd : BitDepth) (n : Nat) (s : State) : (lutTag bd n s).busy = s.busy := rfl
@[simp] theorem lutTag_err (bd : BitDepth) (n : Nat) (s : State) : (lutTag bd n s).err = s.err := rfl
@[simp] theorem lutTag_lutValid (bd : BitDepth) (n : Nat) (s : State) : (lutTag bd n s).lutValid = true := rfl
@[simp] theorem lutTag_lutBd (bd : BitDepth) (n : Nat) (s : State) : (lutTag bd n s).lutBd = BitVec.ofNat 3 (depthBits bd) := rfl
@[simp] theorem lutTag_lutK (bd : BitDepth) (n : Nat) (s : State) : (lutTag bd n s).lutK = BitVec.ofNat 4 n := rfl
@[simp] theorem lutTag_skipping (bd : BitDepth) (n : Nat) (s : State) : (lutTag bd n s).skipping = s.skipping := rfl
@[simp] theorem lutTag_lut (bd : BitDepth) (n : Nat) (s : State) : (lutTag bd n s).lut = s.lut := rfl
@[simp] theorem lutTag_fillRow (bd : BitDepth) (n : Nat) (s : State) : (lutTag bd n s).fillRow = s.fillRow := rfl
@[simp] theorem lutTag_mem (bd : BitDepth) (n : Nat) (s : State) : (lutTag bd n s).mem = s.mem := rfl
@[simp] theorem lutTag_pln (bd : BitDepth) (n : Nat) (s : State) : (lutTag bd n s).pln = s.pln := rfl
@[simp] theorem lutTag_port (bd : BitDepth) (n : Nat) (s : State) : (lutTag bd n s).port = s.port := rfl
@[simp] theorem lutTag_allocOk (bd : BitDepth) (n : Nat) (s : State) : (lutTag bd n s).allocOk = s.allocOk := rfl
@[simp] theorem lutTag_trace (bd : BitDepth) (n : Nat) (s : State) : (lutTag bd n s).trace = s.trace := rfl
@[simp] theorem lutTag_periph (bd : BitDepth) (n : Nat) (s : State) : (lutTag bd n s).periph = s.periph := rfl

@[simp] theorem present_cfg (p : Presented) (s : State) : (present p s).cfg = s.cfg := rfl
@[simp] theorem present_desc (p : Presented) (s : State) : (present p s).desc = s.desc := rfl
@[simp] theorem present_pass (p : Presented) (s : State) : (present p s).pass = s.pass := rfl
@[simp] theorem present_k (p : Presented) (s : State) : (present p s).k = s.k := rfl
@[simp] theorem present_row (p : Presented) (s : State) : (present p s).row = s.row := rfl
@[simp] theorem present_busy (p : Presented) (s : State) : (present p s).busy = s.busy := rfl
@[simp] theorem present_err (p : Presented) (s : State) : (present p s).err = s.err := rfl
@[simp] theorem present_lutValid (p : Presented) (s : State) : (present p s).lutValid = s.lutValid := rfl
@[simp] theorem present_lutBd (p : Presented) (s : State) : (present p s).lutBd = s.lutBd := rfl
@[simp] theorem present_lutK (p : Presented) (s : State) : (present p s).lutK = s.lutK := rfl
@[simp] theorem present_skipping (p : Presented) (s : State) : (present p s).skipping = s.skipping := rfl
@[simp] theorem present_lut (p : Presented) (s : State) : (present p s).lut = s.lut := rfl
@[simp] theorem present_fillRow (p : Presented) (s : State) : (present p s).fillRow = s.fillRow := rfl
@[simp] theorem present_mem (p : Presented) (s : State) : (present p s).mem = s.mem := rfl
@[simp] theorem present_pln (p : Presented) (s : State) : (present p s).pln = s.pln := rfl
@[simp] theorem present_port (p : Presented) (s : State) : (present p s).port = s.port ++ [p] := rfl
@[simp] theorem present_allocOk (p : Presented) (s : State) : (present p s).allocOk = s.allocOk := rfl
@[simp] theorem present_trace (p : Presented) (s : State) : (present p s).trace = s.trace := rfl
@[simp] theorem present_periph (p : Presented) (s : State) : (present p s).periph = s.periph := rfl

@[simp] theorem assertReset_cfg (t : Lut) (f : Row) (s : State) : (assertReset t f s).cfg = s.cfg := rfl
@[simp] theorem assertReset_desc (t : Lut) (f : Row) (s : State) : (assertReset t f s).desc = 0 := rfl
@[simp] theorem assertReset_pass (t : Lut) (f : Row) (s : State) : (assertReset t f s).pass = 0 := rfl
@[simp] theorem assertReset_k (t : Lut) (f : Row) (s : State) : (assertReset t f s).k = 0 := rfl
@[simp] theorem assertReset_row (t : Lut) (f : Row) (s : State) : (assertReset t f s).row = 0 := rfl
@[simp] theorem assertReset_busy (t : Lut) (f : Row) (s : State) : (assertReset t f s).busy = false := rfl
@[simp] theorem assertReset_err (t : Lut) (f : Row) (s : State) : (assertReset t f s).err = .ok := rfl
@[simp] theorem assertReset_lutValid (t : Lut) (f : Row) (s : State) : (assertReset t f s).lutValid = false := rfl
@[simp] theorem assertReset_lutBd (t : Lut) (f : Row) (s : State) : (assertReset t f s).lutBd = 0 := rfl
@[simp] theorem assertReset_lutK (t : Lut) (f : Row) (s : State) : (assertReset t f s).lutK = 0 := rfl
@[simp] theorem assertReset_skipping (t : Lut) (f : Row) (s : State) : (assertReset t f s).skipping = 0 := rfl
@[simp] theorem assertReset_lut (t : Lut) (f : Row) (s : State) : (assertReset t f s).lut = t := rfl
@[simp] theorem assertReset_fillRow (t : Lut) (f : Row) (s : State) : (assertReset t f s).fillRow = f := rfl
@[simp] theorem assertReset_mem (t : Lut) (f : Row) (s : State) : (assertReset t f s).mem = s.mem := rfl
@[simp] theorem assertReset_pln (t : Lut) (f : Row) (s : State) : (assertReset t f s).pln = s.pln := rfl
@[simp] theorem assertReset_port (t : Lut) (f : Row) (s : State) : (assertReset t f s).port = s.port := rfl
@[simp] theorem assertReset_allocOk (t : Lut) (f : Row) (s : State) : (assertReset t f s).allocOk = s.allocOk := rfl
@[simp] theorem assertReset_trace (t : Lut) (f : Row) (s : State) : (assertReset t f s).trace = s.trace := rfl
@[simp] theorem assertReset_periph (t : Lut) (f : Row) (s : State) : (assertReset t f s).periph = s.periph := rfl

@[simp] theorem resetPeripheral_cfg (b0 b1 : Row) (s : State) : (resetPeripheral b0 b1 s).cfg = s.cfg := rfl
@[simp] theorem resetPeripheral_desc (b0 b1 : Row) (s : State) : (resetPeripheral b0 b1 s).desc = s.desc := rfl
@[simp] theorem resetPeripheral_pass (b0 b1 : Row) (s : State) : (resetPeripheral b0 b1 s).pass = s.pass := rfl
@[simp] theorem resetPeripheral_k (b0 b1 : Row) (s : State) : (resetPeripheral b0 b1 s).k = s.k := rfl
@[simp] theorem resetPeripheral_row (b0 b1 : Row) (s : State) : (resetPeripheral b0 b1 s).row = s.row := rfl
@[simp] theorem resetPeripheral_busy (b0 b1 : Row) (s : State) : (resetPeripheral b0 b1 s).busy = s.busy := rfl
@[simp] theorem resetPeripheral_err (b0 b1 : Row) (s : State) : (resetPeripheral b0 b1 s).err = s.err := rfl
@[simp] theorem resetPeripheral_lutValid (b0 b1 : Row) (s : State) : (resetPeripheral b0 b1 s).lutValid = s.lutValid := rfl
@[simp] theorem resetPeripheral_lutBd (b0 b1 : Row) (s : State) : (resetPeripheral b0 b1 s).lutBd = s.lutBd := rfl
@[simp] theorem resetPeripheral_lutK (b0 b1 : Row) (s : State) : (resetPeripheral b0 b1 s).lutK = s.lutK := rfl
@[simp] theorem resetPeripheral_skipping (b0 b1 : Row) (s : State) : (resetPeripheral b0 b1 s).skipping = s.skipping := rfl
@[simp] theorem resetPeripheral_lut (b0 b1 : Row) (s : State) : (resetPeripheral b0 b1 s).lut = s.lut := rfl
@[simp] theorem resetPeripheral_fillRow (b0 b1 : Row) (s : State) : (resetPeripheral b0 b1 s).fillRow = s.fillRow := rfl
@[simp] theorem resetPeripheral_mem (b0 b1 : Row) (s : State) : (resetPeripheral b0 b1 s).mem = s.mem := rfl
@[simp] theorem resetPeripheral_pln (b0 b1 : Row) (s : State) : (resetPeripheral b0 b1 s).pln = s.pln := rfl
@[simp] theorem resetPeripheral_port (b0 b1 : Row) (s : State) : (resetPeripheral b0 b1 s).port = s.port := rfl
@[simp] theorem resetPeripheral_allocOk (b0 b1 : Row) (s : State) : (resetPeripheral b0 b1 s).allocOk = s.allocOk := rfl
@[simp] theorem resetPeripheral_trace (b0 b1 : Row) (s : State) : (resetPeripheral b0 b1 s).trace = s.trace := rfl
@[simp] theorem resetPeripheral_periph (b0 b1 : Row) (s : State) : (resetPeripheral b0 b1 s).periph = some ⟨b0, b1, false, 0, false, []⟩ := rfl

@[simp] theorem raise_eq_endWith (e : ErrCode) (s : State) : raise e s = endWith e s := rfl

end Sys2Proof.Machine
end

