-- ==== Sys2Proof/Laws/Run.lean ====
section
/-! SUPPORT. Running micro-operations: sequence, what one skip and one output do, and the row loop of a frame in closed form. -/

namespace Sys2Proof.Machine

/-- A configuration's panel height fits its 16-bit register (rule R4). -/
theorem panelH_le (cfg : Cfg) : cfg.panelH ≤ 65535 := by
  have := cfg.isValid
  simp [RawCfg.valid] at this
  omega

theorem panelH_pos (cfg : Cfg) : 0 < cfg.panelH := by
  have := cfg.isValid
  simp [RawCfg.valid] at this
  omega

theorem panelW_mod (cfg : Cfg) : cfg.panelW % 16 = 0 := by
  have := cfg.isValid
  simp [RawCfg.valid] at this
  omega

theorem panelW_lt (cfg : Cfg) : cfg.panelW < 65536 := by
  have := cfg.isValid
  simp [RawCfg.valid] at this
  omega

theorem panelW_pos (cfg : Cfg) : 0 < cfg.panelW := by
  have := cfg.isValid
  simp [RawCfg.valid] at this
  omega

@[simp] theorem runMicros_nil (s : State) : runMicros [] s = s := rfl

@[simp] theorem runMicros_cons (u : Micro) (us : List Micro) (s : State) :
    runMicros (u :: us) s = runMicros us (doMicro u s) := rfl

@[simp] theorem runMicros_append (us vs : List Micro) (s : State) :
    runMicros (us ++ vs) s = runMicros vs (runMicros us s) := List.foldl_append

theorem runMicros_flatMap {α : Type} (l : List α) (f : α → List Micro) (s : State) :
    runMicros (l.flatMap f) s = l.foldl (fun t a => runMicros (f a) t) s := by
  induction l generalizing s with
  | nil => rfl
  | cons a l ih => simp [ih]

@[simp] theorem periphRun_nil (p : Option Peripheral) : periphRun [] p = p := rfl

@[simp] theorem periphRun_cons (e : Event) (es : List Event) (p : Option Peripheral) :
    periphRun (e :: es) p = periphRun es (p.bind (periphTake e)) := rfl

@[simp] theorem periphRun_append (es fs : List Event) (p : Option Peripheral) :
    periphRun (es ++ fs) p = periphRun fs (periphRun es p) := List.foldl_append

@[simp] theorem eventsOf_nil : eventsOf [] = [] := rfl

@[simp] theorem eventsOf_cons (e : Emitted) (t : List Emitted) : eventsOf (e :: t) = e.event :: eventsOf t := rfl

@[simp] theorem eventsOf_append (t u : List Emitted) : eventsOf (t ++ u) = eventsOf t ++ eventsOf u := List.map_append

@[simp] theorem eventsOf_stamped (p k r : Nat) (es : List Event) : eventsOf (es.map (stamp p k r)) = es := by
  simp [eventsOf, stamp, Function.comp_def]

/-- `s` after the stamped events `es` were emitted and performed. -/
def played (es : List Emitted) (s : State) : State :=
  { s with trace := s.trace ++ es, periph := periphRun (eventsOf es) s.periph }

@[simp] theorem played_cfg (es : List Emitted) (s : State) : (played es s).cfg = s.cfg := rfl
@[simp] theorem played_desc (es : List Emitted) (s : State) : (played es s).desc = s.desc := rfl
@[simp] theorem played_pass (es : List Emitted) (s : State) : (played es s).pass = s.pass := rfl
@[simp] theorem played_k (es : List Emitted) (s : State) : (played es s).k = s.k := rfl
@[simp] theorem played_row (es : List Emitted) (s : State) : (played es s).row = s.row := rfl
@[simp] theorem played_busy (es : List Emitted) (s : State) : (played es s).busy = s.busy := rfl
@[simp] theorem played_err (es : List Emitted) (s : State) : (played es s).err = s.err := rfl
@[simp] theorem played_lutValid (es : List Emitted) (s : State) : (played es s).lutValid = s.lutValid := rfl
@[simp] theorem played_lutBd (es : List Emitted) (s : State) : (played es s).lutBd = s.lutBd := rfl
@[simp] theorem played_lutK (es : List Emitted) (s : State) : (played es s).lutK = s.lutK := rfl
@[simp] theorem played_skipping (es : List Emitted) (s : State) : (played es s).skipping = s.skipping := rfl
@[simp] theorem played_lut (es : List Emitted) (s : State) : (played es s).lut = s.lut := rfl
@[simp] theorem played_fillRow (es : List Emitted) (s : State) : (played es s).fillRow = s.fillRow := rfl
@[simp] theorem played_mem (es : List Emitted) (s : State) : (played es s).mem = s.mem := rfl
@[simp] theorem played_pln (es : List Emitted) (s : State) : (played es s).pln = s.pln := rfl
@[simp] theorem played_port (es : List Emitted) (s : State) : (played es s).port = s.port := rfl
@[simp] theorem played_allocOk (es : List Emitted) (s : State) : (played es s).allocOk = s.allocOk := rfl
@[simp] theorem played_trace (es : List Emitted) (s : State) : (played es s).trace = s.trace ++ es := rfl

@[simp] theorem played_periph (es : List Emitted) (s : State) :
    (played es s).periph = periphRun (eventsOf es) s.periph := rfl

@[simp] theorem played_nil (s : State) : played [] s = s := by simp [played]

@[simp] theorem played_played (es fs : List Emitted) (s : State) : played fs (played es s) = played (es ++ fs) s := by
  simp [played, List.append_assoc]

/-- `s` after the events `es`, all emitted at its present position. -/
def emitted (es : List Event) (s : State) : State :=
  played (es.map fun e => ⟨s.pass, s.k, s.row, e⟩) s

theorem eventsOf_unstamped (p : BitVec 5) (k : BitVec 4) (r : Half) (es : List Event) :
    eventsOf (es.map fun e => ⟨p, k, r, e⟩) = es := by
  simp [eventsOf, Function.comp_def]

theorem emit_eq_emitted (e : Event) (s : State) : emit e s = emitted [e] s := rfl

@[simp] theorem emitted_emitted (es fs : List Event) (s : State) : emitted fs (emitted es s) = emitted (es ++ fs) s := by
  simp [emitted, played, List.append_assoc]

/-- What `output_row` does (rule R111). -/
theorem outputRow_eq (d : Half) (s : State) :
    outputRow d s = setSkipping 0 (emitted [.commitRow d] s) := rfl

/-- Counting a skip below saturation adds one (rules R15, R112). -/
theorem countSkip_eq (n : Nat) (s : State) (hn : n < 65535) (hs : s.skipping = BitVec.ofNat 16 n) :
    countSkip s = setSkipping (BitVec.ofNat 16 (n + 1)) s := by
  have hne : s.skipping ≠ 0xFFFF := by
    intro h
    have := congrArg BitVec.toNat (hs.symm.trans h)
    rw [BitVec.toNat_ofNat, Nat.mod_eq_of_lt (by omega)] at this
    simp at this
    omega
  have hadd : s.skipping + 1 = BitVec.ofNat 16 (n + 1) := by
    rw [hs]; apply BitVec.eq_of_toNat_eq; simp
  rw [countSkip, if_neg hne, hadd]

/-- What `skip_row` does (rules R112, R115) while the counter is `n`, below its saturation. -/
theorem skipRow_eq (n : Nat) (s : State) (hn : n < 65535) (hs : s.skipping = BitVec.ofNat 16 n) :
    skipRow s = setSkipping (BitVec.ofNat 16 (n + 1)) (emitted (skipEvents s.cfg n) s) := by
  have htn : s.skipping.toNat = n := by rw [hs, BitVec.toNat_ofNat]; omega
  unfold skipRow skipEvents
  rw [htn]
  by_cases h : n < 2
  · simp only [if_pos h]
    rw [countSkip_eq n _ hn (by exact hs)]
    simp only [slowSkip, busyWait, slowEvents, emit_eq_emitted, emitted_emitted]
    rfl
  · simp only [if_neg h]
    rw [countSkip_eq n _ hn (by exact hs), emit_eq_emitted]

/-- `s` after row `r` of a scan: `ROW` is `r`, the skip counter is `c`, and the events `es` were emitted there. -/
def afterRow (r c : Nat) (es : List Event) (s : State) : State :=
  setSkipping (BitVec.ofNat 16 c) (emitted es (setRow r s))

/-- Two states of one frame: they differ in the row, the skip counter, the trace and the peripheral only. -/
def SameFrame (s t : State) : Prop :=
  t = { s with row := t.row, skipping := t.skipping, trace := t.trace, periph := t.periph }

theorem SameFrame.refl (s : State) : SameFrame s s := rfl

/-- The trace of the first `n` rows of a scan. -/
def rowsTrace (p k : Nat) (ev : Nat → List Event) (n : Nat) : List Emitted :=
  (List.range n).flatMap fun r => (ev r).map (stamp p k r)

/-- The state after the first `n` rows of a scan, whatever `ROW` then is. -/
theorem runMicros_rows (s : State) (p k : Nat) (rowOps : Nat → List Micro) (ev : Nat → List Event) (cnt : Nat → Nat)
    (n : Nat) (hp : s.pass = BitVec.ofNat 5 p) (hk : s.k = BitVec.ofNat 4 k) (h0 : s.skipping = BitVec.ofNat 16 (cnt 0))
    (hrow : ∀ r < n, ∀ t, SameFrame s t → t.skipping = BitVec.ofNat 16 (cnt r) →
      runMicros (.setRow r :: rowOps r) t = afterRow r (cnt (r + 1)) (ev r) t) :
    ∃ row', runMicros ((List.range n).flatMap fun r => .setRow r :: rowOps r) s =
      played (rowsTrace p k ev n) { s with row := row', skipping := BitVec.ofNat 16 (cnt n) } := by
  induction n with
  | zero => exact ⟨s.row, by simp [rowsTrace, ← h0]⟩
  | succ n ih =>
    obtain ⟨row', hr⟩ := ih fun r hr => hrow r (by omega)
    refine ⟨BitVec.ofNat 16 n, ?_⟩
    rw [List.range_succ, List.flatMap_append, runMicros_append, hr]
    simp only [List.flatMap_cons, List.flatMap_nil, List.append_nil]
    have hn := hrow n (by omega)
      (played (rowsTrace p k ev n) { s with row := row', skipping := BitVec.ofNat 16 (cnt n) }) rfl rfl
    rw [hn]
    have hs : (fun e => (⟨s.pass, s.k, BitVec.ofNat 16 n, e⟩ : Emitted)) = stamp p k n := by
      funext e; rw [hp, hk]; rfl
    simp [afterRow, emitted, played, setSkipping, setRow, rowsTrace, List.range_succ, hs]

/-- One whole frame (rules R116, R126, R133, R141), from the state `s` its `scan_start` finds: the closed form of its trace,
with `ROW` left at `PANEL_H` and the skip counter 0. -/
theorem runMicros_scan (s : State) (p k : Nat) (rowOps : Nat → List Micro) (ev : Nat → List Event) (cnt : Nat → Nat)
    (d : Half) (hp : s.pass = BitVec.ofNat 5 p) (hk : s.k = BitVec.ofNat 4 k) (h0 : cnt 0 = 0)
    (hrow : ∀ r < s.cfg.panelH, ∀ t, SameFrame s t → t.skipping = BitVec.ofNat 16 (cnt r) →
      runMicros (.setRow r :: rowOps r) t = afterRow r (cnt (r + 1)) (ev r) t) :
    runMicros (frameOps s.cfg [] rowOps d) s =
      played (frameTrace s.cfg p k ev d) { s with row := BitVec.ofNat 16 s.cfg.panelH, skipping := 0 } := by
  obtain ⟨row', hr⟩ := runMicros_rows (emit .frameStart (setRow 0 (setSkipping 0 s))) p k rowOps ev cnt s.cfg.panelH
    hp hk (by simp [h0]) (fun r hr t ht hc => hrow r hr t (by rw [SameFrame] at ht ⊢; rw [ht]; rfl) hc)
  unfold frameOps
  simp only [List.nil_append, runMicros_append, runMicros_cons, runMicros_nil, doMicro, scanStart]
  rw [hr]
  simp [outputRow, emit, setRow, setSkipping, played, frameTrace, rowsTrace, stamp, eventsOf, hp, hk, List.append_assoc]

/-- Frames one after another: if frame `n` takes the state with the registers `regs n` to the one with `regs (n + 1)`, adding
the trace `tr n` to whatever was emitted before. -/
theorem runMicros_frames (fr : Nat → List Micro) (tr : Nat → List Emitted) (regs : Nat → State) (n : Nat)
    (h : ∀ m < n, ∀ es, runMicros (fr m) (played es (regs m)) = played (es ++ tr m) (regs (m + 1))) :
    runMicros ((List.range n).flatMap fr) (regs 0) = played ((List.range n).flatMap tr) (regs n) := by
  induction n with
  | zero => simp
  | succ n ih =>
    rw [List.range_succ, List.flatMap_append, runMicros_append, ih fun m hm => h m (by omega)]
    simp [h n (by omega)]

/-- The frame's leading micro-operations run first. -/
theorem runMicros_frameOps (cfg : Cfg) (before : List Micro) (rowOps : Nat → List Micro) (d : Half) (s : State) :
    runMicros (frameOps cfg before rowOps d) s = runMicros (frameOps cfg [] rowOps d) (runMicros before s) := by
  simp [frameOps]

/-- The skip counter before row `r` of a scan over a rect (rules R111, R112, R115). -/
def skipCount (rc : Rect) (r : Nat) : Nat :=
  if r ≤ rc.y ∨ rc.h = 0 then r else r - (rc.y + rc.h)

/-- A skipped row in the row loop, with the counter where the closed form says it is. -/
theorem runMicros_skip (rc : Rect) (r : Nat) (t : State) (hr : r < 65535) (ho : rowInside rc r = false)
    (hc : t.skipping = BitVec.ofNat 16 (skipCount rc r)) :
    runMicros [.setRow r, .skipRow] t = afterRow r (skipCount rc (r + 1)) (skipEvents t.cfg (skipIndex rc r)) t := by
  have hio : ¬ (rc.y ≤ r ∧ r < rc.y + rc.h) := by
    simpa [rowInside] using ho
  have h1 : skipCount rc r = skipIndex rc r := by
    unfold skipCount skipIndex; split_ifs <;> omega
  have h2 : skipCount rc (r + 1) = skipIndex rc r + 1 := by
    unfold skipCount skipIndex; split_ifs <;> omega
  have h3 : skipIndex rc r < 65535 := by unfold skipIndex; split_ifs <;> omega
  simp only [runMicros_cons, runMicros_nil, doMicro]
  rw [skipRow_eq (skipIndex rc r) _ h3 (by rw [setRow_skipping, hc, h1]), afterRow, h2]
  rfl

theorem skipCount_zero (rc : Rect) : skipCount rc 0 = 0 := by simp [skipCount]

theorem skipCount_inside {rc : Rect} {r : Nat} (h : rowInside rc r = true) : skipCount rc (r + 1) = 0 := by
  simp [rowInside] at h
  unfold skipCount; split_ifs <;> omega

/-- One frame of the image path from a state whose LUT holds the frame's table (rules R126, R177). -/
theorem runMicros_imageFrame (rc : Rect) (fb : Word) (bd : BitDepth) (p k : Nat) (s : State)
    (hp : s.pass = BitVec.ofNat 5 p) (hk : s.k = BitVec.ofNat 4 k) (hl : s.lut = compiledLut bd k) :
    runMicros (frameOps s.cfg [] (imageRowOps s.cfg rc fb bd k) (contrast s.cfg bd k)) s =
      played (frameTrace s.cfg p k (imageRowEvents s.cfg s.mem rc fb bd k) (contrast s.cfg bd k))
        { s with row := BitVec.ofNat 16 s.cfg.panelH, skipping := 0 } := by
  refine runMicros_scan s p k _ _ (skipCount rc) _ hp hk (skipCount_zero rc) fun r hr t ht hc => ?_
  have hcfg : t.cfg = s.cfg := by rw [ht]
  have hlut : t.lut = s.lut := by rw [ht]
  have hmem : t.mem = s.mem := by rw [ht]
  have hH := panelH_le s.cfg
  unfold imageRowOps imageRowEvents
  cases hin : rowInside rc r with
  | true =>
    simp [doMicro, skipCount_inside hin, afterRow, outputRow_eq, emit_eq_emitted, emitted, played, setSkipping, setRow,
      hcfg, hlut, hmem, hl]
  | false =>
    have := runMicros_skip rc r t (by omega) hin hc
    rw [hcfg] at this
    simpa using this

/-- One pattern frame from a state whose fill latch holds the masked fill row (rules R141, R142). -/
theorem runMicros_patternFrame (rc : Rect) (d : Half) (b : Byte) (p k : Nat) (s : State)
    (hp : s.pass = BitVec.ofNat 5 p) (hk : s.k = BitVec.ofNat 4 k) (hf : s.fillRow = fillRowOf s.cfg b rc.x rc.w) :
    runMicros (frameOps s.cfg [] (patternRowOps rc d) d) s =
      played (frameTrace s.cfg p k (patternRowEvents s.cfg rc d b) d)
        { s with row := BitVec.ofNat 16 s.cfg.panelH, skipping := 0 } := by
  refine runMicros_scan s p k _ _ (skipCount rc) _ hp hk (skipCount_zero rc) fun r hr t ht hc => ?_
  have hcfg : t.cfg = s.cfg := by rw [ht]
  have hfr : t.fillRow = s.fillRow := by rw [ht]
  have hH := panelH_le s.cfg
  unfold patternRowOps patternRowEvents
  cases hin : rowInside rc r with
  | true =>
    by_cases hy : r = rc.y
    · subst hy
      simp [doMicro, skipCount_inside hin, afterRow, outputRow_eq, emit_eq_emitted, emitted, played, setSkipping, setRow,
        hfr, hf]
    · simp [doMicro, skipCount_inside hin, afterRow, outputRow_eq, emitted, played, setSkipping, setRow, hy]
  | false =>
    have := runMicros_skip rc r t (by omega) hin hc
    rw [hcfg] at this
    simpa using this

/-- One frame of the unary replay (rule R133). -/
theorem runMicros_unaryFrame (p k : Nat) (s : State) (hp : s.pass = BitVec.ofNat 5 p) (hk : s.k = BitVec.ofNat 4 k) :
    runMicros (frameOps s.cfg [] (fun r => [.writeUnary k r, .outputRow (contrast s.cfg .four k)])
        (contrast s.cfg .four k)) s =
      played (frameTrace s.cfg p k
          (fun r => [.bufWrite (unaryRow s.cfg s.pln k r), .commitRow (contrast s.cfg .four k)]) (contrast s.cfg .four k))
        { s with row := BitVec.ofNat 16 s.cfg.panelH, skipping := 0 } := by
  refine runMicros_scan s p k _ _ (fun _ => 0) _ hp hk rfl fun r hr t ht hc => ?_
  have hcfg : t.cfg = s.cfg := by rw [ht]
  have hpln : t.pln = s.pln := by rw [ht]
  simp [doMicro, afterRow, outputRow_eq, emit_eq_emitted, emitted, played, setSkipping, setRow, hcfg, hpln]

/-- What `compile(k, bd)` does (rule R85). -/
theorem runMicros_compile (bd : BitDepth) (k : Nat) (s : State) :
    runMicros (compileOps bd k) s =
      { s with
        k := BitVec.ofNat 4 k, lut := compiledLut bd k, lutValid := true, lutK := BitVec.ofNat 4 k
        lutBd := BitVec.ofNat 3 (depthBits bd) } := rfl

/-- No micro-operation writes `CFG`, the descriptor, `BUSY`, `ERR`, `MEM`, the port or the sampled `ALLOC_OK` (rules R11, R14,
R43, R61). -/
theorem doMicro_frame (u : Micro) (s : State) :
    (doMicro u s).cfg = s.cfg ∧ (doMicro u s).desc = s.desc ∧ (doMicro u s).busy = s.busy ∧ (doMicro u s).err = s.err
      ∧ (doMicro u s).mem = s.mem ∧ (doMicro u s).port = s.port ∧ (doMicro u s).allocOk = s.allocOk := by
  cases u with
  | skipRow => by_cases h : s.skipping.toNat < 2 <;> simp [doMicro, skipRow, countSkip, slowSkip, busyWait, h]
  | _ => simp [doMicro, scanStart, outputRow]

/-- The end of the check stage, case by case (rules R125, R152). -/
theorem checkAndRun_cases (error : Option ErrCode) (ops : List Micro) (s : State) :
    (∃ e, error = some e ∧ checkAndRun error ops s = afterError e s)
      ∨ (error = none ∧ checkAndRun error ops s = endWith .ok (runMicros ops s)) := by
  cases error with
  | some e => exact .inl ⟨e, rfl, rfl⟩
  | none => exact .inr ⟨rfl, rfl⟩

/-- Everything one step can do. -/
theorem step_cases {s t : State} (h : step s = .next t) :
    s.busy = false ∧ ((s.port = [] ∧ t = s) ∨
      ∃ p rest, s.port = p :: rest ∧
        ((∃ i, decode p.data = .ok i ∧ exec i (accept p { s with port := rest }) = .next t)
          ∨ (∃ e, decode p.data = .error e ∧ t = raise .opcode (accept p { s with port := rest })))) := by
  unfold step at h
  split at h
  · cases h
  · next hb =>
    refine ⟨by simpa using hb, ?_⟩
    unfold fetch at h
    split at h
    · next hp =>
      cases h
      cases hq : s.port with
      | nil => exact .inl ⟨rfl, rfl⟩
      | cons p rest => rw [hq] at hp; cases hp
    · next d u hp =>
      cases hq : s.port with
      | nil => rw [hq] at hp; cases hp
      | cons p rest =>
        rw [hq] at hp
        cases hp
        refine .inr ⟨p, rest, rfl, ?_⟩
        unfold runDescriptor at h
        split at h
        · next i hd => exact .inl ⟨i, hd, h⟩
        · next e hd => cases h; exact .inr ⟨e, hd, rfl⟩

end Sys2Proof.Machine
end

