-- ==== Sys2Proof/Laws/Codec.lean ====
section
/-! SUPPORT. The codec row by row: lengths, the byte at each index of a row, and what storing a plane row does. -/

namespace Sys2Proof.Machine

/-- The interleave stays inside a row of whole groups of four. -/
theorem xor_two_lt {i n : Nat} (hn : n % 4 = 0) (h : i < n) : i ^^^ 2 < n := by
  have h1 : (i ^^^ 2) / 4 = i / 4 := by
    have := Nat.xor_div_two_pow (a := i) (b := 2) (n := 2)
    simpa using this
  omega

theorem xor_two_xor_two (i : Nat) : i ^^^ 2 ^^^ 2 = i := by rw [Nat.xor_assoc]; simp

@[simp] theorem length_interleave (p : Row) : (interleave p).length = p.length := by simp [interleave]

theorem getD_map_range {α : Type} (f : Nat → α) (n i : Nat) (z : α) (h : i < n) :
    ((List.range n).map f).getD i z = f i := by
  simp [List.getD, h]

/-- Byte `i` of the interleave is byte `i xor 2` of the row (rule R95). -/
theorem getD_interleave (p : Row) (i : Nat) (h : i < p.length) : (interleave p).getD i 0 = p.getD (i ^^^ 2) 0 :=
  getD_map_range _ _ _ _ h

@[simp] theorem length_preRow (cfg : Cfg) (t : Lut) (m : Memory) (r : Nat) (fb : Word) (bd : BitDepth) (x w : Nat) :
    (preRow cfg t m r fb bd x w).length = lineBytes cfg := by simp [preRow, groups, lineBytes]

@[simp] theorem length_imageRow (cfg : Cfg) (t : Lut) (m : Memory) (r : Nat) (fb : Word) (bd : BitDepth) (x w : Nat) :
    (imageRow cfg t m r fb bd x w).length = lineBytes cfg := by simp [imageRow]

@[simp] theorem length_fillRowOf (cfg : Cfg) (b : Byte) (x w : Nat) : (fillRowOf cfg b x w).length = lineBytes cfg := by
  simp [fillRowOf, groups, lineBytes]

@[simp] theorem length_nullRow (cfg : Cfg) : (nullRow cfg).length = lineBytes cfg := by simp [nullRow]

@[simp] theorem length_compact (o : Row) : (compact o).length = o.length / 2 := by simp [compact]

@[simp] theorem length_expand (q : Row) : (expand q).length = 2 * q.length := by
  simp [expand, List.length_flatMap]; omega

/-- A row holds twice as many bytes as a plane row (rule R4: `PANEL_W` is a multiple of 16). -/
theorem two_mul_planeRowBytes (cfg : Cfg) : 2 * planeRowBytes cfg = lineBytes cfg := by
  have := panelW_mod cfg
  unfold planeRowBytes lineBytes; omega

theorem lineBytes_mod (cfg : Cfg) : lineBytes cfg % 4 = 0 := by
  have := panelW_mod cfg
  unfold lineBytes; omega

@[simp] theorem length_unaryRow (cfg : Cfg) (pln : Memory) (k r : Nat) : (unaryRow cfg pln k r).length = lineBytes cfg := by
  simp [unaryRow, two_mul_planeRowBytes]

/-- Byte `i` of an image row (rules R93, R95, R96): the translated byte of group `i xor 2`. -/
theorem getD_imageRow (cfg : Cfg) (t : Lut) (m : Memory) (r : Nat) (fb : Word) (bd : BitDepth) (x w i : Nat)
    (h : i < lineBytes cfg) :
    (imageRow cfg t m r fb bd x w).getD i 0 = preByte t m (rowBase cfg fb bd r) bd x w (i ^^^ 2) := by
  rw [imageRow, getD_interleave _ _ (by simpa using h)]
  exact getD_map_range _ _ _ _ (xor_two_lt (lineBytes_mod cfg) h)

/-- Byte `i` of a fill row (rules R95, R97). -/
theorem getD_fillRowOf (cfg : Cfg) (b : Byte) (x w i : Nat) (h : i < lineBytes cfg) :
    (fillRowOf cfg b x w).getD i 0 = b &&& groupMask (i ^^^ 2) x w := by
  rw [fillRowOf, getD_interleave _ _ (by simpa [groups, lineBytes] using h)]
  exact getD_map_range _ _ _ _ (xor_two_lt (lineBytes_mod cfg) h)

theorem storeBytes_succ (cfg : Cfg) (k r : Nat) (q : Row) (n : Nat) (pln : Memory) :
    storeBytes cfg k r q (n + 1) pln = plnWrite (storeBytes cfg k r q n pln) (plnIndex cfg k r n) (q.getD n 0) := by
  simp [storeBytes, List.range_succ]

/-- Everything the first `n` writes of a plane row do to the plane store. -/
theorem storeBytes_spec (cfg : Cfg) (k r : Nat) (q : Row) (n : Nat) (pln : Memory) (h : Memory.wf pln) :
    Memory.wf (storeBytes cfg k r q n pln)
      ∧ (∀ b, b < n → plnRead (storeBytes cfg k r q n pln) (plnIndex cfg k r b) = q.getD b 0)
      ∧ (∀ a, (∀ b, b < n → a ≠ plnIndex cfg k r b) → plnRead (storeBytes cfg k r q n pln) a = plnRead pln a)
      ∧ ∀ c ∈ storeBytes cfg k r q n pln, c ∈ pln ∨ ∃ b, b < n ∧ c.1 = plnIndex cfg k r b := by
  induction n with
  | zero => exact ⟨h, by simp, fun a _ => rfl, fun c hc => .inl hc⟩
  | succ n ih =>
    obtain ⟨h1, h2, h3, h4⟩ := ih
    rw [storeBytes_succ]
    refine ⟨Memory.wf_write _ _ h1, fun b hb => ?_, fun a ha => ?_, fun c hc => ?_⟩
    · by_cases hbn : b = n
      · subst hbn; exact Memory.read_write_same _ _ h1
      · rw [plnRead, plnWrite, Memory.read_write_other _ _ (by unfold plnIndex; omega)]
        exact h2 b (by omega)
    · rw [plnRead, plnWrite, Memory.read_write_other _ _ (ha n (by omega))]
      exact h3 a fun b hb => ha b (by omega)
    · rcases Memory.mem_write hc with he | hc
      · exact .inr ⟨n, by omega, he⟩
      · rcases h4 c hc with h5 | ⟨b, hb, he⟩
        · exact .inl h5
        · exact .inr ⟨b, by omega, he⟩

/-- Everything storing one plane row does (rule R102). -/
theorem storePlaneRow_spec (cfg : Cfg) (k r : Nat) (q : Row) (pln : Memory) (h : Memory.wf pln) :
    Memory.wf (storePlaneRow cfg k r q pln)
      ∧ (∀ b, b < planeRowBytes cfg → plnRead (storePlaneRow cfg k r q pln) (plnIndex cfg k r b) = q.getD b 0)
      ∧ (∀ a, (∀ b, b < planeRowBytes cfg → a ≠ plnIndex cfg k r b) →
          plnRead (storePlaneRow cfg k r q pln) a = plnRead pln a)
      ∧ ∀ c ∈ storePlaneRow cfg k r q pln, c ∈ pln ∨ ∃ b, b < planeRowBytes cfg ∧ c.1 = plnIndex cfg k r b :=
  storeBytes_spec cfg k r q (planeRowBytes cfg) pln h

end Sys2Proof.Machine
end

