-- ==== Sys2Proof/Laws/Decode.lean ====
section
/-! SUPPORT. Reading the fields of format `D` back, and which descriptors select each row of the opcode table. -/

namespace Sys2Proof

theorem extract_append_high {m n : Nat} (x : BitVec m) (y : BitVec n) (t s l : Nat) (h : t = n + s) :
    (x ++ y).extractLsb' t l = x.extractLsb' s l := by
  subst h
  apply BitVec.eq_of_getLsbD_eq; intro i hi
  simp only [BitVec.getLsbD_extractLsb', BitVec.getLsbD_append, hi, decide_true, Bool.true_and]
  rw [if_neg (by omega)]
  congr 1; omega

theorem extract_append_low {m n : Nat} (x : BitVec m) (y : BitVec n) (s l : Nat) (h : s + l ≤ n) :
    (x ++ y).extractLsb' s l = y.extractLsb' s l := by
  apply BitVec.eq_of_getLsbD_eq; intro i hi
  simp only [BitVec.getLsbD_extractLsb', BitVec.getLsbD_append, hi, decide_true, Bool.true_and]
  rw [if_pos (by omega)]

theorem and_append {m n : Nat} (x z : BitVec m) (y w : BitVec n) : (x ++ y) &&& (z ++ w) = (x &&& z) ++ (y &&& w) := by
  apply BitVec.eq_of_getLsbD_eq; intro i hi
  simp only [BitVec.getLsbD_and, BitVec.getLsbD_append]
  split <;> rfl

theorem append_extract {m n : Nat} (d : BitVec (m + n)) : d.extractLsb' n m ++ d.extractLsb' 0 n = d := by
  apply BitVec.eq_of_getLsbD_eq; intro i hi
  simp only [BitVec.getLsbD_append, BitVec.getLsbD_extractLsb']
  split
  · next h => simp [h]
  · next h => rw [show n + (i - n) = i by omega]; simp; omega

section
variable (op a : Byte) (b x y w h : Half) (addr : Word)
@[simp] theorem fieldOP_formatD : fieldOP (formatD op a b x y w h addr) = op := by
  simp (disch := omega) only [fieldOP, formatD, extract_append_low, BitVec.extractLsb'_eq_self]
@[simp] theorem fieldA_formatD : fieldA (formatD op a b x y w h addr) = a := by
  rw [fieldA, formatD, extract_append_high (s := 0) (h := rfl), extract_append_low (h := by omega), BitVec.extractLsb'_eq_self]
@[simp] theorem fieldB_formatD : fieldB (formatD op a b x y w h addr) = b := by
  rw [fieldB, formatD, extract_append_high (s := 8) (h := rfl), extract_append_high (s := 0) (h := rfl), extract_append_low (h := by omega), BitVec.extractLsb'_eq_self]
@[simp] theorem fieldX_formatD : fieldX (formatD op a b x y w h addr) = x := by
  rw [fieldX, formatD, extract_append_high (s := 24) (h := rfl), extract_append_high (s := 16) (h := rfl), extract_append_high (s := 0) (h := rfl), extract_append_low (h := by omega), BitVec.extractLsb'_eq_self]
@[simp] theorem fieldY_formatD : fieldY (formatD op a b x y w h addr) = y := by
  rw [fieldY, formatD, extract_append_high (s := 40) (h := rfl), extract_append_high (s := 32) (h := rfl), extract_append_high (s := 16) (h := rfl), extract_append_high (s := 0) (h := rfl), extract_append_low (h := by omega), BitVec.extractLsb'_eq_self]
@[simp] theorem fieldW_formatD : fieldW (formatD op a b x y w h addr) = w := by
  rw [fieldW, formatD, extract_append_high (s := 56) (h := rfl), extract_append_high (s := 48) (h := rfl), extract_append_high (s := 32) (h := rfl), extract_append_high (s := 16) (h := rfl), extract_append_high (s := 0) (h := rfl), extract_append_low (h := by omega), BitVec.extractLsb'_eq_self]
@[simp] theorem fieldH_formatD : fieldH (formatD op a b x y w h addr) = h := by
  rw [fieldH, formatD, extract_append_high (s := 72) (h := rfl), extract_append_high (s := 64) (h := rfl), extract_append_high (s := 48) (h := rfl), extract_append_high (s := 32) (h := rfl), extract_append_high (s := 16) (h := rfl), extract_append_high (s := 0) (h := rfl), extract_append_low (h := by omega), BitVec.extractLsb'_eq_self]
@[simp] theorem fieldADDR_formatD : fieldADDR (formatD op a b x y w h addr) = addr := by
  rw [fieldADDR, formatD, extract_append_high (s := 88) (h := rfl), extract_append_high (s := 80) (h := rfl), extract_append_high (s := 64) (h := rfl), extract_append_high (s := 48) (h := rfl), extract_append_high (s := 32) (h := rfl), extract_append_high (s := 16) (h := rfl), extract_append_high (s := 0) (h := rfl), BitVec.extractLsb'_eq_self]
end

theorem and_formatD (op a : Byte) (b x y w h : Half) (addr : Word) (op' a' : Byte) (b' x' y' w' h' : Half) (addr' : Word) :
   formatD op a b x y w h addr &&& formatD op' a' b' x' y' w' h' addr' = formatD (op &&& op') (a &&& a') (b &&& b') (x &&& x') (y &&& y') (w &&& w') (h &&& h') (addr &&& addr') := by
  refine (and_append (m := 120) (n := 8) _ _ _ _).trans ?_
  rw [and_append, and_append, and_append, and_append, and_append, and_append]
  rfl

theorem formatD_inj {op a op' a' : Byte} {b x y w h b' x' y' w' h' : Half} {addr addr' : Word}
   (e : formatD op a b x y w h addr = formatD op' a' b' x' y' w' h' addr') : op = op' ∧ a = a' ∧ b = b' ∧ x = x' ∧ y = y' ∧ w = w' ∧ h = h' ∧ addr = addr' := by
  refine ⟨?_, ?_, ?_, ?_, ?_, ?_, ?_, ?_⟩
  · simpa using congrArg fieldOP e
  · simpa using congrArg fieldA e
  · simpa using congrArg fieldB e
  · simpa using congrArg fieldX e
  · simpa using congrArg fieldY e
  · simpa using congrArg fieldW e
  · simpa using congrArg fieldH e
  · simpa using congrArg fieldADDR e

theorem formatD_fields (d : Desc) :
    formatD (fieldOP d) (fieldA d) (fieldB d) (fieldX d) (fieldY d) (fieldW d) (fieldH d) (fieldADDR d) = d := by
  apply BitVec.eq_of_getLsbD_eq
  intro i hi
  simp only [formatD, fieldOP, fieldA, fieldB, fieldX, fieldY, fieldW, fieldH, fieldADDR, BitVec.getLsbD_append, BitVec.getLsbD_extractLsb']
  split_ifs <;> rw [decide_eq_true (by omega), Bool.true_and] <;> congr 1 <;> omega

/-- A row whose mask and value are given field by field selects the descriptors that match it in every field. -/
theorem selectsRow_formatD (d : Desc) (op a : Byte) (b x y w h : Half) (addr : Word) (op' a' : Byte)
    (b' x' y' w' h' : Half) (addr' : Word) :
    selectsRow ⟨formatD op a b x y w h addr, formatD op' a' b' x' y' w' h' addr'⟩ d = true ↔
      fieldOP d &&& op = op' ∧ fieldA d &&& a = a' ∧ fieldB d &&& b = b' ∧ fieldX d &&& x = x' ∧
        fieldY d &&& y = y' ∧ fieldW d &&& w = w' ∧ fieldH d &&& h = h' ∧ fieldADDR d &&& addr = addr' := by
  rw [selectsRow, decide_eq_true_iff]
  constructor
  · intro e
    rw [← formatD_fields d, and_formatD] at e
    exact formatD_inj e
  · rintro ⟨rfl, rfl, rfl, rfl, rfl, rfl, rfl, rfl⟩
    rw [← and_formatD, formatD_fields]

/-- A field outside the mask is compared with nothing. -/
theorem and_zero_eq_zero {n : Nat} (v : BitVec n) : v &&& 0#n = 0#n ↔ True := by simp

/-- A field inside the mask is compared whole. -/
theorem and_ones_eq {n : Nat} (v c : BitVec n) : v &&& BitVec.allOnes n = c ↔ v = c := by simp

/-- The descriptors that select this row: its opcode, and every must-be-zero field 0 (rule R65). -/
theorem selects_rowLutCompile (d : Desc) : selectsRow rowLutCompile d = true ↔
    fieldOP d = 1 ∧ fieldX d = 0 ∧ fieldY d = 0 ∧ fieldW d = 0 ∧ fieldH d = 0 ∧ fieldADDR d = 0 := by
  rw [show rowLutCompile = ⟨formatD (BitVec.allOnes 8) 0#8 0#16 (BitVec.allOnes 16) (BitVec.allOnes 16) (BitVec.allOnes 16) (BitVec.allOnes 16) (BitVec.allOnes 32),
    formatD 1#8 0#8 0#16 0#16 0#16 0#16 0#16 0#32⟩ from by decide, selectsRow_formatD]
  simp only [and_ones_eq, and_zero_eq_zero, true_and]; rfl

/-- The descriptors that select this row: its opcode, and every must-be-zero field 0 (rule R65). -/
theorem selects_rowDrawImage (d : Desc) : selectsRow rowDrawImage d = true ↔
    fieldOP d = 2 ∧ fieldB d = 0 := by
  rw [show rowDrawImage = ⟨formatD (BitVec.allOnes 8) 0#8 (BitVec.allOnes 16) 0#16 0#16 0#16 0#16 0#32,
    formatD 2#8 0#8 0#16 0#16 0#16 0#16 0#16 0#32⟩ from by decide, selectsRow_formatD]
  simp only [and_ones_eq, and_zero_eq_zero, true_and, and_true]; rfl

/-- The descriptors that select this row: its opcode, and every must-be-zero field 0 (rule R65). -/
theorem selects_rowDrawSolidByte (d : Desc) : selectsRow rowDrawSolidByte d = true ↔
    fieldOP d = 3 ∧ fieldADDR d = 0 := by
  rw [show rowDrawSolidByte = ⟨formatD (BitVec.allOnes 8) 0#8 0#16 0#16 0#16 0#16 0#16 (BitVec.allOnes 32),
    formatD 3#8 0#8 0#16 0#16 0#16 0#16 0#16 0#32⟩ from by decide, selectsRow_formatD]
  simp only [and_ones_eq, and_zero_eq_zero, true_and]; rfl

/-- The descriptors that select this row: its opcode, and every must-be-zero field 0 (rule R65). -/
theorem selects_rowClear (d : Desc) : selectsRow rowClear d = true ↔
    fieldOP d = 4 ∧ fieldA d = 0 ∧ fieldB d = 0 ∧ fieldADDR d = 0 := by
  rw [show rowClear = ⟨formatD (BitVec.allOnes 8) (BitVec.allOnes 8) (BitVec.allOnes 16) 0#16 0#16 0#16 0#16 (BitVec.allOnes 32),
    formatD 4#8 0#8 0#16 0#16 0#16 0#16 0#16 0#32⟩ from by decide, selectsRow_formatD]
  simp only [and_ones_eq, and_zero_eq_zero, true_and]; rfl

/-- The descriptors that select this row: its opcode, and every must-be-zero field 0 (rule R65). -/
theorem selects_rowEncodeUnary (d : Desc) : selectsRow rowEncodeUnary d = true ↔
    fieldOP d = 5 ∧ fieldA d = 0 ∧ fieldB d = 0 ∧ fieldX d = 0 ∧ fieldY d = 0 ∧ fieldW d = 0 ∧ fieldH d = 0 := by
  rw [show rowEncodeUnary = ⟨formatD (BitVec.allOnes 8) (BitVec.allOnes 8) (BitVec.allOnes 16) (BitVec.allOnes 16) (BitVec.allOnes 16) (BitVec.allOnes 16) (BitVec.allOnes 16) 0#32,
    formatD 5#8 0#8 0#16 0#16 0#16 0#16 0#16 0#32⟩ from by decide, selectsRow_formatD]
  simp only [and_ones_eq, and_zero_eq_zero, and_true]; rfl

/-- The descriptors that select this row: its opcode, and every must-be-zero field 0 (rule R65). -/
theorem selects_rowDrawUnary (d : Desc) : selectsRow rowDrawUnary d = true ↔
    fieldOP d = 6 ∧ fieldA d = 0 ∧ fieldB d = 0 ∧ fieldX d = 0 ∧ fieldY d = 0 ∧ fieldW d = 0 ∧
      fieldH d = 0 ∧ fieldADDR d = 0 := by
  rw [show rowDrawUnary = ⟨formatD (BitVec.allOnes 8) (BitVec.allOnes 8) (BitVec.allOnes 16) (BitVec.allOnes 16) (BitVec.allOnes 16) (BitVec.allOnes 16) (BitVec.allOnes 16) (BitVec.allOnes 32),
    formatD 6#8 0#8 0#16 0#16 0#16 0#16 0#16 0#32⟩ from by decide, selectsRow_formatD]
  simp only [and_ones_eq]; rfl

/-- What the decoder can answer: the command of a row the descriptor selects, or an illegal encoding when it selects none;
the name of that depends on the opcode alone (rules R65, R66). -/
theorem decode_cases (d : Desc) :
    (∃ i, decode d = .ok i ∧ selectsRow (rowOf i) d = true) ∨
    ((∀ r ∈ opcodeTable, selectsRow r d = false) ∧
      decode d = .error (if knownOpcode (fieldOP d) then .mustBeZero (fieldOP d) else .unknownOpcode (fieldOP d))) := by
  unfold decode
  repeat' split
  all_goals first
    | exact .inl ⟨_, rfl, by assumption⟩
    | (refine .inr ⟨?_, rfl⟩
       simp only [opcodeTable, List.mem_cons, List.not_mem_nil, or_false, forall_eq_or_imp, forall_eq]
       simp_all)

end Sys2Proof
end

