-- ==== Sys2Proof/Laws/Exec.lean ====
section
/-! SUPPORT. Everything a command and a step can do: pass the checks and run the run stage, or end with the first error due. -/

namespace Sys2Proof.Machine

/-- The first error of rule R151 that a command has. -/
inductive ErrorDue (i : Instr) (s : State) : ErrCode → Prop where
  | bitDepth (h : badDepth i) : ErrorDue i s .bitDepth
  | frame (h1 : ¬ badDepth i) (h : badFrame i) : ErrorDue i s .frame
  | rect (h1 : ¬ badDepth i) (h2 : ¬ badFrame i) (h : badRect s.cfg i) : ErrorDue i s .rect
  | noMem (h1 : ¬ badDepth i) (h2 : ¬ badFrame i) (h3 : ¬ badRect s.cfg i) (h : s.allocOk = false) : ErrorDue i s .noMem

theorem frameError_none {bd : BitDepth} {k : Half} (h : k.toNat < frameCount bd) : frameError bd k = none := by
  rw [frameError, if_pos h]
theorem frameError_some {bd : BitDepth} {k : Half} (h : frameCount bd ≤ k.toNat) : frameError bd k = some .frame := by
  rw [frameError, if_neg (by omega)]
theorem rectError_none {cfg : Cfg} {r : Rect} (h : r.x + r.w ≤ cfg.panelW ∧ r.y + r.h ≤ cfg.panelH) :
    rectError cfg r = none := by
  simp [rectError, rectOk, h]
theorem rectError_some {cfg : Cfg} {r : Rect} (h : ¬ (r.x + r.w ≤ cfg.panelW ∧ r.y + r.h ≤ cfg.panelH)) :
    rectError cfg r = some .rect := by
  rw [rectError, if_neg]; simp only [rectOk, Bool.and_eq_true, decide_eq_true_eq]; exact h

theorem bitDepthOf_none {a : Byte} : bitDepthOf a = none ↔ a ≠ 2 ∧ a ≠ 4 := by
  unfold bitDepthOf; split_ifs <;> simp_all

/-- Everything a command can do: its checks pass and its run stage is run to `OK`, or the first error that is due ends it. -/
theorem exec_cases (i : Instr) (s : State) :
    (Passes i s ∧ exec i s = .next (endWith .ok (runMicros (runOps s.cfg i) s)))
      ∨ ∃ e, ErrorDue i s e ∧ exec i s = .next (afterError e s) := by
  have hd : badDepth i ∨ ¬ badDepth i := em _
  have hf : badFrame i ∨ ¬ badFrame i := em _
  have hr : badRect s.cfg i ∨ ¬ badRect s.cfg i := em _
  rcases hd with hd | hd
  · refine .inr ⟨_, .bitDepth hd, ?_⟩
    obtain ⟨a, ha, hn⟩ := hd
    cases i <;> simp only [depthOperand, Option.some.injEq, reduceCtorEq] at ha <;> subst ha <;>
      simp only [exec, execLutCompile, execDrawImage, bitDepthOf_none.2 hn] <;> rfl
  rcases hf with hf | hf
  · refine .inr ⟨_, .frame hd hf, ?_⟩
    obtain ⟨k, bd, dep, rfl, hb, hk⟩ := hf
    simp only [exec, execLutCompile, hb, frameError_some hk]; rfl
  rcases hr with hr | hr
  · refine .inr ⟨_, .rect hd hf hr, ?_⟩
    obtain ⟨r, hr, hn⟩ := hr
    cases i <;> simp only [rectOperand, Option.some.injEq, reduceCtorEq] at hr <;> subst hr
    · next bd =>
      cases hb : bitDepthOf bd with
      | none => exact absurd ⟨_, rfl, bitDepthOf_none.1 hb⟩ hd
      | some dep => simp only [exec, execDrawImage, hb, rectError_some hn]; rfl
    · simp only [exec, execDrawSolidByte, rectError_some hn]; rfl
    · simp only [exec, execClear, rectError_some hn]; rfl
  have hrect : ∀ r, rectOperand i = some r → rectError s.cfg r = none := fun r h =>
    rectError_none (by by_contra hn; exact hr ⟨r, h, hn⟩)
  cases ha : s.allocOk with
  | false =>
    refine .inr ⟨_, .noMem hd hf hr ha, ?_⟩
    cases i with
    | lutCompile k bd =>
      cases hb : bitDepthOf bd with
      | none => exact absurd ⟨_, rfl, bitDepthOf_none.1 hb⟩ hd
      | some dep =>
        have hk : k.toNat < frameCount dep := by by_contra hk; exact hf ⟨k, bd, dep, rfl, hb, by omega⟩
        simp only [exec, execLutCompile, hb, frameError_none hk, ha]; rfl
    | drawImage x y w h fb bd =>
      cases hb : bitDepthOf bd with
      | none => exact absurd ⟨_, rfl, bitDepthOf_none.1 hb⟩ hd
      | some dep => simp only [exec, execDrawImage, hb, hrect _ rfl, ha]; rfl
    | drawSolidByte x y w h d b => simp only [exec, execDrawSolidByte, hrect _ rfl, ha]; rfl
    | clear x y w h => simp only [exec, execClear, hrect _ rfl, ha]; rfl
    | encodeUnary fb => simp only [exec, execEncodeUnary, ha]; rfl
    | drawUnary => simp only [exec, execDrawUnary, ha]; rfl
  | true =>
    refine .inl ⟨⟨hd, hf, hr, ha⟩, ?_⟩
    cases i with
    | lutCompile k bd =>
      cases hb : bitDepthOf bd with
      | none => exact absurd ⟨_, rfl, bitDepthOf_none.1 hb⟩ hd
      | some dep =>
        have hk : k.toNat < frameCount dep := by by_contra hk; exact hf ⟨k, bd, dep, rfl, hb, by omega⟩
        simp only [exec, execLutCompile, hb, frameError_none hk, ha, runOps]; rfl
    | drawImage x y w h fb bd =>
      cases hb : bitDepthOf bd with
      | none => exact absurd ⟨_, rfl, bitDepthOf_none.1 hb⟩ hd
      | some dep => simp only [exec, execDrawImage, hb, hrect _ rfl, ha, runOps]; rfl
    | drawSolidByte x y w h d b => simp only [exec, execDrawSolidByte, hrect _ rfl, ha, runOps]; rfl
    | clear x y w h => simp only [exec, execClear, hrect _ rfl, ha, runOps]; rfl
    | encodeUnary fb => simp only [exec, execEncodeUnary, ha, runOps]; rfl
    | drawUnary => simp only [exec, execDrawUnary, ha, runOps]; rfl

/-- A command with an error due does not pass its checks. -/
theorem not_passes_of_errorDue {i : Instr} {s : State} {e : ErrCode} (h : ErrorDue i s e) : ¬ Passes i s := by
  rintro ⟨h1, h2, h3, h4⟩
  cases h <;> simp_all

/-- At most one error is due. -/
theorem errorDue_unique {i : Instr} {s : State} {e f : ErrCode} (h : ErrorDue i s e) (g : ErrorDue i s f) : e = f := by
  cases h <;> cases g <;> first | rfl | contradiction

/-- A command whose checks pass runs its run stage and ends `OK` (rule R153). -/
theorem exec_of_passes {i : Instr} {s : State} (h : Passes i s) :
    exec i s = .next (endWith .ok (runMicros (runOps s.cfg i) s)) := by
  rcases exec_cases i s with ⟨_, h'⟩ | ⟨e, he, _⟩
  · exact h'
  · exact absurd h (not_passes_of_errorDue he)

/-- A command with an error due ends with it (rules R151, R152). -/
theorem exec_of_errorDue {i : Instr} {s : State} {e : ErrCode} (h : ErrorDue i s e) :
    exec i s = .next (afterError e s) := by
  rcases exec_cases i s with ⟨h', _⟩ | ⟨f, hf, h'⟩
  · exact absurd h' (not_passes_of_errorDue h)
  · rw [h', errorDue_unique hf h]

/-- A step of an idle block with a descriptor presented (rule R61). -/
theorem step_of_presented {s : State} {p : Presented} {rest : List Presented} (hb : s.busy = false)
    (hp : s.port = p :: rest) : step s = runDescriptor p.data (accept p { s with port := rest }) := by
  simp only [step, hb, fetch, hp]
  rfl

end Sys2Proof.Machine
end

