-- ==== Sys2Proof/Laws/Frames.lean ====
section
/-! SUPPORT. Traces and the reference peripheral: what a run of micro-operations adds, the form of a frame, and what a frame
does to a peripheral between frames. -/

namespace Sys2Proof.Machine

/-- Micro-operations only add to the trace, and the peripheral takes what is added (rules R5, R6). -/
theorem doMicro_trace (u : Micro) (s : State) :
    ∃ es, (doMicro u s).trace = s.trace ++ es ∧ (doMicro u s).periph = periphRun (eventsOf es) s.periph := by
  have none : ∀ t : State, t.trace = s.trace → t.periph = s.periph →
      ∃ es, t.trace = s.trace ++ es ∧ t.periph = periphRun (eventsOf es) s.periph :=
    fun t h1 h2 => ⟨[], by simp [h1], h2⟩
  cases u with
  | skipRow =>
    by_cases h : s.skipping.toNat < 2
    · exact ⟨[⟨s.pass, s.k, s.row, .bufWrite (nullRow s.cfg)⟩, ⟨s.pass, s.k, s.row, .commitRow s.cfg.minPulse⟩,
        ⟨s.pass, s.k, s.row, .dwell s.cfg.dissipation⟩], by simp [doMicro, skipRow, countSkip, slowSkip, busyWait, h], by
          simp [doMicro, skipRow, countSkip, slowSkip, busyWait, h]⟩
    · exact ⟨[⟨s.pass, s.k, s.row, .fastSkip⟩], by simp [doMicro, skipRow, countSkip, h], by
        simp [doMicro, skipRow, countSkip, h]⟩
  | emit e => exact ⟨[⟨s.pass, s.k, s.row, e⟩], rfl, rfl⟩
  | writeImage r fb bd x w => exact ⟨[⟨s.pass, s.k, s.row, _⟩], rfl, rfl⟩
  | writeFill => exact ⟨[⟨s.pass, s.k, s.row, _⟩], rfl, rfl⟩
  | writeUnary k r => exact ⟨[⟨s.pass, s.k, s.row, _⟩], rfl, rfl⟩
  | outputRow d => exact ⟨[⟨s.pass, s.k, s.row, .commitRow d⟩], rfl, rfl⟩
  | _ => exact none _ rfl rfl

/-- A run of micro-operations only adds to the trace, and the peripheral takes what is added. -/
theorem runMicros_trace (us : List Micro) (s : State) :
    ∃ es, (runMicros us s).trace = s.trace ++ es ∧ (runMicros us s).periph = periphRun (eventsOf es) s.periph := by
  induction us generalizing s with
  | nil => exact ⟨[], by simp, rfl⟩
  | cons u us ih =>
    obtain ⟨es, h1, h2⟩ := doMicro_trace u s
    obtain ⟨fs, h3, h4⟩ := ih (doMicro u s)
    exact ⟨es ++ fs, by rw [runMicros_cons, h3, h1, List.append_assoc], by
      rw [runMicros_cons, h4, h2, eventsOf_append, periphRun_append]⟩

/-- A run of micro-operations leaves what no micro-operation writes (rules R11, R14, R43, R61). -/
theorem runMicros_frame (us : List Micro) (s : State) :
    (runMicros us s).cfg = s.cfg ∧ (runMicros us s).desc = s.desc ∧ (runMicros us s).busy = s.busy
      ∧ (runMicros us s).err = s.err ∧ (runMicros us s).mem = s.mem ∧ (runMicros us s).port = s.port
      ∧ (runMicros us s).allocOk = s.allocOk := by
  induction us generalizing s with
  | nil => simp
  | cons u us ih =>
    obtain ⟨h1, h2, h3, h4, h5, h6, h7⟩ := ih (doMicro u s)
    obtain ⟨g1, g2, g3, g4, g5, g6, g7⟩ := doMicro_frame u s
    exact ⟨h1.trans g1, h2.trans g2, h3.trans g3, h4.trans g4, h5.trans g5, h6.trans g6, h7.trans g7⟩

/-- Emitting a list of events one after another. -/
theorem foldl_emit (es : List Event) (s : State) : es.foldl (fun t e => emit e t) s = emitted es s := by
  induction es generalizing s with
  | nil => simp [emitted]
  | cons e es ih => rw [List.foldl_cons, ih, emit_eq_emitted, emitted_emitted, List.singleton_append]

/-- The events of the skip that comes next (rule R112). -/
theorem doMicro_skipRow (s : State) :
    ∃ c, doMicro .skipRow s = setSkipping c (emitted
      (if s.skipping.toNat < 2 then [.bufWrite (nullRow s.cfg), .commitRow s.cfg.minPulse, .dwell s.cfg.dissipation]
        else [.fastSkip]) s) := by
  by_cases h : s.skipping.toNat < 2
  · exact ⟨_, by
      simp only [doMicro, skipRow, countSkip, slowSkip, busyWait, h, if_true, emit_eq_emitted, emitted_emitted]; rfl⟩
  · exact ⟨_, by simp only [doMicro, skipRow, countSkip, h, if_false, emit_eq_emitted]; rfl⟩

/-- A micro-operation stopped part-way leaves what no micro-operation writes. -/
theorem partMicro_frame (j : Nat) (u : Micro) (s : State) :
    (partMicro j u s).cfg = s.cfg ∧ (partMicro j u s).desc = s.desc ∧ (partMicro j u s).busy = s.busy
      ∧ (partMicro j u s).err = s.err ∧ (partMicro j u s).mem = s.mem ∧ (partMicro j u s).port = s.port
      ∧ (partMicro j u s).allocOk = s.allocOk := by
  cases u with
  | skipRow => simp [partMicro, foldl_emit, emitted]
  | outputRow d => by_cases h : j = 0 <;> simp [partMicro, h]
  | _ => simp [partMicro]

/-- A micro-operation stopped part-way has emitted a beginning of what the whole one emits. -/
theorem partMicro_trace (j : Nat) (u : Micro) (s : State) :
    s.trace <+: (partMicro j u s).trace ∧ (partMicro j u s).trace <+: (doMicro u s).trace := by
  have whole : s.trace <+: (doMicro u s).trace := by
    obtain ⟨es, h, -⟩ := doMicro_trace u s
    exact ⟨es, h.symm⟩
  cases u with
  | skipRow =>
    obtain ⟨c, h⟩ := doMicro_skipRow s
    rw [h]
    simp only [partMicro, foldl_emit, emitted, setSkipping_trace, played_trace]
    exact ⟨List.prefix_append .., List.prefix_append_right_inj _ |>.2 ((List.take_prefix ..).map _)⟩
  | outputRow d =>
    refine ⟨?_, ?_⟩
    · by_cases h : j = 0 <;> simp [partMicro, h]
    · by_cases h : j = 0 <;> simp [partMicro, h, doMicro, outputRow, emit, setSkipping]
  | _ => exact ⟨List.prefix_refl _, whole⟩

@[simp] theorem periphRun_none (es : List Event) : periphRun es none = none := by
  induction es with
  | nil => rfl
  | cons e es ih => simpa using ih

/-- One row of a frame's events: one position event, no bracket, whole rows of data (rules R71, R117, R119). -/
def IsRow (cfg : Cfg) (es : List Event) : Prop :=
  es.all (fun e => !isBracket e) = true ∧ es.countP isPosition = 1 ∧ ∀ row, Event.bufWrite row ∈ es → row.length = lineBytes cfg

theorem isRow_skipEvents (cfg : Cfg) (n : Nat) : IsRow cfg (skipEvents cfg n) := by
  unfold skipEvents; split <;> simp [IsRow, slowEvents, isBracket, isPosition, List.countP_cons]

theorem isRow_imageRowEvents (cfg : Cfg) (m : Memory) (rc : Rect) (fb : Word) (bd : BitDepth) (k r : Nat) :
    IsRow cfg (imageRowEvents cfg m rc fb bd k r) := by
  unfold imageRowEvents
  split
  · simp [IsRow, isBracket, isPosition]
  · exact isRow_skipEvents _ _

theorem isRow_patternRowEvents (cfg : Cfg) (rc : Rect) (d : Half) (b : Byte) (r : Nat) :
    IsRow cfg (patternRowEvents cfg rc d b r) := by
  unfold patternRowEvents
  split
  · split <;> simp [IsRow, isBracket, isPosition]
  · exact isRow_skipEvents _ _

theorem isRow_unaryRowEvents (cfg : Cfg) (pln : Memory) (k r : Nat) (d : Half) :
    IsRow cfg [.bufWrite (unaryRow cfg pln k r), .commitRow d] := by simp [IsRow, isBracket, isPosition]

/-- The events of one frame. -/
theorem eventsOf_frameTrace (cfg : Cfg) (p k : Nat) (ev : Nat → List Event) (d : Half) :
    eventsOf (frameTrace cfg p k ev d) =
      [.frameStart] ++ (List.range cfg.panelH).flatMap ev ++ [.commitRow d, .frameEnd] := by
  simp [frameTrace, eventsOf, stamp, List.map_flatMap, Function.comp_def]

/-- The rows of a frame together: as many position events as rows. -/
theorem rows_body (cfg : Cfg) (ev : Nat → List Event) (n : Nat) (h : ∀ r < n, IsRow cfg (ev r)) :
    ((List.range n).flatMap ev).all (fun e => !isBracket e) = true ∧ ((List.range n).flatMap ev).countP isPosition = n
      ∧ ∀ row, Event.bufWrite row ∈ (List.range n).flatMap ev → row.length = lineBytes cfg := by
  induction n with
  | zero => simp
  | succ n ih =>
    obtain ⟨h1, h2, h3⟩ := ih fun r hr => h r (by omega)
    obtain ⟨g1, g2, g3⟩ := h n (by omega)
    rw [List.range_succ, List.flatMap_append]
    simp only [List.flatMap_cons, List.flatMap_nil, List.append_nil, List.all_append, h1, g1, List.countP_append, h2, g2,
      List.mem_append]
    exact ⟨by simp, trivial, fun row hr => hr.elim (h3 row) (g3 row)⟩

/-- A frame of rows has the form of rule R119. -/
theorem isFrame_frameTrace (cfg : Cfg) (p k : Nat) (ev : Nat → List Event) (d : Half)
    (h : ∀ r < cfg.panelH, IsRow cfg (ev r)) : IsFrame cfg (eventsOf (frameTrace cfg p k ev d)) := by
  obtain ⟨h1, h2, _⟩ := rows_body cfg ev cfg.panelH h
  exact ⟨_, d, eventsOf_frameTrace .., h1, h2⟩

/-- What the body of a frame does to an open peripheral (rule R118): it stays open, no precondition fails, every position event
adds one entry, and whole rows stay whole rows. -/
theorem periphRun_body (L : Nat) (es : List Event) (h : es.all (fun e => !isBracket e) = true)
    (hl : ∀ row, Event.bufWrite row ∈ es → row.length = L) (p : Peripheral) (ho : p.isOpen = true)
    (h0 : p.buf0.length = L) (h1 : p.buf1.length = L) :
    ∃ q, periphRun es (some p) = some q ∧ q.isOpen = true ∧ q.pos = p.pos + es.countP isPosition
      ∧ q.buf0.length = L ∧ q.buf1.length = L := by
  induction es generalizing p with
  | nil => exact ⟨p, rfl, ho, rfl, h0, h1⟩
  | cons e es ih =>
    simp only [List.all_cons, Bool.and_eq_true] at h
    have next : ∀ q, periphTake e p = some q → q.isOpen = true → q.pos = p.pos + [e].countP isPosition →
        q.buf0.length = L → q.buf1.length = L → ∃ q, periphRun (e :: es) (some p) = some q ∧ q.isOpen = true
          ∧ q.pos = p.pos + (e :: es).countP isPosition ∧ q.buf0.length = L ∧ q.buf1.length = L := by
      intro q hq hqo hqp hq0 hq1
      obtain ⟨q', g1, g2, g3, g4⟩ := ih h.2 (fun row hr => hl row (List.mem_cons_of_mem _ hr)) q hqo hq0 hq1
      refine ⟨q', by rw [periphRun_cons, Option.bind_some, hq, g1], g2, ?_, g4⟩
      rw [g3, hqp, List.countP_cons, List.countP_cons, List.countP_nil]
      omega
    cases e with
    | frameStart => simp [isBracket] at h
    | frameEnd => simp [isBracket] at h
    | bufWrite row =>
      have hr := hl row List.mem_cons_self
      cases hc : p.cur
      · exact next { p with buf0 := row } (by simp [periphTake, writeCurrentBuf, hc]) ho (by simp [isPosition]) hr h1
      · exact next { p with buf1 := row } (by simp [periphTake, writeCurrentBuf, hc]) ho (by simp [isPosition]) h0 hr
    | switchBuf => exact next _ rfl ho (by simp [isPosition]) h0 h1
    | commitRow d =>
      exact next { p with rows := p.rows ++ [⟨p.pos, some (currentBuf p), some d⟩], pos := p.pos + 1, cur := !p.cur }
        (by simp [periphTake, ho]) ho (by simp [isPosition]) h0 h1
    | fastSkip =>
      exact next { p with rows := p.rows ++ [⟨p.pos, none, none⟩], pos := p.pos + 1 } (by simp [periphTake, ho]) ho (by simp [isPosition]) h0 h1
    | dwell n => exact next _ rfl ho (by simp [isPosition]) h0 h1

/-- A frame takes a peripheral between frames to one between frames (rules R118, R119). -/
theorem periphRun_frame (cfg : Cfg) (p k : Nat) (ev : Nat → List Event) (d : Half)
    (h : ∀ r < cfg.panelH, IsRow cfg (ev r)) (q : Peripheral) (hq : BetweenFrames cfg q) :
    ∃ q', periphRun (eventsOf (frameTrace cfg p k ev d)) (some q) = some q' ∧ BetweenFrames cfg q' := by
  obtain ⟨h1, -, h3⟩ := rows_body cfg ev cfg.panelH h
  obtain ⟨ho, hb0, hb1⟩ := hq
  obtain ⟨q1, g1, g2, -, g4, g5⟩ := periphRun_body (lineBytes cfg) _ h1 h3 { q with isOpen := true, pos := 0, rows := [] }
    rfl hb0 hb1
  refine ⟨{ q1 with rows := q1.rows ++ [⟨q1.pos, some (currentBuf q1), some d⟩], pos := q1.pos + 1, cur := !q1.cur,
                    isOpen := false }, ?_, rfl, g4, g5⟩
  rw [eventsOf_frameTrace, periphRun_append, periphRun_append]
  have hs : periphRun [.frameStart] (some q) = some { q with isOpen := true, pos := 0, rows := [] } := by
    simp [periphTake, ho]
  rw [hs, g1]
  simp [periphTake, g2]

/-- Any number of frames takes a peripheral between frames to one between frames. -/
theorem periphRun_frames (cfg : Cfg) {α : Type} (l : List α) (tr : α → List Emitted)
    (h : ∀ a ∈ l, ∀ q, BetweenFrames cfg q → ∃ q', periphRun (eventsOf (tr a)) (some q) = some q' ∧ BetweenFrames cfg q')
    (q : Peripheral) (hq : BetweenFrames cfg q) :
    ∃ q', periphRun (eventsOf (l.flatMap tr)) (some q) = some q' ∧ BetweenFrames cfg q' := by
  induction l generalizing q with
  | nil => exact ⟨q, rfl, hq⟩
  | cons a l ih =>
    obtain ⟨q1, g1, g2⟩ := h a List.mem_cons_self q hq
    obtain ⟨q2, g3, g4⟩ := ih (fun b hb => h b (List.mem_cons_of_mem _ hb)) q1 g2
    exact ⟨q2, by rw [List.flatMap_cons, eventsOf_append, periphRun_append, g1, g3], g4⟩

end Sys2Proof.Machine
end

