-- ==== Sys2Proof/Laws/Lut.lean ====
section
/-! SUPPORT. Reading a tabulated LUT. -/

namespace Sys2Proof.Machine

theorem getElem_tabulateFrom {α : Type} (f : Nat → α) (n i j : Nat) (h : j < (tabulateFrom f i n).length) :
    (tabulateFrom f i n)[j] = f (i + j) := by
  induction n generalizing i j with
  | zero => simp [tabulateFrom] at h
  | succ n ih =>
    cases j with
    | zero => rfl
    | succ j =>
      simp only [tabulateFrom, List.getElem_cons_succ]
      rw [ih]
      congr 1
      omega

@[simp] theorem getElem_tabulateVec {α : Type} (n : Nat) (f : Nat → α) (j : Nat) (h : j < n) :
    (tabulateVec n f)[j] = f j := by
  have := getElem_tabulateFrom f n 0 j (by rw [length_tabulateFrom]; exact h)
  rw [Nat.zero_add] at this
  exact this

/-- Entry `i` of a tabulated table is the function at `i`. -/
@[simp] theorem Lut.read_tabulate (f : Nat → Byte) (i : Half) : (Lut.tabulate f).read i = f i.toNat := by
  unfold Lut.read Lut.tabulate
  rw [getElem_tabulateVec, getElem_tabulateVec, getElem_tabulateVec, getElem_tabulateVec]
  congr 1
  omega

/-- Entry `i` of a compiled table is the entry rule R85 gives it. -/
@[simp] theorem read_compiledLut (bd : BitDepth) (k : Nat) (i : Half) :
    (compiledLut bd k).read i = lutEntry bd k i := by
  unfold compiledLut
  rw [Lut.read_tabulate]
  simp

end Sys2Proof.Machine
end

