-- ==== Sys2Proof/Laws/Paths.lean ====
section
/-! SUPPORT. The run stage of every command as one equation: the trace it adds and the registers and stores it leaves. -/

namespace Sys2Proof.Machine

/-- The image path's registers after its first `n` frames (rules R85, R126): untouched before the first, then the last frame's
table and tag, the position at the flush, and the skip counter 0. -/
def imageRegs (s : State) (bd : BitDepth) : Nat → State
  | 0 => s
  | n + 1 =>
    { s with
      row := BitVec.ofNat 16 s.cfg.panelH, skipping := 0, k := BitVec.ofNat 4 n, lut := compiledLut bd n, lutValid := true
      lutK := BitVec.ofNat 4 n, lutBd := BitVec.ofNat 3 (depthBits bd) }

@[simp] theorem imageRegs_cfg (s : State) (bd : BitDepth) (n : Nat) : (imageRegs s bd n).cfg = s.cfg := by cases n <;> rfl
@[simp] theorem imageRegs_mem (s : State) (bd : BitDepth) (n : Nat) : (imageRegs s bd n).mem = s.mem := by cases n <;> rfl
@[simp] theorem imageRegs_pln (s : State) (bd : BitDepth) (n : Nat) : (imageRegs s bd n).pln = s.pln := by cases n <;> rfl
@[simp] theorem imageRegs_trace (s : State) (bd : BitDepth) (n : Nat) : (imageRegs s bd n).trace = s.trace := by cases n <;> rfl
@[simp] theorem imageRegs_periph (s : State) (bd : BitDepth) (n : Nat) : (imageRegs s bd n).periph = s.periph := by cases n <;> rfl

/-- The trace of frame `k` of the image path at pass `p`. -/
def imageFrameTrace (cfg : Cfg) (m : Memory) (rc : Rect) (fb : Word) (bd : BitDepth) (p k : Nat) : List Emitted :=
  frameTrace cfg p k (imageRowEvents cfg m rc fb bd k) (contrast cfg bd k)

/-- What the run stage of `DRAW_IMAGE` does (rule R126). -/
theorem runMicros_imageOps (s : State) (rc : Rect) (fb : Word) (bd : BitDepth) (p : Nat) (hp : s.pass = BitVec.ofNat 5 p) :
    runMicros (imageOps s.cfg rc fb bd) s =
      played ((List.range (frameCount bd)).flatMap (imageFrameTrace s.cfg s.mem rc fb bd p)) (imageRegs s bd (frameCount bd)) := by
  refine runMicros_frames _ (imageFrameTrace s.cfg s.mem rc fb bd p) (imageRegs s bd) (frameCount bd) fun m _ es => ?_
  rw [runMicros_frameOps, runMicros_compile]
  cases m with
  | zero =>
    have key := runMicros_imageFrame rc fb bd p 0 { played es s with
        k := BitVec.ofNat 4 0, lut := compiledLut bd 0, lutValid := true, lutK := BitVec.ofNat 4 0
        lutBd := BitVec.ofNat 3 (depthBits bd) } hp rfl rfl
    exact key.trans (by simp [imageRegs, imageFrameTrace, played])
  | succ m =>
    have key := runMicros_imageFrame rc fb bd p (m + 1) { played es (imageRegs s bd (m + 1)) with
        k := BitVec.ofNat 4 (m + 1), lut := compiledLut bd (m + 1), lutValid := true, lutK := BitVec.ofNat 4 (m + 1)
        lutBd := BitVec.ofNat 3 (depthBits bd) } hp rfl rfl
    exact key.trans (by simp [imageRegs, imageFrameTrace, played])

/-- One pattern frame, its fill latch loaded first (rule R141). -/
theorem runMicros_patternFrameOps (s : State) (rc : Rect) (d : Half) (b : Byte) (p k : Nat)
    (hp : s.pass = BitVec.ofNat 5 p) (hk : s.k = BitVec.ofNat 4 k) :
    runMicros (patternFrameOps s.cfg rc d b) s =
      played (frameTrace s.cfg p k (patternRowEvents s.cfg rc d b) d)
        { s with row := BitVec.ofNat 16 s.cfg.panelH, skipping := 0, fillRow := fillRowOf s.cfg b rc.x rc.w } := by
  unfold patternFrameOps
  rw [runMicros_frameOps]
  exact runMicros_patternFrame rc d b p k { s with fillRow := fillRowOf s.cfg b rc.x rc.w } hp hk rfl

/-- The registers of `CLEAR` after its first `n` passes (rule R145). -/
def clearRegs (s : State) (rc : Rect) : Nat → State
  | 0 => s
  | n + 1 =>
    { s with
      row := BitVec.ofNat 16 s.cfg.panelH, skipping := 0, pass := BitVec.ofNat 5 n
      fillRow := fillRowOf s.cfg (recipeByte n) rc.x rc.w }

@[simp] theorem clearRegs_cfg (s : State) (rc : Rect) (n : Nat) : (clearRegs s rc n).cfg = s.cfg := by cases n <;> rfl
@[simp] theorem clearRegs_mem (s : State) (rc : Rect) (n : Nat) : (clearRegs s rc n).mem = s.mem := by cases n <;> rfl
@[simp] theorem clearRegs_pln (s : State) (rc : Rect) (n : Nat) : (clearRegs s rc n).pln = s.pln := by cases n <;> rfl
@[simp] theorem clearRegs_trace (s : State) (rc : Rect) (n : Nat) : (clearRegs s rc n).trace = s.trace := by cases n <;> rfl
@[simp] theorem clearRegs_periph (s : State) (rc : Rect) (n : Nat) : (clearRegs s rc n).periph = s.periph := by cases n <;> rfl

/-- The trace of pass `p` of `CLEAR` at frame index `k`. -/
def clearPassTrace (cfg : Cfg) (rc : Rect) (k p : Nat) : List Emitted :=
  frameTrace cfg p k (patternRowEvents cfg rc (recipeDuration cfg p) (recipeByte p)) (recipeDuration cfg p)

/-- What the run stage of `CLEAR` does (rule R145). -/
theorem runMicros_clearOps (s : State) (rc : Rect) (k : Nat) (hk : s.k = BitVec.ofNat 4 k) :
    runMicros (clearOps s.cfg rc) s =
      played ((List.range 18).flatMap (clearPassTrace s.cfg rc k)) (clearRegs s rc 18) := by
  refine runMicros_frames _ (clearPassTrace s.cfg rc k) (clearRegs s rc) 18 fun m _ es => ?_
  rw [runMicros_cons]
  cases m with
  | zero =>
    exact (runMicros_patternFrameOps (setPass 0 (played es s)) rc _ _ 0 k rfl hk).trans
      (by simp [clearRegs, clearPassTrace, played, setPass])
  | succ m =>
    exact (runMicros_patternFrameOps (setPass (m + 1) (played es (clearRegs s rc (m + 1)))) rc _ _ (m + 1) k rfl hk).trans
      (by simp [clearRegs, clearPassTrace, played, setPass])

/-- The registers of `DRAW_UNARY` after its first `n` frames (rule R133). -/
def unaryRegs (s : State) : Nat → State
  | 0 => s
  | n + 1 => { s with row := BitVec.ofNat 16 s.cfg.panelH, skipping := 0, k := BitVec.ofNat 4 n }

@[simp] theorem unaryRegs_cfg (s : State) (n : Nat) : (unaryRegs s n).cfg = s.cfg := by cases n <;> rfl
@[simp] theorem unaryRegs_mem (s : State) (n : Nat) : (unaryRegs s n).mem = s.mem := by cases n <;> rfl
@[simp] theorem unaryRegs_pln (s : State) (n : Nat) : (unaryRegs s n).pln = s.pln := by cases n <;> rfl
@[simp] theorem unaryRegs_trace (s : State) (n : Nat) : (unaryRegs s n).trace = s.trace := by cases n <;> rfl
@[simp] theorem unaryRegs_periph (s : State) (n : Nat) : (unaryRegs s n).periph = s.periph := by cases n <;> rfl

/-- The trace of frame `k` of `DRAW_UNARY` at pass `p`. -/
def unaryFrameTrace (cfg : Cfg) (pln : Memory) (p k : Nat) : List Emitted :=
  frameTrace cfg p k (fun r => [.bufWrite (unaryRow cfg pln k r), .commitRow (contrast cfg .four k)]) (contrast cfg .four k)

/-- What the run stage of `DRAW_UNARY` does (rule R133). -/
theorem runMicros_unaryOps (s : State) (p : Nat) (hp : s.pass = BitVec.ofNat 5 p) :
    runMicros (unaryOps s.cfg) s = played ((List.range 15).flatMap (unaryFrameTrace s.cfg s.pln p)) (unaryRegs s 15) := by
  refine runMicros_frames _ (unaryFrameTrace s.cfg s.pln p) (unaryRegs s) 15 fun m _ es => ?_
  rw [runMicros_frameOps]
  cases m with
  | zero =>
    exact (runMicros_unaryFrame p 0 (setK 0 (played es s)) hp rfl).trans
      (by simp [unaryRegs, unaryFrameTrace, played, setK])
  | succ m =>
    exact (runMicros_unaryFrame p (m + 1) (setK (m + 1) (played es (unaryRegs s (m + 1)))) hp rfl).trans
      (by simp [unaryRegs, unaryFrameTrace, played, setK])

/-- The planes after the rows `0 .. n-1` of plane `k` were stored (rule R102). -/
def storeRows (cfg : Cfg) (m : Memory) (fb : Word) (k n : Nat) (pln : Memory) : Memory :=
  (List.range n).foldl
    (fun q r => storePlaneRow cfg k r (compact (imageRow cfg (compiledLut .four k) m r fb .four 0 cfg.panelW)) q) pln

/-- The planes after the first `n` planes were stored (rule R102). -/
def storePlanes (cfg : Cfg) (m : Memory) (fb : Word) (n : Nat) (pln : Memory) : Memory :=
  (List.range n).foldl (fun q k => storeRows cfg m fb k cfg.panelH q) pln

/-- What the row loop of one plane does (rule R102). -/
theorem runMicros_storeRows (s : State) (fb : Word) (k n : Nat) (hl : s.lut = compiledLut .four k) :
    ∃ row, runMicros ((List.range n).flatMap fun r => [.setRow r, .storePlane k r fb]) s =
      { s with row := row, pln := storeRows s.cfg s.mem fb k n s.pln } := by
  induction n with
  | zero => exact ⟨s.row, rfl⟩
  | succ n ih =>
    obtain ⟨row, ih⟩ := ih
    refine ⟨BitVec.ofNat 16 n, ?_⟩
    rw [List.range_succ, List.flatMap_append, runMicros_append, ih]
    simp [doMicro, setRow, storeRows, List.range_succ, hl]

/-- What the run stage of `ENCODE_UNARY` does (rule R102), for its first `n + 1` planes. -/
theorem runMicros_encodePlanes (s : State) (fb : Word) (n : Nat) :
    ∃ row, runMicros ((List.range (n + 1)).flatMap fun k =>
        compileOps .four k ++ (List.range s.cfg.panelH).flatMap fun r => [.setRow r, .storePlane k r fb]) s =
      { s with
        row := row, k := BitVec.ofNat 4 n, lut := compiledLut .four n, lutValid := true, lutK := BitVec.ofNat 4 n, lutBd := 4
        pln := storePlanes s.cfg s.mem fb (n + 1) s.pln } := by
  induction n with
  | zero =>
    obtain ⟨row, h⟩ := runMicros_storeRows { s with
      k := BitVec.ofNat 4 0, lut := compiledLut .four 0, lutValid := true, lutK := BitVec.ofNat 4 0, lutBd := 4 } fb 0
      s.cfg.panelH rfl
    exact ⟨row, by simpa [runMicros_compile, depthBits, storePlanes] using h⟩
  | succ n ih =>
    obtain ⟨row', ih⟩ := ih
    obtain ⟨row, h⟩ := runMicros_storeRows { s with
      row := row', k := BitVec.ofNat 4 (n + 1), lut := compiledLut .four (n + 1), lutValid := true
      lutK := BitVec.ofNat 4 (n + 1), lutBd := 4, pln := storePlanes s.cfg s.mem fb (n + 1) s.pln } fb (n + 1)
      s.cfg.panelH rfl
    refine ⟨row, ?_⟩
    rw [List.range_succ, List.flatMap_append, runMicros_append, ih]
    simp only [List.flatMap_cons, List.flatMap_nil, List.append_nil, runMicros_append, runMicros_compile]
    refine Eq.trans ?_ (h.trans ?_)
    · simp [depthBits]
    · simp [storePlanes, List.range_succ]

end Sys2Proof.Machine
end

