-- ==== Sys2Proof/Laws/PerInstr.lean ====
section
/-! SUPPORT. Facts about every command, one lemma per constructor. -/

namespace Sys2Proof.Laws.EncodedRow

/-- The encoding of a command selects the command's own row of the opcode table (rules R62, R64, R65). -/
def Statement (i : Instr) : Prop := selectsRow (rowOf i) (encode i) = true

theorem lutCompile (k : Half) (bd : Byte) : Statement (.lutCompile k bd) := by
  simp [Statement, rowOf, encode, selects_rowLutCompile]

theorem drawImage (x y w h : Half) (fb : Word) (bd : Byte) : Statement (.drawImage x y w h fb bd) := by
  simp [Statement, rowOf, encode, selects_rowDrawImage]

theorem drawSolidByte (x y w h d : Half) (b : Byte) : Statement (.drawSolidByte x y w h d b) := by
  simp [Statement, rowOf, encode, selects_rowDrawSolidByte]

theorem clear (x y w h : Half) : Statement (.clear x y w h) := by
  simp [Statement, rowOf, encode, selects_rowClear]

theorem encodeUnary (fb : Word) : Statement (.encodeUnary fb) := by
  simp [Statement, rowOf, encode, selects_rowEncodeUnary]

theorem drawUnary : Statement .drawUnary := by
  simp [Statement, rowOf, encode, selects_rowDrawUnary]

end Sys2Proof.Laws.EncodedRow
end

