-- ==== Sys2Proof/Laws/Rows.lean ====
section
/-! SUPPORT. The rows of a frame in runs: the skips above the rect, the rows of the rect, the skips below it, and the events of
a run counted. -/

namespace Sys2Proof.Machine

/-- Two row loops with the same rows add the same. -/
theorem flatMap_range_congr {α : Type} (n : Nat) (f g : Nat → List α) (h : ∀ r < n, f r = g r) :
    (List.range n).flatMap f = (List.range n).flatMap g := by
  simp only [List.flatMap]
  rw [List.map_congr_left]
  intro a ha
  exact h a (by simpa using ha)

/-- Skips one after another from a zero counter are the run of rule R115. -/
theorem skipEvents_run (cfg : Cfg) (m : Nat) : (List.range m).flatMap (skipEvents cfg) = skipRunEvents cfg m := by
  induction m with
  | zero => rfl
  | succ n ih =>
    rw [List.range_succ, List.flatMap_append, ih]
    unfold skipRunEvents skipEvents
    by_cases h : n < 2
    · have : n = 0 ∨ n = 1 := by omega
      rcases this with rfl | rfl <;> simp [List.replicate]
    · rw [show min n 2 = 2 by omega, show min (n + 1) 2 = 2 by omega, show n + 1 - 2 = (n - 2) + 1 by omega,
        List.replicate_succ' (n := n - 2), ← List.append_assoc]
      simp
      omega

/-- The events of a row loop over a rect (rules R115, R129, R132): one run of skips above it, the rows inside, one run below; an
empty rect makes all rows one run. -/
theorem rows_split (cfg : Cfg) (rc : Rect) (inside : Nat → List Event) (hb : rc.y + rc.h ≤ cfg.panelH) :
    (List.range cfg.panelH).flatMap (fun r => if rowInside rc r then inside r else skipEvents cfg (skipIndex rc r)) =
      if rc.h = 0 then skipRunEvents cfg cfg.panelH
      else skipRunEvents cfg rc.y ++ (List.range rc.h).flatMap (fun j => inside (rc.y + j))
        ++ skipRunEvents cfg (cfg.panelH - rc.y - rc.h) := by
  split
  · next h0 =>
    rw [← skipEvents_run]
    refine flatMap_range_congr _ _ _ fun r hr => ?_
    rw [if_neg (by simp [rowInside]; omega), skipIndex, if_pos (.inr h0)]
  · next h0 =>
    have e : List.range cfg.panelH = List.range rc.y ++ (List.range rc.h).map (rc.y + ·)
        ++ (List.range (cfg.panelH - rc.y - rc.h)).map (rc.y + rc.h + ·) := by
      rw [← List.range_add, ← List.range_add]
      congr 1
      omega
    rw [e, List.flatMap_append, List.flatMap_append, List.flatMap_map, List.flatMap_map, ← skipEvents_run, ← skipEvents_run]
    congr 1
    · congr 1
      · refine flatMap_range_congr _ _ _ fun r hr => ?_
        rw [if_neg (by simp [rowInside]; omega), skipIndex, if_pos (.inl hr)]
      · refine flatMap_range_congr _ _ _ fun r hr => ?_
        rw [if_pos (by simp [rowInside]; omega)]
    · refine flatMap_range_congr _ _ _ fun r hr => ?_
      have e1 : rowInside rc (rc.y + rc.h + r) = false := by simp [rowInside]
      have e2 : skipIndex rc (rc.y + rc.h + r) = r := by rw [skipIndex, if_neg (by omega)]; omega
      rw [e1, e2, if_neg (by simp)]

/-- The events of a pattern frame's row loop (rules R141, R142). -/
theorem patternRow_split (cfg : Cfg) (rc : Rect) (d : Half) (b : Byte) (hb : rc.y + rc.h ≤ cfg.panelH) :
    (List.range cfg.panelH).flatMap (patternRowEvents cfg rc d b) =
      if rc.h = 0 then skipRunEvents cfg cfg.panelH
      else skipRunEvents cfg rc.y
        ++ ([.switchBuf, .bufWrite (fillRowOf cfg b rc.x rc.w), .switchBuf, .bufWrite (fillRowOf cfg b rc.x rc.w)]
          ++ List.replicate rc.h (.commitRow d))
        ++ skipRunEvents cfg (cfg.panelH - rc.y - rc.h) := by
  refine (rows_split cfg rc (fun r => (if r = rc.y then
      [.switchBuf, .bufWrite (fillRowOf cfg b rc.x rc.w), .switchBuf, .bufWrite (fillRowOf cfg b rc.x rc.w)]
    else []) ++ [.commitRow d]) hb).trans ?_
  split
  · rfl
  · next h0 =>
    congr 2
    obtain ⟨n, hn⟩ : ∃ n, rc.h = n + 1 := ⟨rc.h - 1, by omega⟩
    have later : ∀ n, (List.range n).flatMap (fun j => (if rc.y + (j + 1) = rc.y then
        [Event.switchBuf, .bufWrite (fillRowOf cfg b rc.x rc.w), .switchBuf, .bufWrite (fillRowOf cfg b rc.x rc.w)]
        else []) ++ [.commitRow d]) = List.replicate n (.commitRow d) := by
      intro n
      induction n with
      | zero => rfl
      | succ n ih =>
        rw [List.range_succ, List.flatMap_append, ih]
        simp [List.replicate_succ']
    rw [hn, List.range_succ_eq_map, List.flatMap_cons, List.flatMap_map]
    simp only [Nat.succ_eq_add_one, later]
    simp [List.replicate_succ]

/-- A run of `m` skips holds two slow ones and the rest fast (rule R115). -/
theorem countP_skipRun (cfg : Cfg) (p : Event → Bool) (m : Nat) :
    (skipRunEvents cfg m).countP p = min m 2 * (slowEvents cfg).countP p + (m - 2) * [Event.fastSkip].countP p := by
  unfold skipRunEvents
  rw [List.countP_append, List.countP_flatten, List.map_replicate, List.sum_replicate, List.countP_replicate]
  simp [List.countP_cons]

/-- A slow skip is three events, a fast one is one. -/
theorem length_skipRun (cfg : Cfg) (m : Nat) : (skipRunEvents cfg m).length = min m 2 * 3 + (m - 2) := by
  unfold skipRunEvents
  rw [List.length_append, List.length_flatten, List.map_replicate, List.sum_replicate]
  simp [slowEvents]

end Sys2Proof.Machine
end

