-- ==== Sys2Proof/Machine/Assembler.lean ====
section
/-! DEFINITION. The textual syntax of rules R68 and R69: a line of characters to the command it stands for, and a program to
the list of its commands. -/

namespace Sys2Proof

/-- What one written line is. -/
inductive Source where
  /-- Nothing but spaces and a comment. -/
  | blank
  /-- `WAIT_IDLE`, a host action, not a command (rule R69). -/
  | waitIdle
  | command (l : Line)
  deriving DecidableEq, Repr

/-- The value of a digit below the given base. -/
def digitValue (base : Nat) (c : Char) : Option Nat :=
  let n := c.toNat
  let v := if 48 ≤ n ∧ n ≤ 57 then n - 48
    else if 65 ≤ n ∧ n ≤ 70 then n - 55
    else if 97 ≤ n ∧ n ≤ 102 then n - 87
    else base
  if v < base then some v else none

/-- The number written by a list of digits after the digits of `acc`. -/
def digitsValue (base : Nat) : Nat → List Char → Option Nat
  | acc, [] => some acc
  | acc, c :: cs =>
    match digitValue base c with
    | none => none
    | some v => digitsValue base (base * acc + v) cs

/-- An unsigned number, decimal, or hexadecimal with `0x` (rule R68). -/
def readNumber : List Char → Option Nat
  | [] => none
  | ['0', 'x'] => none
  | '0' :: 'x' :: cs => digitsValue 16 0 cs
  | cs => digitsValue 10 0 cs

/-- A character that separates words. -/
def isBlankChar (c : Char) : Bool := decide (c = ' ') || decide (c = '\t')

/-- The text without blanks before and after it. -/
def trimBlanks (cs : List Char) : List Char := ((cs.dropWhile isBlankChar).reverse.dropWhile isBlankChar).reverse

/-- The pieces between commas; no text has no pieces. -/
def splitCommas : List Char → List (List Char)
  | [] => []
  | c :: cs =>
    if c = ',' then [] :: (match splitCommas cs with
      | [] => [[]]
      | p :: ps => p :: ps)
    else match splitCommas cs with
      | [] => [[c]]
      | p :: ps => (c :: p) :: ps

/-- All the numbers of an operand list. -/
def readNumbers : List (List Char) → Option (List Nat)
  | [] => some []
  | p :: ps =>
    match readNumber (trimBlanks p), readNumbers ps with
    | some n, some ns => some (n :: ns)
    | _, _ => none

/-- The line of a mnemonic and its operands, in the operand order of rules R68 and R69. -/
def lineOf (mnemonic : List Char) (operands : List Nat) : Option Line :=
  match operands with
  | [] =>
    if mnemonic = "DRAW_UNARY".toList then some .drawUnary
    else if mnemonic = "CLEAR_SCREEN".toList then some .clearScreen
    else none
  | [a] => if mnemonic = "ENCODE_UNARY".toList then some (.encodeUnary a) else none
  | [a, b] =>
    if mnemonic = "LUT_COMPILE".toList then some (.lutCompile a b)
    else if mnemonic = "DRAW_SCREEN".toList then some (.drawScreen a b)
    else none
  | [x, y, w, h] => if mnemonic = "CLEAR".toList then some (.clear x y w h) else none
  | [x, y, w, h, d] =>
    if mnemonic = "FILL_DARK".toList then some (.fillDark x y w h d)
    else if mnemonic = "FILL_CLEAR".toList then some (.fillClear x y w h d)
    else none
  | [x, y, w, h, a, b] =>
    if mnemonic = "DRAW_IMAGE".toList then some (.drawImage x y w h a b)
    else if mnemonic = "DRAW_SOLID_BYTE".toList then some (.drawSolidByte x y w h a b)
    else none
  | _ => none

/-- A written line (rule R68): a mnemonic, then numbers between commas; `;` starts a comment (log entry 22). -/
def readLine (cs : List Char) : Option Source :=
  let text := trimBlanks (cs.takeWhile fun c => !decide (c = ';'))
  if text = [] then some .blank
  else if text = "WAIT_IDLE".toList then some .waitIdle
  else
    let mnemonic := text.takeWhile fun c => !isBlankChar c
    match readNumbers (splitCommas (trimBlanks (text.dropWhile fun c => !isBlankChar c))) with
    | none => none
    | some ns => (lineOf mnemonic ns).map .command

/-- The commands of a program, one line after another (rule R68); nothing if a line is not one of the syntax or is ill formed. -/
def readProgram (cfg : Cfg) : List (List Char) → Option (List Instr)
  | [] => some []
  | l :: ls =>
    match readLine l, readProgram cfg ls with
    | some .blank, some is => some is
    | some .waitIdle, some is => some is
    | some (.command c), some is => (assemble cfg c).map (· :: is)
    | _, _ => none

end Sys2Proof
end

