-- ==== Sys2Proof/Tests/Slice0.lean ====
section
/-! SUPPORT. Tests. Every expected value is one the spec prints: the vectors V1 to V5 and programs P1 to P7 of
`95_test_vectors.md`, or the rule named at the test. -/

namespace Sys2Proof.Tests

open Sys2Proof Sys2Proof.Machine

/-! ### Helpers: small states -/

/-- The test configuration of decision D37 on a panel of 32 by 8. -/
def cfg32x8 : Cfg := { Cfg.reset with panelW := 32, panelH := 8, isValid := by decide }

/-- The same on 32 by 6 (program P1). -/
def cfg32x6 : Cfg := { Cfg.reset with panelW := 32, panelH := 6, isValid := by decide }

/-- The same on 16 by 4 (program P3). -/
def cfg16x4 : Cfg := { Cfg.reset with panelW := 16, panelH := 4, isValid := by decide }

/-- The state after reset with the given configuration. -/
def fresh (cfg : Cfg) : State := State.resetWith (PowerUp.zero cfg)

/-- A memory that holds the given bytes from an address on. -/
def memOf : Nat → List Byte → Memory
  | _, [] => []
  | a, b :: bs => Memory.consCell a b (memOf (a + 1) bs)

/-- The memory of program P2. -/
def memP2 : Memory := memOf 0x1000 [0xE4, 0x1B, 0x00, 0xFF, 0x55, 0xAA, 0x39, 0xC6]

/-- The memory of program P4. -/
def memP4 : Memory :=
  memOf 0x1000 [0x21, 0x43, 0x65, 0x87, 0xA9, 0xCB, 0xED, 0x0F, 0x00, 0xF0, 0xFF, 0x0F, 0x1E, 0x2D, 0x3C, 0x4B]

/-- The state a step gives, where it gives one. -/
def after (s : State) : Option State :=
  match step s with
  | .next t => some t
  | .fault _ => none
  | .refused _ => none

/-- The state after one descriptor is accepted and run. -/
def run (d : Nat) (s : State) : Option State := after (s.withFetchWord 128 d)

/-! ### Well-formedness -/

theorem test_wf_lutCompile_k : (Line.lutCompile 0x10000 4).wellFormed = false := by decide
theorem test_wf_lutCompile_bd : (Line.lutCompile 0 256).wellFormed = false := by decide
theorem test_wf_drawImage_x : (Line.drawImage 0x10000 0 1 1 0 4).wellFormed = false := by decide
theorem test_wf_drawImage_fb : (Line.drawImage 0 0 1 1 0x100000000 4).wellFormed = false := by decide
theorem test_wf_drawImage_bd : (Line.drawImage 0 0 1 1 0 256).wellFormed = false := by decide
theorem test_wf_drawSolidByte_y : (Line.drawSolidByte 0 0x10000 1 1 40 0x55).wellFormed = false := by decide
theorem test_wf_drawSolidByte_d : (Line.drawSolidByte 0 0 1 1 0x10000 0x55).wellFormed = false := by decide
theorem test_wf_drawSolidByte_b : (Line.drawSolidByte 0 0 1 1 40 256).wellFormed = false := by decide
theorem test_wf_clear_w : (Line.clear 0 0 0x10000 1).wellFormed = false := by decide
theorem test_wf_clear_h : (Line.clear 0 0 1 0x10000).wellFormed = false := by decide
theorem test_wf_encodeUnary_fb : (Line.encodeUnary 0x100000000).wellFormed = false := by decide
theorem test_wf_drawScreen_fb : (Line.drawScreen 0x100000000 4).wellFormed = false := by decide
theorem test_wf_drawScreen_bd : (Line.drawScreen 0 256).wellFormed = false := by decide
theorem test_wf_fillDark_d : (Line.fillDark 0 0 1 1 0x10000).wellFormed = false := by decide
theorem test_wf_fillClear_x : (Line.fillClear 0x10000 0 1 1 40).wellFormed = false := by decide
/-- The largest number of every field is well formed: `ERR_RECT` and the others are the command's own errors. -/
theorem test_wf_largest : (Line.drawSolidByte 0xFFFF 0xFFFF 0xFFFF 0xFFFF 0xFFFF 0xFF).wellFormed = true := by decide

/-! ### The constraints of rule R4, one configuration that breaks each -/

theorem test_cfg_width_zero : ({ Cfg.reset.toRawCfg with panelW := 0 } : RawCfg).build = none := by decide
theorem test_cfg_width_large : ({ Cfg.reset.toRawCfg with panelW := 65536 } : RawCfg).build = none := by decide
theorem test_cfg_width_not_16 : ({ Cfg.reset.toRawCfg with panelW := 1208 } : RawCfg).build = none := by decide
theorem test_cfg_height_zero : ({ Cfg.reset.toRawCfg with panelH := 0 } : RawCfg).build = none := by decide
theorem test_cfg_height_large : ({ Cfg.reset.toRawCfg with panelH := 65536 } : RawCfg).build = none := by decide
theorem test_cfg_contrast4_short : ({ Cfg.reset.toRawCfg with contrast4 := List.replicate 14 1 } : RawCfg).build = none := by
  decide
theorem test_cfg_contrast4_zero :
    ({ Cfg.reset.toRawCfg with contrast4 := 0 :: List.replicate 14 1 } : RawCfg).build = none := by decide
theorem test_cfg_contrast2_long : ({ Cfg.reset.toRawCfg with contrast2 := [1, 1, 1, 1] } : RawCfg).build = none := by decide
theorem test_cfg_contrast2_zero : ({ Cfg.reset.toRawCfg with contrast2 := [1, 0, 1] } : RawCfg).build = none := by decide
theorem test_cfg_dissipation : ({ Cfg.reset.toRawCfg with dissipation := 0x80000000 } : RawCfg).build = none := by decide
/-- The panel of scenarios S6 and S7 is a configuration. -/
theorem test_cfg_1200x825 : ({ Cfg.reset.toRawCfg with panelW := 1200, panelH := 825 } : RawCfg).valid = true := by decide

/-! ### Decoding: descriptors written out from the table of rule R65 and from V4 and P1 to P4 -/

theorem test_decode_lutCompile : decodeTableWord 128 0x000000000000000000000000000E0401 = some (.lutCompile 14 4) := by decide
theorem test_decode_drawImage :
    decodeTableWord 128 0x200000000002000A0003000300000402 = some (.drawImage 3 3 10 2 0x20000000 4) := by decide
theorem test_decode_drawSolidByte :
    decodeTableWord 128 0x00000000000200080002000400285503 = some (.drawSolidByte 4 2 8 2 40 0x55) := by decide
theorem test_decode_clear : decodeTableWord 128 0x00000000000200100001000000000004 = some (.clear 0 1 16 2) := by decide
theorem test_decode_encodeUnary : decodeTableWord 128 0xFFFFFFF0000000000000000000000005 = some (.encodeUnary 0xFFFFFFF0) := by
  decide
theorem test_decode_drawUnary : decodeTableWord 128 0x06 = some .drawUnary := by decide
/-- `LUT_COMPILE 0, 4 with X = 1` (V4). -/
theorem test_decode_mustBeZero : decode 0x00000000000000000000000100000401#128 = .error (.mustBeZero 1) := by decide
/-- `OP = 0x07` and the all-zero and all-ones descriptors (V4). -/
theorem test_decode_unknown : decode 7#128 = .error (.unknownOpcode 7) ∧ decode 0#128 = .error (.unknownOpcode 0)
    ∧ decode (BitVec.allOnes 128) = .error (.unknownOpcode 255) := by decide
/-- `DRAW_SOLID_BYTE 4, 2, 8, 2, 40, 0x55` is `00000000 00020008 00020004 00285503` (program P1). -/
theorem test_encode_drawSolidByte :
    encode (.drawSolidByte 4 2 8 2 40 0x55) = 0x00000000000200080002000400285503#128 := by decide

/-! ### Text (rules R68, R69) -/

theorem test_read_command : readLine "DRAW_IMAGE 3, 3, 10, 2, 0x20000000, 4 ; P6".toList
    = some (.command (.drawImage 3 3 10 2 0x20000000 4)) := by decide
theorem test_read_blank : readLine "  ; only a comment".toList = some .blank := by decide
theorem test_read_unknown : readLine "DRAW_CIRCLE 1, 2".toList = none := by decide
theorem test_read_program : readProgram cfg32x8 ["ENCODE_UNARY 0x1000".toList, "WAIT_IDLE".toList, "CLEAR_SCREEN".toList]
    = some [.encodeUnary 0x1000, .clear 0 0 32 8] := by decide

/-! ### The LUT compiler (V1) -/

theorem test_lut4 : lut4 7 0x789A = 0x15 ∧ lut4 3 0x8421 = 0x50 ∧ lut4 7 0x8888 = 0x55 ∧ lut4 8 0x8888 = 0 := by decide
theorem test_lut2 : lut2 0 0x001B = 0x15 ∧ lut2 1 0x01E4 = 0x50 ∧ lut2 2 0xFFE4 = 0x40 := by decide
/-- V1.9. -/
theorem test_trick4 : trick4 0x1234 3 = 0x01 := by decide

/-! ### The codec (V2) -/

/-- V2.1, spans (3, 10) and (2, 4). -/
theorem test_groupMask : (List.range 8).map (fun c => groupMask c 3 10) = [0xC0, 0xFF, 0xFF, 0x03, 0, 0, 0, 0]
    ∧ (List.range 8).map (fun c => groupMask c 2 4) = [0xF0, 0x0F, 0, 0, 0, 0, 0, 0] := by decide
/-- V2.3. -/
theorem test_interleave : interleave [0x10, 0x11, 0x12, 0x13, 0x14, 0x15, 0x16, 0x17, 0x18, 0x19, 0x1A, 0x1B]
    = [0x12, 0x13, 0x10, 0x11, 0x16, 0x17, 0x14, 0x15, 0x1A, 0x1B, 0x18, 0x19] := by decide
/-- V2.4. -/
theorem test_fillRow : fillRowOf cfg32x8 0x1B 5 1 = [0, 0, 0, 0x08, 0, 0, 0, 0]
    ∧ fillRowOf Cfg.reset 0xAA 15 1 = [0, 0x80, 0, 0] := by decide
/-- V2.5. -/
theorem test_compact : compact [0x55, 0x15, 0x40, 0x55] = [0x7F, 0xF8] ∧ compact [0xAA, 0xFF] = [0xF0]
    ∧ expand [0xA5] = [0x11, 0x44] := by decide
/-- The worked row of rule R106 (V2.2). -/
theorem test_imageRow : imageRow cfg32x8 (compiledLut .four 3)
    (memOf 0x1000 [0x21, 0x43, 0x65, 0x87, 0xA9, 0xCB, 0xED, 0x0F, 0x10, 0x32, 0x54, 0x76, 0x98, 0xBA, 0xDC, 0xFE])
    0 0x1000 .four 3 10 = [0x55, 0x01, 0x40, 0x55, 0, 0, 0, 0] := by decide +kernel

/-! ### The memories -/

/-- Rule R44: the second byte of a chunk at the last address is at address 0. -/
theorem test_chunk_wraps : memRead16 [(0, 0x12), (0xFFFFFFFF, 0x34)] 0xFFFFFFFF = 0x1234 := by decide
/-- Writing what an unlisted address reads as removes the entry. -/
theorem test_memory_blank : Memory.write [(3, 7), (5, 9)] 5 0 = [(3, 7)] := by decide

/-! ### One step of each command -/

/-- V1.10. -/
theorem test_lutCompile_status : (run 0x00030401 (fresh Cfg.reset)).map
    (fun t => (statusWord t, hostReadLut 0 0x1234 t, hostReadLut 0 0xFFFF t)) = some (0x3900, 0x01, 0x55) := by decide +kernel
/-- V4: `LUT_COMPILE 99, 8` is `ERR_BITDEPTH`, not `ERR_FRAME`. -/
theorem test_lutCompile_error : (run 0x00630801 (fresh cfg32x8)).map (·.err) = some .bitDepth := by decide +kernel
/-- Program P2, its first and last frame and its `STATUS`. -/
theorem test_drawImage_P2 : (run 0x00001000000200100000000000000202 { fresh Cfg.reset with mem := memP2 }).map
    (fun t => ((eventsOf t.trace).take 7, (eventsOf t.trace).drop 14, statusWord t)) = some
      ([.frameStart, .bufWrite [0x00, 0x55, 0x54, 0x15], .commitRow 200, .bufWrite [0x15, 0x45, 0x55, 0x55], .commitRow 200,
          .commitRow 200, .frameEnd],
        [.frameStart, .bufWrite [0x00, 0x55, 0x40, 0x01], .commitRow 202, .bufWrite [0x10, 0x40, 0x00, 0x00], .commitRow 202,
          .commitRow 202, .frameEnd],
        0x2500) := by decide +kernel
/-- V4: with `ALLOC_OK = 0` a bad rect outranks no-memory, and a good one reports it. -/
theorem test_drawImage_errors :
    (after { fresh cfg32x8 with port := [⟨0x00001000000800210000000000000402, false⟩] }).map (·.err) = some .rect
      ∧ (after { fresh cfg32x8 with port := [⟨0x00001000000800200000000000000402, false⟩] }).map (·.err) = some .noMem := by
  decide +kernel
/-- Program P1: its 21 events. -/
theorem test_drawSolidByte_P1 : (run 0x00000000000200080002000400285503 (fresh cfg32x6)).map (fun t => eventsOf t.trace) = some
    ([.frameStart, .bufWrite (List.replicate 8 0), .commitRow 10, .dwell 12000, .bufWrite (List.replicate 8 0), .commitRow 10,
      .dwell 12000, .switchBuf, .bufWrite [0x55, 0, 0, 0x55, 0, 0, 0, 0], .switchBuf, .bufWrite [0x55, 0, 0, 0x55, 0, 0, 0, 0],
      .commitRow 40, .commitRow 40, .bufWrite (List.replicate 8 0), .commitRow 10, .dwell 12000, .bufWrite (List.replicate 8 0),
      .commitRow 10, .dwell 12000, .commitRow 40, .frameEnd]) := by decide +kernel
/-- V3.4: what the reference peripheral presents in program P1 at positions 2, 3 and 6, and `CUR = 1` at its end. -/
theorem test_drawSolidByte_rows : ((run 0x00000000000200080002000400285503 (fresh cfg32x6)).bind (·.periph)).map
    (fun p => (p.rows[2]?, p.rows[3]?, p.rows[6]?, p.cur)) = some
      (some ⟨2, some [0x55, 0, 0, 0x55, 0, 0, 0, 0], some 40⟩, some ⟨3, some [0x55, 0, 0, 0x55, 0, 0, 0, 0], some 40⟩,
        some ⟨6, some (List.replicate 8 0), some 40⟩, true) := by decide +kernel
/-- Program P3: 270 events; the frame of pass 3 commits 10, 80, 80, 10, 80. -/
theorem test_clear_P3 : (run 0x00000000000200100001000000000004 (fresh cfg16x4)).map
    (fun t => (t.trace.length, (((eventsOf t.trace).drop 45).take 15).filter isCommit)) = some
      (270, [.commitRow 10, .commitRow 80, .commitRow 80, .commitRow 10, .commitRow 80]) := by decide +kernel
/-- Program P3 at its end: `FILLROW` is all `AA` and `STATUS` is 0. -/
theorem test_clear_end : (run 0x00000000000200100001000000000004 (fresh cfg16x4)).map (fun t => (t.fillRow, statusWord t)) = some
    ([0xAA, 0xAA, 0xAA, 0xAA], 0) := by decide +kernel
/-- Program P4: planes 0, 3 and 14 and `STATUS`. -/
theorem test_encodeUnary_P4 : (run 0x00001000000000000000000000000005 { fresh Cfg.reset with mem := memP4 }).map
    (fun t => ((List.range 4).map (plnRead t.pln), (List.range 4).map (fun b => plnRead t.pln (12 + b)),
      (List.range 4).map (fun b => plnRead t.pln (56 + b)), statusWord t)) = some
      ([0x7F, 0xFF, 0xFF, 0x78], [0x7F, 0xF8, 0xD5, 0x78], [0x40, 0, 0, 0x78], 0xE900) := by decide +kernel
/-- V4: `ENCODE_UNARY 0x1000` with `ALLOC_OK = 0`. -/
theorem test_encodeUnary_error :
    (after { fresh cfg32x8 with port := [⟨0x00001000000000000000000000000005, false⟩] }).map (·.err) = some .noMem := by
  decide +kernel
/-- Program P4, frame 3 of the replay of planes that hold `7F F8 D5 78` there. -/
theorem test_drawUnary_P4 : (run 6 { fresh Cfg.reset with pln := memOf 12 [0x7F, 0xF8, 0xD5, 0x78] }).map
    (fun t => ((eventsOf t.trace).drop 21).take 7) = some
      [.frameStart, .bufWrite [0x55, 0x15, 0x40, 0x55], .commitRow 103, .bufWrite [0x11, 0x51, 0x40, 0x15], .commitRow 103,
        .commitRow 103, .frameEnd] := by decide +kernel
/-- Rule R20 at the test configuration: `PANEL`, `CLRTIME`, `CON4_0`, `CON4_7` and `CON2_1`. -/
theorem test_rom_registers : [0x20, 0x30, 0x40, 0x5C, 0x64].map (fun off => hostReadReg 0 off (fresh cfg32x8)) =
    [0x00080020, 0x00500028, 0x00650064, 0x00000072, 0x000000CA] := by decide
/-- Rule R163: a block that has stopped in mid-command never goes on by itself. -/
theorem test_hung : step (midWay .drawUnary 4 0 (accept ⟨0x06, true⟩ (fresh cfg32x8))) = .fault .hung := rfl
/-- Rules R114, R184: a busy-wait of three ticks across the wrap of `CCOUNT`. -/
theorem test_busyWait : pollsInVain 3 0xFFFFFFFE [0xFFFFFFFE, 0xFFFFFFFF, 0, 1, 2] = some 3 := by decide
/-- V5.3: a reset after the eighth event of program P1 leaves eight events, `STATUS = 0` and the peripheral open at position 2. -/
theorem test_reset_in_P1 :
    let s := accept ⟨0x00000000000200080002000400285503, true⟩ (fresh cfg32x6)
    let t := resetDuring (.drawSolidByte 4 2 8 2 40 0x55) 10 0 s.lut s.fillRow s
    t.trace.length = 8 ∧ statusWord t = 0 ∧ t.periph.map (fun p => (p.isOpen, p.pos)) = some (true, 2) := by decide +kernel

/-! ### Witnesses: states and operands that meet the hypotheses of the statements, at the ends of their ranges -/

/-- A fresh block on the 32 by 8 panel with one descriptor presented. -/
def presented (d : Desc) (ok : Bool) : State := { fresh cfg32x8 with port := [⟨d, ok⟩] }

/-- `PowerUp.Wf` holds of all-zero contents. -/
theorem witness_powerUp : (PowerUp.zero cfg32x8).Wf :=
  ⟨by decide, by decide, by decide, by decide, by decide, by decide, by decide⟩

/-- The invariant holds of a block with a presented descriptor, bytes in both memories and the peripheral between frames. -/
theorem witness_inv : Inv { presented 0x06 true with mem := [(0xFFFFFFFF, 1)], pln := [(479, 0x21)] } where
  idle := ⟨rfl, rfl, rfl, rfl, rfl⟩
  tagged := fun h => by cases h
  fillRow := by decide
  memWf := by decide
  memIn := by decide
  plnWf := by decide
  plnIn := by decide
  periph := ⟨_, rfl, rfl, by decide, by decide⟩

theorem witness_StepRunsTheDecodedCommand : (presented 0x06 true).busy = false
    ∧ (presented 0x06 true).port = ⟨0x06, true⟩ :: [] ∧ decode 0x06 = .ok .drawUnary := by decide

theorem witness_IllegalDescriptorRaisesOpcodeError : Idle (presented 0x07 false)
    ∧ (presented 0x07 false).port = ⟨0x07, false⟩ :: [] ∧ decode 0x07 = .error (.unknownOpcode 7)
    ∧ decode 0x106 = .error (.mustBeZero 6) :=
  ⟨⟨rfl, rfl, rfl, rfl, rfl⟩, rfl, by decide, by decide⟩

theorem witness_StepWithoutDescriptorChangesNothing : (fresh cfg32x8).busy = false ∧ (fresh cfg32x8).port = [] := by decide

theorem witness_BusyBlockAcceptsNothing : ({ fresh cfg32x8 with busy := true } : State).busy = true := rfl

theorem witness_ResetLeavesRegistersZero : 7 < 8 ∧ 8 ≤ 25
    ∧ ({ fresh cfg32x8 with lutValid := true } : State).cfg = (PowerUp.zero cfg32x8).cfg := by decide

theorem witness_StepKeepsTheInvariant :
    Inv { presented 0x06 true with mem := [(0xFFFFFFFF, 1)], pln := [(479, 0x21)] }
      ∧ ∃ t, step { presented 0x06 true with mem := [(0xFFFFFFFF, 1)], pln := [(479, 0x21)] } = .next t :=
  ⟨witness_inv, _, rfl⟩

/-- A reachable state: a descriptor presented after reset. -/
theorem witness_ReachableStatesHaveTheInvariant : Reachable (presented 0x06 true) :=
  .present ⟨0x06, true⟩ (.powerUp _ witness_powerUp)

theorem witness_EveryCommandEndsAtRest : (fresh cfg32x8).skipping = 0 := rfl

theorem witness_EncodeInvertsDecode : decode (0xFFFFFFFF000000000000000000000005#128) = .ok (.encodeUnary 0xFFFFFFFF) := by
  decide

theorem witness_DecodeFollowsTheTable : decode 0x04 = .ok (.clear 0 0 0 0) ∧ rowClear ∈ opcodeTable
    ∧ selectsRow rowClear 0x04 = true := by decide

theorem witness_PseudoCommandsExpand : (Line.drawScreen 0xFFFFFFFF 0xFF).wellFormed = true
    ∧ (Line.fillDark 0xFFFF 0xFFFF 0xFFFF 0xFFFF 0xFFFF).wellFormed = true := by decide

/-- Not a bad depth, for a command whose depth operand is legal or which has none. -/
theorem not_badDepth {i : Instr} (h : ∀ a, depthOperand i = some a → a = 2 ∨ a = 4) : ¬ badDepth i := by
  rintro ⟨a, ha, h2, h4⟩; rcases h a ha with h | h <;> contradiction

/-- Not a bad frame, for a command that is no `LUT_COMPILE`. -/
theorem not_badFrame {i : Instr} (h : ∀ k bd, i ≠ .lutCompile k bd) : ¬ badFrame i := by
  rintro ⟨k, bd, dep, rfl, -⟩; exact h k bd rfl

/-- Not a bad rect, for a command with none or with one inside the panel. -/
theorem not_badRect {cfg : Cfg} {i : Instr}
    (h : ∀ r, rectOperand i = some r → r.x + r.w ≤ cfg.panelW ∧ r.y + r.h ≤ cfg.panelH) : ¬ badRect cfg i := by
  rintro ⟨r, hr, hn⟩; exact hn (h r hr)

/-- The last legal frame index at each depth. -/
theorem witness_lutCompile_passes : Passes (.lutCompile 14 4) (fresh cfg32x8) ∧ Passes (.lutCompile 2 2) (fresh cfg32x8) := by
  refine ⟨⟨not_badDepth ?_, ?_, not_badRect ?_, rfl⟩, not_badDepth ?_, ?_, not_badRect ?_, rfl⟩
  · intro a h; cases h; exact .inr rfl
  · rintro ⟨k, bd, dep, h, hb, hk⟩; cases h; cases hb; exact absurd hk (by decide)
  · intro r h; cases h
  · intro a h; cases h; exact .inl rfl
  · rintro ⟨k, bd, dep, h, hb, hk⟩; cases h; cases hb; exact absurd hk (by decide)
  · intro r h; cases h

/-- The whole panel, and the empty rect on its far corner. -/
theorem witness_drawImage_passes : Passes (.drawImage 0 0 32 8 0x1000 4) (fresh cfg32x8)
    ∧ Passes (.drawImage 32 8 0 0 0x1000 2) (fresh cfg32x8) := by
  refine ⟨⟨not_badDepth ?_, not_badFrame ?_, not_badRect ?_, rfl⟩, not_badDepth ?_, not_badFrame ?_, not_badRect ?_, rfl⟩
  · intro a h; cases h; exact .inr rfl
  · intro k bd h; cases h
  · intro r h; cases h; decide
  · intro a h; cases h; exact .inl rfl
  · intro k bd h; cases h
  · intro r h; cases h; decide

theorem witness_drawSolidByte_passes : Passes (.drawSolidByte 4 6 28 2 0 0xFF) (fresh cfg32x8) := by
  refine ⟨not_badDepth ?_, not_badFrame ?_, not_badRect ?_, rfl⟩
  · intro a h; cases h
  · intro k bd h; cases h
  · intro r h; cases h; decide

theorem witness_clear_passes : Passes (.clear 0 0 32 8) (fresh cfg32x8) := by
  refine ⟨not_badDepth ?_, not_badFrame ?_, not_badRect ?_, rfl⟩
  · intro a h; cases h
  · intro k bd h; cases h
  · intro r h; cases h; decide

theorem witness_encodeUnary_passes : Passes (.encodeUnary 0xFFFFFFF0) (fresh cfg32x8) := by
  refine ⟨not_badDepth ?_, not_badFrame ?_, not_badRect ?_, rfl⟩
  · intro a h; cases h
  · intro k bd h; cases h
  · intro r h; cases h

theorem witness_drawUnary_passes : Passes .drawUnary (fresh cfg32x8) := by
  refine ⟨not_badDepth ?_, not_badFrame ?_, not_badRect ?_, rfl⟩
  · intro a h; cases h
  · intro k bd h; cases h
  · intro r h; cases h

/-- The hypotheses of `FirstErrorIsReported` on the state, and its clause on an illegal descriptor. -/
theorem witness_FirstErrorIsReported_opcode : Idle (presented 0x09 false)
    ∧ (presented 0x09 false).port = ⟨0x09, false⟩ :: [] ∧ ∃ e, decode 0x09 = .error e :=
  ⟨⟨rfl, rfl, rfl, rfl, rfl⟩, rfl, .unknownOpcode 9, by decide⟩

/-- Its clause on the bit depth: `LUT_COMPILE 0, 3`. -/
theorem witness_FirstErrorIsReported_bitDepth : decode 0x0301 = .ok (.lutCompile 0 3) ∧ badDepth (.lutCompile 0 3) :=
  ⟨by decide, 3, rfl, by decide, by decide⟩

/-- Its clause on the frame index, at the first bad one of each depth: `LUT_COMPILE 15, 4` and `LUT_COMPILE 3, 2`. -/
theorem witness_FirstErrorIsReported_frame :
    (decode 0x0F0401 = .ok (.lutCompile 15 4) ∧ ¬ badDepth (.lutCompile 15 4) ∧ badFrame (.lutCompile 15 4))
      ∧ decode 0x030201 = .ok (.lutCompile 3 2) ∧ ¬ badDepth (.lutCompile 3 2) ∧ badFrame (.lutCompile 3 2) := by
  refine ⟨⟨by decide, not_badDepth ?_, 15, 4, .four, rfl, by decide, by decide⟩, by decide, not_badDepth ?_, 3, 2, .two, rfl,
    by decide, by decide⟩
  · intro a h; cases h; exact .inr rfl
  · intro a h; cases h; exact .inl rfl

/-- Its clause on the rect, one pixel too wide: `CLEAR 1, 0, 32, 8`. -/
theorem witness_FirstErrorIsReported_rect : decode 0x00000000000800200000000100000004 = .ok (.clear 1 0 32 8)
    ∧ ¬ badDepth (.clear 1 0 32 8) ∧ ¬ badFrame (.clear 1 0 32 8) ∧ badRect cfg32x8 (.clear 1 0 32 8) := by
  refine ⟨by decide, not_badDepth ?_, not_badFrame ?_, _, rfl, by decide⟩
  · intro a h; cases h
  · intro k bd h; cases h

/-- Its clause on `ALLOC_OK`: `DRAW_UNARY`. -/
theorem witness_FirstErrorIsReported_noMem : (⟨0x06, false⟩ : Presented).allocOk = false ∧ decode 0x06 = .ok .drawUnary
    ∧ ¬ badDepth .drawUnary ∧ ¬ badFrame .drawUnary ∧ ¬ badRect cfg32x8 .drawUnary :=
  ⟨rfl, by decide, witness_drawUnary_passes.1, witness_drawUnary_passes.2.1, witness_drawUnary_passes.2.2.1⟩

theorem witness_FirstFramesActivate : 15 < 2 ^ depthBits .four ∧ 3 < 2 ^ depthBits .two ∧ 0 < 2 ^ depthBits .two := by decide

theorem witness_TableEntryLanes : 0 < 4 ∧ 3 < 4 := by decide

theorem witness_PackedAlgorithmGivesTheTable : 0 < 15 ∧ 14 < 15 := by decide

theorem witness_LutCompileWritesTheTable : (bitDepthOf 4 = some .four ∧ (14 : Half).toNat < frameCount .four)
    ∧ (bitDepthOf 2 = some .two ∧ (2 : Half).toNat < frameCount .two) ∧ (fresh cfg32x8).allocOk = true := by decide

/-- Lane bit 7; group 1 wholly inside the span from 4 with width 4; group 0 just before that span and group 2 just after. -/
theorem witness_GroupMaskKeepsSpanLanes : 7 < 8 ∧ (4 ≤ 4 * 1 ∧ 4 * 1 + 3 < 4 + 4) ∧ 4 * 0 + 3 < 4 ∧ 4 + 4 ≤ 4 * 2 := by decide

theorem witness_InterleaveSwapsHalves : ([1, 2, 3, 4] : Row).length % 4 = 0 ∧ 3 < ([1, 2, 3, 4] : Row).length := by decide

theorem witness_CompactAndExpandRoundTrip : ([0x55, 0x15] : Row).length % 2 = 0
    ∧ ∀ b ∈ ([0x55, 0x15] : Row), b &&& 0xAA#8 = 0 := by decide

theorem witness_ImageRowDrivesEachPixel : (0 < lineBytes cfg32x8 ∧ 0 < 4) ∧ 7 < lineBytes cfg32x8 ∧ 3 < 4 := by decide

theorem witness_FillRowDrivesEachPixel : (0 < lineBytes cfg32x8 ∧ 0 < 8) ∧ 7 < lineBytes cfg32x8 ∧ 7 < 8 := by decide

/-- The first and the last byte of the plane store of the 32 by 8 panel. -/
theorem witness_PlaneIndexInRangeAndInjective : (14 < 15 ∧ 7 < cfg32x8.panelH ∧ 3 < planeRowBytes cfg32x8)
    ∧ (0 < 15 ∧ 0 < cfg32x8.panelH ∧ 0 < planeRowBytes cfg32x8) ∧ plnIndex cfg32x8 0 0 0 = plnIndex cfg32x8 0 0 0 := by decide

/-- A plane byte inside, and the first index outside every plane. -/
theorem witness_EncodeUnaryWritesThePlanes : Memory.wf (fresh cfg32x8).pln ∧ (fresh cfg32x8).allocOk = true
    ∧ (14 < 15 ∧ 7 < cfg32x8.panelH ∧ 3 < planeRowBytes cfg32x8)
    ∧ ∀ k r b, k < 15 → r < cfg32x8.panelH → b < planeRowBytes cfg32x8 → 480 ≠ plnIndex cfg32x8 k r b := by
  refine ⟨by decide, rfl, by decide, fun k r b hk hr hb => ?_⟩
  have hr' : r < 8 := hr
  have hb' : b < 4 := hb
  have hi : plnIndex cfg32x8 k r b = (k * 8 + r) * 4 + b := rfl
  omega

theorem witness_ReplayedRowsAreImageRows : Memory.wf (fresh cfg32x8).pln ∧ (fresh cfg32x8).allocOk = true
    ∧ (∃ t, exec (.encodeUnary 0x1000) (fresh cfg32x8) = .next t) ∧ 14 < 15 ∧ 7 < (fresh cfg32x8).cfg.panelH :=
  ⟨by decide, rfl, ⟨_, rfl⟩, by decide, by decide⟩

/-- A slow skip from a counter of 1 and a fast one from 2. -/
theorem witness_SkipRowIsSlowThenFast : ({ fresh cfg32x8 with skipping := 1 } : State).skipping.toNat < 2
    ∧ ¬ ({ fresh cfg32x8 with skipping := 2 } : State).skipping.toNat < 2 := by decide

theorem witness_SkipRunHasTwoSlowSkips : (fresh cfg32x8).skipping = 0 ∧ 0 ≤ 65535 ∧ 65535 ≤ 65535 := by decide

/-- The reading the loop ends at is the last of 3 for a wait of 2, and one beyond the last of 2; a wait of one tick. -/
theorem witness_BusyWaitLastsItsTicks : (2 : Word).toNat < 3 ∧ 2 ≤ (2 : Word).toNat ∧ (1 : Word) ≠ 0 := by decide

/-- The state, and rects that end exactly at the panel's edge, for the four drawing commands; at both depths. -/
theorem witness_DrawImageEmitsItsFrames : AtRest (fresh cfg32x8) ∧ bitDepthOf 4 = some .four ∧ bitDepthOf 2 = some .two
    ∧ (3 : Half).toNat + (29 : Half).toNat ≤ (fresh cfg32x8).cfg.panelW
    ∧ (3 : Half).toNat + (5 : Half).toNat ≤ (fresh cfg32x8).cfg.panelH ∧ (fresh cfg32x8).allocOk = true :=
  ⟨⟨rfl, rfl, rfl⟩, by decide, by decide, by decide, by decide, rfl⟩

theorem witness_DrawSolidByteEmitsOneFrame : AtRest (fresh cfg32x8)
    ∧ (32 : Half).toNat + (0 : Half).toNat ≤ (fresh cfg32x8).cfg.panelW
    ∧ (8 : Half).toNat + (0 : Half).toNat ≤ (fresh cfg32x8).cfg.panelH ∧ (fresh cfg32x8).allocOk = true :=
  ⟨⟨rfl, rfl, rfl⟩, by decide, by decide, rfl⟩

theorem witness_ClearEmitsTheRecipe : AtRest (fresh cfg32x8)
    ∧ (0 : Half).toNat + (32 : Half).toNat ≤ (fresh cfg32x8).cfg.panelW
    ∧ (0 : Half).toNat + (8 : Half).toNat ≤ (fresh cfg32x8).cfg.panelH ∧ (fresh cfg32x8).allocOk = true :=
  ⟨⟨rfl, rfl, rfl⟩, by decide, by decide, rfl⟩

theorem witness_DrawUnaryReplaysThePlanes : AtRest (fresh cfg32x8) ∧ (fresh cfg32x8).allocOk = true := ⟨⟨rfl, rfl, rfl⟩, rfl⟩

/-- A state with the same `CFG`, `PLN` and `MEM` but another LUT tag. -/
theorem other_tag (t : State) : ∃ u : State, u.cfg = t.cfg ∧ u.pln = t.pln ∧ u.mem = t.mem ∧ u.lutValid = false :=
  ⟨{ t with lutValid := false }, rfl, rfl, rfl, rfl⟩

/-- Later than the `ENCODE_UNARY`, with another LUT tag; directly after it `u` is `t`. -/
theorem witness_ReplayEqualsFullPanelImage : Memory.wf (fresh cfg32x8).pln ∧ (fresh cfg32x8).allocOk = true
    ∧ ∃ t, exec (.encodeUnary 0xFFFFFFF0) (fresh cfg32x8) = .next t
      ∧ ∃ u : State, u.cfg = t.cfg ∧ u.pln = t.pln ∧ u.mem = t.mem ∧ u.lutValid = false :=
  ⟨by decide, rfl, _, rfl, other_tag _⟩

/-- One command that passes its checks and one that does not. -/
theorem witness_TracesAreWholeFrames : Passes .drawUnary (fresh cfg32x8)
    ∧ ¬ Passes .drawUnary { fresh cfg32x8 with allocOk := false } :=
  ⟨witness_drawUnary_passes, fun h => by cases h.2.2.2⟩

/-- A block at rest, and the four forms its clauses name. -/
theorem witness_EventsCarryTheirPosition : AtRest (fresh cfg32x8)
    ∧ (∃ x y w h fb bd, Instr.drawImage 0 0 1 1 0 4 = .drawImage x y w h fb bd)
    ∧ (∃ x y w h d b, Instr.drawSolidByte 0 0 1 1 40 0x55 = .drawSolidByte x y w h d b)
    ∧ ∃ x y w h, Instr.clear 0 0 1 1 = .clear x y w h :=
  ⟨⟨rfl, rfl, rfl⟩, ⟨_, _, _, _, _, _, rfl⟩, ⟨_, _, _, _, _, _, rfl⟩, _, _, _, _, rfl⟩

/-- A rect of two rows and an empty one on the far corner. -/
theorem witness_EventCountsPerCommand : AtRest (fresh cfg32x8) ∧ (fresh cfg32x8).allocOk = true ∧ bitDepthOf 4 = some .four
    ∧ ((rectOf 3 3 10 2).x + (rectOf 3 3 10 2).w ≤ (fresh cfg32x8).cfg.panelW
      ∧ (rectOf 3 3 10 2).y + (rectOf 3 3 10 2).h ≤ (fresh cfg32x8).cfg.panelH)
    ∧ (rectOf 32 8 0 0).x + (rectOf 32 8 0 0).w ≤ (fresh cfg32x8).cfg.panelW
    ∧ (rectOf 32 8 0 0).y + (rectOf 32 8 0 0).h ≤ (fresh cfg32x8).cfg.panelH :=
  ⟨⟨rfl, rfl, rfl⟩, rfl, by decide, by decide, by decide, by decide⟩

/-- The panel of two rows, the lowest the second clause is about. -/
theorem witness_EventTotals : (fresh Cfg.reset).allocOk = true ∧ 2 ≤ (fresh Cfg.reset).cfg.panelH
    ∧ (16 : Half).toNat + (0 : Half).toNat ≤ (fresh Cfg.reset).cfg.panelW
    ∧ (2 : Half).toNat ≤ (fresh Cfg.reset).cfg.panelH := by decide

/-- The panel of one row, for the last case of `PatternFramePresentsTheFillRow`. -/
theorem witness_oneRow : ({ Cfg.reset with panelH := 1, isValid := by decide } : Cfg).panelH = 1
    ∧ rowInside (rectOf 0 0 16 0) 0 = false := by decide

theorem witness_framesPresented : (⟨List.replicate 8 0, List.replicate 8 0, false, 0, false, []⟩ : Peripheral).isOpen = false := rfl

/-- Two memories that differ at address 0 agree on what the one-pixel image at `0x1000` reads. -/
theorem witness_DrawImageReadsOnlyItsReadSet : ∀ dep a, bitDepthOf 4 = some dep →
    InReadSet (fresh cfg32x8).cfg (rectOf 0 0 1 1) 0x1000 dep a →
      memRead8 (fresh cfg32x8).mem a = memRead8 [(0, 1)] a := by
  rintro dep a hd ⟨r, c, n, j, hr, -, hn, hj, hp, rfl⟩
  cases hd
  have hr0 : r = 0 := by simp [rowInside, rectOf] at hr; omega
  have hc0 : c = 0 := by simp [inSpan, rectOf] at hp; omega
  subst hr0; subst hc0
  have hn2 : n = 0 ∨ n = 1 := by omega
  rcases hn2 with rfl | rfl <;> decide

/-- Micro-operations of the three kinds, in a `DRAW_IMAGE` at 2 bits per pixel and in an `ENCODE_UNARY`. -/
theorem witness_LookupsFindTheFramesTable :
    (runOps Cfg.reset (.drawImage 0 0 16 2 0x1000 2))[8]? = some (.writeImage 0 0x1000 .two 0 16)
      ∧ (runOps Cfg.reset (.encodeUnary 0x1000))[5]? = some (.storePlane 0 0 0x1000)
      ∧ (runOps Cfg.reset (.encodeUnary 0x1000))[2]? = some (.lutFill .four 0) := by decide +kernel

theorem witness_RunningCommandHoldsItsDescriptor : (accept ⟨0x06, true⟩ (fresh cfg32x8)).skipping = 0 := rfl

theorem witness_ResetAbandonsTheCommand : Passes (.clear 0 0 32 8) (fresh cfg32x8) := witness_clear_passes

/-- For `StatusLayout` and `SequencerRegisterLayout`: an idle block. -/
theorem witness_idleReads : (fresh cfg32x8).busy = false := rfl

/-- The first and the last index or offset of each clause. -/
theorem witness_HostRegisterReads : (0 < 7 ∧ 6 < 7) ∧ (0x34 ≤ 0x34 ∧ 0x34 < 0x40) ∧ (0x34 ≤ 0x3F ∧ 0x3F < 0x40) ∧ 0x68 ≤ 0x68
    ∧ 0x20 ≤ 0x20 := by decide

end Sys2Proof.Tests
end

section
/-! The words of the registers `STATUS`, `SEQ` and `SKIPCNT`: what an idle block shows at their offsets, their values
after reset, and each field read back at its place in the layout (rules R17 to R20). -/

namespace Sys2Proof.Machine

theorem hostReadReg_of_idle {s : State} (hidle : s.busy = false) (n off : Nat) :
    hostReadReg n off s = regWord s (off / 4) := by
  simp [hostReadReg, hidle]

@[simp] theorem regWord_status (s : State) : regWord s 0 = statusWord s := rfl
@[simp] theorem regWord_seq (s : State) : regWord s 1 = seqWord s := rfl
@[simp] theorem regWord_skipcnt (s : State) : regWord s 2 = skipcntWord s := rfl

theorem statusWord_resetWith (u : PowerUp) : statusWord (State.resetWith u) = 0 := by
  simp [statusWord, State.resetWith, flagBit, errBits]
theorem seqWord_resetWith (u : PowerUp) : seqWord (State.resetWith u) = 0 := by
  simp [seqWord, State.resetWith]
theorem skipcntWord_resetWith (u : PowerUp) : skipcntWord (State.resetWith u) = 0 := by
  simp [skipcntWord, State.resetWith]

/-! A field is reached by skipping the parts below it, and is then the lowest part of what remains. -/

section
variable (s : State)

@[simp] theorem busyField_statusWord : (statusWord s).extractLsb' 0 1 = flagBit s.busy := BitVec.extractLsb'_append_eq_right
@[simp] theorem bits3to1_statusWord : (statusWord s).extractLsb' 1 3 = 0#3 := by
  simp (disch := omega) only [statusWord, BitVec.extractLsb'_append_eq_of_le, BitVec.extractLsb'_append_eq_right, Nat.reduceSub]
@[simp] theorem errField_statusWord : (statusWord s).extractLsb' 4 4 = errBits s.err := by
  simp (disch := omega) only [statusWord, BitVec.extractLsb'_append_eq_of_le, BitVec.extractLsb'_append_eq_right, Nat.reduceSub]
@[simp] theorem lutValidField_statusWord : (statusWord s).extractLsb' 8 1 = flagBit s.lutValid := by
  simp (disch := omega) only [statusWord, BitVec.extractLsb'_append_eq_of_le, BitVec.extractLsb'_append_eq_right, Nat.reduceSub]
@[simp] theorem lutBdField_statusWord : (statusWord s).extractLsb' 9 3 = s.lutBd := by
  simp (disch := omega) only [statusWord, BitVec.extractLsb'_append_eq_of_le, BitVec.extractLsb'_append_eq_right, Nat.reduceSub]
@[simp] theorem lutKField_statusWord : (statusWord s).extractLsb' 12 4 = s.lutK := by
  simp (disch := omega) only [statusWord, BitVec.extractLsb'_append_eq_of_le, BitVec.extractLsb'_append_eq_right, Nat.reduceSub]
@[simp] theorem bits31to16_statusWord : (statusWord s).extractLsb' 16 16 = 0#16 := by
  simp (disch := omega) only [statusWord, BitVec.extractLsb'_append_eq_of_le, BitVec.extractLsb'_eq_self, Nat.reduceSub]

@[simp] theorem rowField_seqWord : (seqWord s).extractLsb' 0 16 = s.row := BitVec.extractLsb'_append_eq_right
@[simp] theorem kField_seqWord : (seqWord s).extractLsb' 16 4 = s.k := by
  simp (disch := omega) only [seqWord, BitVec.extractLsb'_append_eq_of_le, BitVec.extractLsb'_append_eq_right, Nat.reduceSub]
@[simp] theorem passField_seqWord : (seqWord s).extractLsb' 20 5 = s.pass := by
  simp (disch := omega) only [seqWord, BitVec.extractLsb'_append_eq_of_le, BitVec.extractLsb'_append_eq_right, Nat.reduceSub]
@[simp] theorem bits31to25_seqWord : (seqWord s).extractLsb' 25 7 = 0#7 := by
  simp (disch := omega) only [seqWord, BitVec.extractLsb'_append_eq_of_le, BitVec.extractLsb'_eq_self, Nat.reduceSub]

@[simp] theorem skippingField_skipcntWord : (skipcntWord s).extractLsb' 0 16 = s.skipping := BitVec.extractLsb'_append_eq_right
@[simp] theorem bits31to16_skipcntWord : (skipcntWord s).extractLsb' 16 16 = 0#16 := BitVec.extractLsb'_append_eq_left
end

/-- Settles O56: the reset value, the offset, then the fields of `STATUS` from bit 0 upwards. -/
theorem statusLayout : Obligations.StatusLayout :=
  ⟨statusWord_resetWith, fun s =>
    ⟨fun n hidle => (hostReadReg_of_idle hidle n 0x00).trans (regWord_status s),
      busyField_statusWord s, bits3to1_statusWord s, errField_statusWord s, lutValidField_statusWord s,
      lutBdField_statusWord s, lutKField_statusWord s, bits31to16_statusWord s⟩⟩

/-- Settles O57: the reset values, the offsets, then the fields of `SEQ` and of `SKIPCNT` from bit 0 upwards. -/
theorem sequencerRegisterLayout : Obligations.SequencerRegisterLayout :=
  ⟨fun u => ⟨seqWord_resetWith u, skipcntWord_resetWith u⟩, fun s =>
    ⟨fun n hidle => ⟨(hostReadReg_of_idle hidle n 0x04).trans (regWord_seq s),
        (hostReadReg_of_idle hidle n 0x08).trans (regWord_skipcnt s)⟩,
      rowField_seqWord s, kField_seqWord s, passField_seqWord s, bits31to25_seqWord s,
      skippingField_skipcntWord s, bits31to16_skipcntWord s⟩⟩

end Sys2Proof.Machine
end

section
/-! The threshold rule and the table entries bit by bit: what one lane holds, what the four lanes of an entry hold, and
the two table functions as the lanes of the fields of the index (rules R81 to R84). -/

namespace Sys2Proof.Machine

@[simp] theorem activate_eq_true_iff {v k : Nat} : activate v k = true ↔ k < v := decide_eq_true_iff

/-- Settles O20: the threshold rule is the comparison itself. -/
theorem activateComparesUnsigned : Obligations.ActivateComparesUnsigned := fun _ _ => activate_eq_true_iff

/-- Lane `j` holds the activation bit at bit `2j` and nothing elsewhere (rule R82). -/
theorem getLsbD_laneBit {j : Nat} (hj : j < 4) (on : Bool) (n : Nat) :
    (laneBit j on).getLsbD n = (on && decide (n = 2 * j)) := by
  cases on with
  | false => simp [laneBit]
  | true =>
    have hbit : (laneBit j true).getLsbD n = true ↔ n = 2 * j := by
      simp only [laneBit, ↓reduceIte, BitVec.getLsbD_shiftLeft, BitVec.getLsbD_one, Nat.ofNat_pos, decide_true,
        Bool.true_and, Bool.and_eq_true, decide_eq_true_eq, Bool.not_eq_eq_eq_not, Bool.not_true,
        decide_eq_false_iff_not]
      omega
    rw [Bool.true_and, Bool.eq_iff_iff, hbit, decide_eq_true_iff]

section
variable (k : Nat) (v : Nat → Nat)

/-- A bit of the four lanes: only the lane of the pixel whose low bit it is can set it. -/
theorem getLsbD_lanes_iff (n : Nat) :
    (lanes k (v 0) (v 1) (v 2) (v 3)).getLsbD n = true ↔ ∃ j < 4, activate (v j) k = true ∧ n = 2 * j := by
  simp only [lanes, BitVec.getLsbD_or, getLsbD_laneBit, Nat.reduceLT, Bool.or_eq_true, Bool.and_eq_true,
    decide_eq_true_iff, Nat.exists_lt_succ_right, Nat.not_lt_zero, false_and, exists_false, false_or]

theorem getLsbD_lanes_even {j : Nat} (hj : j < 4) :
    (lanes k (v 0) (v 1) (v 2) (v 3)).getLsbD (2 * j) = activate (v j) k := by
  rw [Bool.eq_iff_iff, getLsbD_lanes_iff]
  constructor
  · rintro ⟨j', -, hon, heq⟩
    obtain rfl : j = j' := by omega
    exact hon
  · exact fun hon => ⟨j, hj, hon, rfl⟩

theorem getLsbD_lanes_odd (j : Nat) : (lanes k (v 0) (v 1) (v 2) (v 3)).getLsbD (2 * j + 1) = false := by
  rw [Bool.eq_false_iff, ne_eq, getLsbD_lanes_iff]
  rintro ⟨j', -, -, heq⟩
  omega
end

/-! Both table functions are the lanes of the fields of the index, four or two bits wide (rules R83, R84). -/

section
variable (k : Nat) (i : Half)

theorem getLsbD_lut4_even {j : Nat} (hj : j < 4) :
    (lut4 k i).getLsbD (2 * j) = activate (i.extractLsb' (4 * j) 4).toNat k :=
  getLsbD_lanes_even k (fun j => (i.extractLsb' (4 * j) 4).toNat) hj

theorem getLsbD_lut4_odd (j : Nat) : (lut4 k i).getLsbD (2 * j + 1) = false :=
  getLsbD_lanes_odd k (fun j => (i.extractLsb' (4 * j) 4).toNat) j

theorem getLsbD_lut2_even {j : Nat} (hj : j < 4) :
    (lut2 k i).getLsbD (2 * j) = activate (i.extractLsb' (2 * j) 2).toNat k :=
  getLsbD_lanes_even k (fun j => (i.extractLsb' (2 * j) 2).toNat) hj

theorem getLsbD_lut2_odd (j : Nat) : (lut2 k i).getLsbD (2 * j + 1) = false :=
  getLsbD_lanes_odd k (fun j => (i.extractLsb' (2 * j) 2).toNat) j
end

/-- Settles O21: the low and the high bit of a lane, at four and at two bits per pixel. -/
theorem tableEntryLanes : Obligations.TableEntryLanes := fun k i j hj =>
  ⟨getLsbD_lut4_even k i hj, getLsbD_lut4_odd k i j, getLsbD_lut2_even k i hj, getLsbD_lut2_odd k i j⟩

end Sys2Proof.Machine
end

section
/-! The codec bit by bit: the group mask holds the lanes of the pixels in the span, the interleave exchanges byte `i` with
byte `i xor 2`, and the fill row is both applied to the fill byte (rules R92, R95, R97). -/

namespace Sys2Proof.Machine

@[simp] theorem inSpan_eq_true_iff {x w p : Nat} : inSpan x w p = true ↔ x ≤ p ∧ p < x + w := by simp [inSpan]

/-- Lane `j` of a mask is bits `2j` and `2j+1` (rule R92). -/
theorem getLsbD_laneMask {n : Nat} (hn : n < 8) (j : Nat) (on : Bool) :
    (laneMask j on).getLsbD n = (on && decide (n / 2 = j)) := by
  cases on with
  | false => simp [laneMask]
  | true =>
    have hthree : (3#8) = (BitVec.allOnes 2).setWidth 8 := rfl
    simp only [laneMask, ↓reduceIte, hthree, BitVec.getLsbD_shiftLeft, BitVec.getLsbD_setWidth, BitVec.getLsbD_allOnes]
    grind

/-- Bit `n` of the group mask tells whether the pixel of its lane is in the span (rule R92). -/
theorem getLsbD_groupMask (c x w : Nat) {n : Nat} (hn : n < 8) :
    (groupMask c x w).getLsbD n = inSpan x w (4 * c + n / 2) := by
  obtain h | h | h | h : n / 2 = 0 ∨ n / 2 = 1 ∨ n / 2 = 2 ∨ n / 2 = 3 := by omega
  all_goals simp [groupMask, getLsbD_laneMask hn, h]

theorem getLsbD_groupMask_iff (c x w : Nat) {n : Nat} (hn : n < 8) :
    (groupMask c x w).getLsbD n = true ↔ x ≤ 4 * c + n / 2 ∧ 4 * c + n / 2 < x + w := by
  rw [getLsbD_groupMask c x w hn, inSpan_eq_true_iff]

/-- A group wholly inside the span is kept whole (rule R92). -/
theorem groupMask_of_inside {c x w : Nat} (hlo : x ≤ 4 * c) (hhi : 4 * c + 3 < x + w) : groupMask c x w = 0xFF := by
  refine BitVec.eq_of_getLsbD_eq fun n hn => ?_
  have hbit : (groupMask c x w).getLsbD n = true := (getLsbD_groupMask_iff c x w hn).2 (by omega)
  rw [hbit, show (0xFF : Byte) = BitVec.allOnes 8 from rfl, BitVec.getLsbD_allOnes, decide_eq_true hn]

/-- A group wholly outside the span is dropped whole (rule R92). -/
theorem groupMask_of_outside {c x w : Nat} (hout : 4 * c + 3 < x ∨ x + w ≤ 4 * c) : groupMask c x w = 0x00 := by
  refine BitVec.eq_of_getLsbD_eq fun n hn => ?_
  have hbit : ¬ (groupMask c x w).getLsbD n = true := by
    rw [getLsbD_groupMask_iff c x w hn]
    omega
  rw [Bool.eq_false_iff.2 hbit]
  exact BitVec.getLsbD_zero.symm

/-- Settles O24: the mask bit by bit, then the groups the span's edges do not cut. -/
theorem groupMaskKeepsSpanLanes : Obligations.GroupMaskKeepsSpanLanes := fun c x w =>
  ⟨fun _ hn => getLsbD_groupMask_iff c x w hn, fun ⟨hlo, hhi⟩ => groupMask_of_inside hlo hhi, groupMask_of_outside⟩

/-- Byte `i` of the interleave is byte `i xor 2` of a row of whole words (rule R95). -/
theorem getElem?_interleave {p : Row} (hp : p.length % 4 = 0) {i : Nat} (hi : i < p.length) :
    (interleave p)[i]? = p[i ^^^ 2]? := by
  have hx : i ^^^ 2 < p.length := xor_two_lt hp hi
  simp [interleave, hi, hx]

/-- The two halves of a word exchanged twice are back in place (rule R95). -/
theorem interleave_interleave {p : Row} (hp : p.length % 4 = 0) : interleave (interleave p) = p := by
  refine List.ext_getElem? fun i => ?_
  rcases Nat.lt_or_ge i p.length with hi | hi
  · rw [getElem?_interleave (by simpa using hp) (by simpa using hi), getElem?_interleave hp (xor_two_lt hp hi),
      xor_two_xor_two]
  · rw [List.getElem?_eq_none (by simpa using hi), List.getElem?_eq_none hi]

/-- Settles O25: the length, the byte at each index, and the interleave undone by itself. -/
theorem interleaveSwapsHalves : Obligations.InterleaveSwapsHalves := fun p hp =>
  ⟨length_interleave p, fun _ hi => getElem?_interleave hp hi, interleave_interleave hp⟩

/-- Settles O28: byte `i` is the fill byte under the mask of group `i xor 2`, which is read bit by bit. -/
theorem fillRowDrivesEachPixel : Obligations.FillRowDrivesEachPixel := fun cfg b x w i n hi hn => by
  rw [getD_fillRowOf cfg b x w i hi, BitVec.getLsbD_and, Bool.and_eq_true, getLsbD_groupMask_iff _ x w hn]

end Sys2Proof.Machine
end

section
/-! A plane row loses nothing of an image row: every lane of a translated byte is `0b00` or `0b01`, and such rows survive
`compact` and `expand` (rules R82, R93, R96, R100). -/

namespace Sys2Proof.Machine

/-- An output byte whose four lanes are `0b00` or `0b01`: the high bit of each is 0, the premise of rule R100. -/
def PlainLanes (e : Byte) : Prop := e &&& 0xAA#8 = 0

theorem plainLanes_iff {e : Byte} : PlainLanes e ↔ ∀ n < 8, n % 2 = 1 → e.getLsbD n = false := by
  have hmask : ∀ n < 8, (0xAA#8).getLsbD n = decide (n % 2 = 1) := by decide
  constructor
  · intro he n hn hodd
    have hbit : (e &&& 0xAA#8).getLsbD n = false := by rw [PlainLanes] at he; rw [he]; exact BitVec.getLsbD_zero
    simpa [BitVec.getLsbD_and, hmask n hn, hodd] using hbit
  · intro hodd
    refine BitVec.eq_of_getLsbD_eq fun n hn => ?_
    rw [BitVec.getLsbD_and, hmask n hn, Bool.and_comm]
    by_cases hn2 : n % 2 = 1
    · simp [hodd n hn hn2]
    · simp [hn2]

/-- Activation bit `j` of an output byte is the low bit of its lane `j` (rule R100). -/
theorem getLsbD_activationBits (e : Byte) {j : Nat} (hj : j < 4) : (activationBits e).getLsbD j = e.getLsbD (2 * j) := by
  have hparts : activationBits e = BitVec.cast rfl
      (e.extractLsb' 6 1 ++ e.extractLsb' 4 1 ++ e.extractLsb' 2 1 ++ e.extractLsb' 0 1) := rfl
  rw [hparts, BitVec.getLsbD_cast]
  simp only [BitVec.getLsbD_append, BitVec.getLsbD_extractLsb']
  interval_cases j <;> simp

/-- The output byte of four activation bits has them at the low bits of its lanes, and 0 at the high bits (rule R100). -/
theorem getLsbD_lanesOfBits (h : BitVec 4) {n : Nat} (hn : n < 8) :
    (lanesOfBits h).getLsbD n = (decide (n % 2 = 0) && h.getLsbD (n / 2)) := by
  have hparts : lanesOfBits h = BitVec.cast rfl (0#1 ++ h.extractLsb' 3 1 ++ 0#1 ++ h.extractLsb' 2 1 ++ 0#1
      ++ h.extractLsb' 1 1 ++ 0#1 ++ h.extractLsb' 0 1) := rfl
  rw [hparts, BitVec.getLsbD_cast]
  simp only [BitVec.getLsbD_append, BitVec.getLsbD_extractLsb']
  interval_cases n <;> simp

/-- A byte of plain lanes is given back by its activation bits (rule R100). -/
theorem lanesOfBits_activationBits {e : Byte} (he : PlainLanes e) : lanesOfBits (activationBits e) = e := by
  refine BitVec.eq_of_getLsbD_eq fun n hn => ?_
  rw [getLsbD_lanesOfBits _ hn, getLsbD_activationBits e (by omega)]
  rcases Nat.mod_two_eq_zero_or_one n with heven | hodd
  · rw [decide_eq_true heven, Bool.true_and, Nat.mul_div_cancel' (Nat.dvd_of_mod_eq_zero heven)]
  · rw [plainLanes_iff.1 he n hn hodd, decide_eq_false (by omega), Bool.false_and]

/-- `compact` takes two output bytes to one plane byte, the first in the low nibble (rule R100). -/
theorem compact_cons_cons (e f : Byte) (o : Row) :
    compact (e :: f :: o) = (activationBits f ++ activationBits e) :: compact o := by
  have hlen : (e :: f :: o).length / 2 = o.length / 2 + 1 := by simp only [List.length_cons]; omega
  rw [compact, hlen, List.range_succ_eq_map, List.map_cons, List.map_map]
  rfl

/-- `expand` takes one plane byte to two output bytes, the low nibble first (rule R100). -/
theorem expand_cons (g h : BitVec 4) (q : Row) :
    expand ((g ++ h) :: q) = lanesOfBits h :: lanesOfBits g :: expand q := by
  have hlow : (g ++ h).extractLsb' 0 4 = h := BitVec.extractLsb'_append_eq_right
  have hhigh : (g ++ h).extractLsb' 4 4 = g := BitVec.extractLsb'_append_eq_left
  simp [expand, hlow, hhigh]

/-- A row of plain lanes is expanded back from its compaction (rule R100). -/
theorem expand_compact : ∀ {o : Row}, o.length % 2 = 0 → (∀ e ∈ o, PlainLanes e) → expand (compact o) = o
  | [], _, _ => rfl
  | [_], hlen, _ => by simp at hlen
  | e :: f :: o, hlen, hplain => by
    simp only [List.forall_mem_cons] at hplain
    obtain ⟨he, hf, ho⟩ := hplain
    have ih : expand (compact o) = o := expand_compact (by simp only [List.length_cons] at hlen; omega) ho
    rw [compact_cons_cons, expand_cons, lanesOfBits_activationBits he, lanesOfBits_activationBits hf, ih]

/-- A byte translated through a table of four bits per pixel has plain lanes (rules R82, R93). -/
theorem plainLanes_preByte (k : Nat) (m : Memory) (a : Word) (bd : BitDepth) (x w c : Nat) :
    PlainLanes (preByte (compiledLut .four k) m a bd x w c) := by
  refine plainLanes_iff.2 fun n _ hodd => ?_
  obtain ⟨j, rfl⟩ : ∃ j, n = 2 * j + 1 := ⟨n / 2, by omega⟩
  unfold preByte
  split
  · exact BitVec.getLsbD_zero
  · rw [read_compiledLut, BitVec.getLsbD_and, lutEntry, getLsbD_lut4_odd, Bool.false_and]

/-- Every byte of an image row at four bits per pixel has plain lanes (rules R82, R96). -/
theorem plainLanes_of_mem_imageRow {cfg : Cfg} {k : Nat} {m : Memory} {r : Nat} {fb : Word} {bd : BitDepth} {x w : Nat}
    {e : Byte} (he : e ∈ imageRow cfg (compiledLut .four k) m r fb bd x w) : PlainLanes e := by
  obtain ⟨i, hi, rfl⟩ := List.mem_iff_getElem.1 he
  rw [← List.getD_eq_getElem _ 0 hi, getD_imageRow _ _ _ _ _ _ _ _ _ (by simpa using hi)]
  exact plainLanes_preByte k m _ bd x w _

/-- An image row at four bits per pixel is expanded back from its compaction (rules R96, R100). -/
theorem expand_compact_imageRow (cfg : Cfg) (k : Nat) (m : Memory) (r : Nat) (fb : Word) (bd : BitDepth) (x w : Nat) :
    expand (compact (imageRow cfg (compiledLut .four k) m r fb bd x w)) =
      imageRow cfg (compiledLut .four k) m r fb bd x w := by
  have hwords := lineBytes_mod cfg
  exact expand_compact (by rw [length_imageRow]; omega) fun _ => plainLanes_of_mem_imageRow

end Sys2Proof.Machine
end

section
/-! What `ENCODE_UNARY` leaves in the plane store, and the replay of it (rules R45, R102 to R104). A store operation is
described by its cells, the pairs of an address and the byte it puts there; operations on disjoint cells compose. -/

namespace Sys2Proof.Machine

/-- `f` puts byte `v` at address `a` for exactly the cells `C a v`: it keeps the canonical form, every cell reads back, and
every address without a cell reads as before. -/
structure Stores (C : Nat → Byte → Prop) (f : Memory → Memory) : Prop where
  wf : ∀ {pln}, Memory.wf pln → Memory.wf (f pln)
  read_cell : ∀ {pln a v}, Memory.wf pln → C a v → plnRead (f pln) a = v
  read_other : ∀ {pln a}, Memory.wf pln → (∀ v, ¬ C a v) → plnRead (f pln) a = plnRead pln a

/-- Stores one after another whose addresses are disjoint put the cells of all of them. -/
theorem Stores.foldl_range {C : Nat → Nat → Byte → Prop} {f : Nat → Memory → Memory} {n : Nat}
    (hf : ∀ j < n, Stores (C j) (f j))
    (hdisj : ∀ i j a v v', i < j → j < n → C i a v → ¬ C j a v') :
    Stores (fun a v => ∃ j < n, C j a v) (fun pln => (List.range n).foldl (fun q j => f j q) pln) := by
  induction n with
  | zero => exact ⟨id, fun _ ⟨j, hj, _⟩ => absurd hj (Nat.not_lt_zero j), fun _ _ => rfl⟩
  | succ n ih =>
    have before := ih (fun j hj => hf j (by omega)) fun i j a v v' hij hj => hdisj i j a v v' hij (by omega)
    have last := hf n (by omega)
    simp only [List.range_succ, List.foldl_append, List.foldl_cons, List.foldl_nil]
    refine ⟨fun h => last.wf (before.wf h), fun {pln a v} h ⟨j, hj, hc⟩ => ?_, fun {pln a} h hno => ?_⟩
    · rcases Nat.lt_succ_iff_lt_or_eq.1 hj with hlt | rfl
      · rw [last.read_other (before.wf h) fun v' => hdisj j n a v v' hlt (by omega) hc]
        exact before.read_cell h ⟨j, hlt, hc⟩
      · exact last.read_cell (before.wf h) hc
    · rw [last.read_other (before.wf h) fun v hc => hno v ⟨n, by omega, hc⟩]
      exact before.read_other h fun v ⟨j, hj, hc⟩ => hno v ⟨j, by omega, hc⟩

/-- A number is formed in one way from a quotient and a remainder below the divisor. -/
theorem quotient_eq_of_mul_add_eq {n q c q' c' : Nat} (hc : c < n) (hc' : c' < n) (h : q * n + c = q' * n + c') :
    q = q' := by
  have hdiv : ∀ p d, d < n → (p * n + d) / n = p := fun p d hd => by
    rw [Nat.mul_comm, Nat.mul_add_div (by omega), Nat.div_eq_of_lt hd, Nat.add_zero]
  rw [← hdiv q c hc, h, hdiv q' c' hc']

/-- Two rows of the plane store share no address (rule R45). -/
theorem row_eq_of_plnIndex_eq {cfg : Cfg} {k r b k' r' b' : Nat} (hb : b < planeRowBytes cfg)
    (hb' : b' < planeRowBytes cfg) (h : plnIndex cfg k r b = plnIndex cfg k' r' b') :
    k * cfg.panelH + r = k' * cfg.panelH + r' :=
  quotient_eq_of_mul_add_eq hb hb' h

/-- Two planes of the plane store share no address (rule R45). -/
theorem plane_eq_of_plnIndex_eq {cfg : Cfg} {k r b k' r' b' : Nat} (hr : r < cfg.panelH) (hr' : r' < cfg.panelH)
    (hb : b < planeRowBytes cfg) (hb' : b' < planeRowBytes cfg) (h : plnIndex cfg k r b = plnIndex cfg k' r' b') :
    k = k' :=
  quotient_eq_of_mul_add_eq hr hr' (row_eq_of_plnIndex_eq hb hb' h)

/-- The plane row `ENCODE_UNARY` makes for plane `k`, row `r`: the compacted image row (rule R102). -/
def planeRow (cfg : Cfg) (m : Memory) (fb : Word) (k r : Nat) : Row :=
  compact (imageRow cfg (compiledLut .four k) m r fb .four 0 cfg.panelW)

theorem length_planeRow (cfg : Cfg) (m : Memory) (fb : Word) (k r : Nat) :
    (planeRow cfg m fb k r).length = planeRowBytes cfg := by
  have hhalf := two_mul_planeRowBytes cfg
  rw [planeRow, length_compact, length_imageRow]
  omega

/-- The cells of plane `k`, row `r` (rule R102): the bytes of its plane row at the row's indices. -/
def RowCell (cfg : Cfg) (m : Memory) (fb : Word) (k r a : Nat) (v : Byte) : Prop :=
  ∃ b < planeRowBytes cfg, a = plnIndex cfg k r b ∧ v = (planeRow cfg m fb k r).getD b 0

/-- Storing one plane row puts its cells (rule R102). -/
theorem stores_storePlaneRow (cfg : Cfg) (m : Memory) (fb : Word) (k r : Nat) :
    Stores (RowCell cfg m fb k r) (storePlaneRow cfg k r (planeRow cfg m fb k r)) := by
  refine ⟨fun {pln} h => ?_, fun {pln a v} h hc => ?_, fun {pln a} h hno => ?_⟩
  all_goals obtain ⟨hwf, hread, hother, -⟩ := storePlaneRow_spec cfg k r (planeRow cfg m fb k r) pln h
  · exact hwf
  · obtain ⟨b, hb, rfl, rfl⟩ := hc
    exact hread b hb
  · exact hother a fun b hb ha => hno _ ⟨b, hb, ha, rfl⟩

/-- Storing the first `n` rows of a plane puts the cells of these rows. -/
theorem stores_storeRows (cfg : Cfg) (m : Memory) (fb : Word) (k n : Nat) :
    Stores (fun a v => ∃ r < n, RowCell cfg m fb k r a v) (storeRows cfg m fb k n) := by
  refine Stores.foldl_range (fun r _ => stores_storePlaneRow cfg m fb k r) ?_
  rintro r r' a v v' hlt - ⟨b, hb, rfl, -⟩ ⟨b', hb', heq, -⟩
  have := row_eq_of_plnIndex_eq hb hb' heq
  omega

/-- Storing the first `n` planes puts the cells of all their rows. -/
theorem stores_storePlanes (cfg : Cfg) (m : Memory) (fb : Word) (n : Nat) :
    Stores (fun a v => ∃ k < n, ∃ r < cfg.panelH, RowCell cfg m fb k r a v) (storePlanes cfg m fb n) := by
  refine Stores.foldl_range (fun k _ => stores_storeRows cfg m fb k cfg.panelH) ?_
  rintro k k' a v v' hlt - ⟨r, hr, b, hb, rfl, -⟩ ⟨r', hr', b', hb', heq, -⟩
  have := plane_eq_of_plnIndex_eq hr hr' hb hb' heq
  omega

/-- `ENCODE_UNARY` with `ALLOC_OK = 1` as one equation (rule R102): the fifteen planes stored, the LUT left as
`compile(14, 4)`. -/
theorem exec_encodeUnary {s : State} (fb : Word) (halloc : s.allocOk = true) :
    exec (.encodeUnary fb) s = .next { s with
      pln := storePlanes s.cfg s.mem fb 15 s.pln, lut := compiledLut .four 14, lutValid := true, lutK := 14, lutBd := 4
      err := .ok, busy := false, pass := 0, k := 0, row := 0 } := by
  obtain ⟨row, hrun⟩ := runMicros_encodePlanes s fb 14
  have hexec : exec (.encodeUnary fb) s = .next (checkAndRun (allocError s.allocOk) (encodeOps s.cfg fb) s) := rfl
  have hcheck : allocError s.allocOk = none := by rw [halloc]; rfl
  rw [hexec, hcheck]
  exact congrArg (fun u => Host.Outcome.next (endWith .ok u)) hrun

/-- A row of the stored planes is replayed as the image row it was made from (rules R100, R102, R103). -/
theorem unaryRow_storePlanes (cfg : Cfg) (m : Memory) (fb : Word) {pln : Memory} (hpln : Memory.wf pln) {n k r : Nat}
    (hk : k < n) (hr : r < cfg.panelH) :
    unaryRow cfg (storePlanes cfg m fb n pln) k r = imageRow cfg (compiledLut .four k) m r fb .four 0 cfg.panelW := by
  have hplane : ((List.range (planeRowBytes cfg)).map fun b =>
      plnRead (storePlanes cfg m fb n pln) (plnIndex cfg k r b)) = planeRow cfg m fb k r := by
    refine List.ext_getElem (by simp [length_planeRow]) fun b hb hb' => ?_
    rw [List.getElem_map, List.getElem_range, ← List.getD_eq_getElem _ 0 hb']
    exact (stores_storePlanes cfg m fb n).read_cell hpln ⟨k, hk, r, hr, b, by simpa using hb, rfl, rfl⟩
  rw [unaryRow, hplane, planeRow, expand_compact_imageRow]

/-- Settles O31: the planes `ENCODE_UNARY` stored, replayed. -/
theorem replayedRowsAreImageRows : Obligations.ReplayedRowsAreImageRows := by
  intro s t fb k r hpln halloc hexec hk hr
  rw [exec_encodeUnary fb halloc, Host.Outcome.next.injEq] at hexec
  subst hexec
  exact unaryRow_storePlanes s.cfg s.mem fb hpln hk hr

end Sys2Proof.Machine
end

section
/-! The row pipeline (rules R111, R112, R115): `output_row`, `skip_row` with its counter at any value, and a run of skips from a
zero counter in closed form. -/

namespace Sys2Proof.Machine

/-- Settles O32: the order of the two statements of rule R111 does not show in the state. -/
theorem outputRowCommits : Obligations.OutputRowCommits := fun d s => outputRow_eq d s

/-- The skip counter counts up to `0xFFFF` and stays there (rule R112). -/
theorem countSkip_eq_min (s : State) :
    countSkip s = setSkipping (BitVec.ofNat 16 (min (s.skipping.toNat + 1) 0xFFFF)) s := by
  have hlt := s.skipping.isLt
  by_cases hsat : s.skipping = 0xFFFF
  · rw [countSkip, if_pos hsat, hsat]
    rfl
  · have hne : s.skipping.toNat ≠ 0xFFFF := fun h => hsat (BitVec.eq_of_toNat_eq h)
    rw [countSkip_eq s.skipping.toNat s (by omega) (by simp), Nat.min_eq_left (by omega)]

/-- The events of `skip_row` depend on the counter alone: three while it is below 2, one from then on (rule R112). -/
theorem skipRow_eq_countSkip (s : State) : skipRow s = countSkip (emitted (skipEvents s.cfg s.skipping.toNat) s) := by
  by_cases hslow : s.skipping.toNat < 2
  · simp only [skipRow, skipEvents, if_pos hslow, slowSkip, busyWait, emit_eq_emitted, emitted_emitted]
    rfl
  · simp only [skipRow, skipEvents, if_neg hslow, emit_eq_emitted]

/-- Settles O33, by what `skip_row` emits and what the counter then is. -/
theorem skipRowIsSlowThenFast : Obligations.SkipRowIsSlowThenFast := by
  intro s es
  have hes : skipEvents s.cfg s.skipping.toNat = es := rfl
  rw [skipRow_eq_countSkip, countSkip_eq_min, hes]
  simp only [emitted, played, setSkipping, eventsOf_unstamped]

/-- A run of skips grows by the skip of its number (rule R115). -/
theorem skipRunEvents_succ (cfg : Cfg) (m : Nat) : skipRunEvents cfg (m + 1) = skipRunEvents cfg m ++ skipEvents cfg m := by
  rw [← skipEvents_run, ← skipEvents_run, List.range_succ, List.flatMap_append, List.flatMap_singleton]

/-- A run of `m` skips from a zero counter (rule R115), in closed form: one run of events and the counter at `m`. -/
theorem runMicros_skipRun {m : Nat} {s : State} (h0 : s.skipping = 0) (hm : m ≤ 65535) :
    runMicros (List.replicate m .skipRow) s = setSkipping (BitVec.ofNat 16 m) (emitted (skipRunEvents s.cfg m) s) := by
  induction m with
  | zero =>
    have hsame : setSkipping s.skipping s = s := rfl
    simpa [skipRunEvents, emitted, h0] using hsame.symm
  | succ m ih =>
    rw [List.replicate_succ', runMicros_append, ih (by omega), runMicros_cons, runMicros_nil, doMicro,
      skipRow_eq m _ (by omega) rfl, skipRunEvents_succ, ← emitted_emitted]
    rfl

/-- Settles O34, from the closed form of a run. -/
theorem skipRunHasTwoSlowSkips : Obligations.SkipRunHasTwoSlowSkips := by
  refine ⟨fun m s h0 hm => ⟨_, runMicros_skipRun h0 hm, ?_, ?_⟩, fun d s => ⟨rfl, rfl⟩⟩
  · rw [setSkipping_skipping, BitVec.toNat_ofNat, Nat.mod_eq_of_lt (by omega)]
  · rw [setSkipping_trace, emitted, played_trace, eventsOf_append, eventsOf_unstamped, List.append_assoc]
    rfl

end Sys2Proof.Machine
end

section
/-! Traces are whole frames (rule R119): the run stage of every command adds the frames of the command, and an error ending adds
nothing. -/

namespace Sys2Proof.Machine

/-- From `s` to `t` the trace grew by `n` whole frames and nothing else (rule R119). -/
def AddsFrames (n : Nat) (s t : State) : Prop :=
  ∃ frames, eventsOf t.trace = eventsOf s.trace ++ List.flatten frames ∧ (∀ f ∈ frames, IsFrame s.cfg f)
    ∧ frames.length = n

/-- A state with the same trace has no frame more. -/
theorem addsFrames_zero {s t : State} (h : t.trace = s.trace) : AddsFrames 0 s t := ⟨[], by simp [h], by simp, rfl⟩

/-- A loop whose every pass plays one frame adds as many frames as it has passes. -/
theorem addsFrames_played {s u : State} {n : Nat} {tr : Nat → List Emitted} (hu : u.trace = s.trace)
    (hframe : ∀ m, IsFrame s.cfg (eventsOf (tr m))) : AddsFrames n s (played ((List.range n).flatMap tr) u) := by
  refine ⟨(List.range n).map fun m => eventsOf (tr m), ?_, fun f hf => ?_, by simp⟩
  · rw [played_trace, hu, eventsOf_append, ← List.flatMap_def]
    exact congrArg _ List.map_flatMap
  · obtain ⟨m, -, rfl⟩ := List.mem_map.1 hf
    exact hframe m

/-- The run stage of every command adds as many frames as the command has (rule R119), from any sequencer position. -/
theorem addsFrames_runOps (i : Instr) (s : State) : AddsFrames (framesOf i) s (runMicros (runOps s.cfg i) s) := by
  have hpass : s.pass = BitVec.ofNat 5 s.pass.toNat := by simp
  have hk : s.k = BitVec.ofNat 4 s.k.toNat := by simp
  cases i with
  | lutCompile k bd =>
    refine addsFrames_zero ?_
    cases hbd : bitDepthOf bd with
    | none => simp only [runOps, hbd, runMicros_nil]
    | some dep => simp only [runOps, hbd, runMicros_compile]
  | drawImage x y w h fb bd =>
    cases hbd : bitDepthOf bd with
    | none =>
      simp only [framesOf, runOps, hbd, runMicros_nil]
      exact addsFrames_zero rfl
    | some dep =>
      simp only [framesOf, runOps, hbd, runMicros_imageOps s _ fb dep _ hpass]
      exact addsFrames_played (imageRegs_trace ..) fun _ =>
        isFrame_frameTrace _ _ _ _ _ fun _ _ => isRow_imageRowEvents ..
  | drawSolidByte x y w h d b =>
    simp only [framesOf, runOps, runMicros_patternFrameOps s _ d b _ _ hpass hk]
    have hframe := isFrame_frameTrace s.cfg s.pass.toNat s.k.toNat _ d fun r _ =>
      isRow_patternRowEvents s.cfg (rectOf x y w h) d b r
    exact ⟨[_], by simp, List.forall_mem_singleton.2 hframe, rfl⟩
  | clear x y w h =>
    simp only [framesOf, runOps, runMicros_clearOps s _ _ hk]
    exact addsFrames_played (clearRegs_trace ..) fun _ =>
      isFrame_frameTrace _ _ _ _ _ fun _ _ => isRow_patternRowEvents ..
  | encodeUnary fb =>
    obtain ⟨row, hrun⟩ := runMicros_encodePlanes s fb 14
    refine addsFrames_zero ?_
    rw [runOps, encodeOps, hrun]
  | drawUnary =>
    simp only [framesOf, runOps, runMicros_unaryOps s _ hpass]
    exact addsFrames_played (unaryRegs_trace ..) fun _ =>
      isFrame_frameTrace _ _ _ _ _ fun _ _ => isRow_unaryRowEvents ..

/-- Settles O43: the checks pass and the run stage adds the command's frames, or an error ends the command and adds none. -/
theorem tracesAreWholeFrames : Obligations.TracesAreWholeFrames := by
  intro i s
  rcases exec_cases i s with ⟨hpasses, hexec⟩ | ⟨e, hdue, hexec⟩
  · obtain ⟨frames, htrace, hframes, hcount⟩ := addsFrames_runOps i s
    exact ⟨_, frames, hexec, htrace, hframes, fun _ => hcount, fun hno => absurd hpasses hno⟩
  · exact ⟨_, [], hexec, by simp [afterError], by simp, fun hp => absurd hp (not_passes_of_errorDue hdue), fun _ => rfl⟩

end Sys2Proof.Machine
end

section
/-! The unary replay against the full-panel image (rule R134): where the planes hold an image's rows, `DRAW_UNARY` runs as the
`DRAW_IMAGE` of the whole panel at 4 bits per pixel does, but for the LUT, which only the image path compiles. -/

namespace Sys2Proof.Machine

/-- Every row of the plane store of `u` is replayed as the full-width row of the image at `fb` (rules R102, R103). -/
def HoldsImage (u : State) (fb : Word) : Prop :=
  ∀ k < 15, ∀ r < u.cfg.panelH,
    unaryRow u.cfg u.pln k r = imageRow u.cfg (compiledLut .four k) u.mem r fb .four 0 u.cfg.panelW

/-- `b` with the LUT and its tag as they are in `u`. -/
def withLutOf (u b : State) : State := { b with lut := u.lut, lutValid := u.lutValid, lutK := u.lutK, lutBd := u.lutBd }

@[simp] theorem withLutOf_trace (u b : State) : (withLutOf u b).trace = b.trace := rfl

/-- The ending of a command does not touch the LUT. -/
theorem endWith_withLutOf (e : ErrCode) (u b : State) : endWith e (withLutOf u b) = withLutOf u (endWith e b) := rfl

/-- Emitting events does not touch the LUT. -/
theorem played_withLutOf (es : List Emitted) (u b : State) : played es (withLutOf u b) = withLutOf u (played es b) := rfl

/-- Two states with one table and tag have each other's LUT already. -/
theorem withLutOf_eq_self {u b : State} (hlut : b.lut = u.lut) (hvalid : b.lutValid = u.lutValid) (hk : b.lutK = u.lutK)
    (hbd : b.lutBd = u.lutBd) : withLutOf u b = b := by
  rw [withLutOf, ← hlut, ← hvalid, ← hk, ← hbd]

/-- The registers the two paths leave after their fifteen frames differ in the LUT alone (rules R126, R133). -/
theorem unaryRegs_eq_withLutOf (u : State) : unaryRegs u 15 = withLutOf u (imageRegs u .four 15) := rfl

/-- `ENCODE_UNARY` writes neither `CFG` nor `MEM` (rule R102). -/
theorem encodeUnary_keeps_cfg_mem {s t : State} {fb : Word} (halloc : s.allocOk = true)
    (hexec : exec (.encodeUnary fb) s = .next t) : t.cfg = s.cfg ∧ t.mem = s.mem := by
  rw [exec_encodeUnary fb halloc, Host.Outcome.next.injEq] at hexec
  subst hexec
  exact ⟨rfl, rfl⟩

/-- `ENCODE_UNARY` makes the planes hold its image, for every later state with the same `CFG`, `PLN` and `MEM`. -/
theorem holdsImage_of_encodeUnary {s t u : State} {fb : Word} (hpln : Memory.wf s.pln) (halloc : s.allocOk = true)
    (hexec : exec (.encodeUnary fb) s = .next t) (hcfg : u.cfg = t.cfg) (hplane : u.pln = t.pln) (hmem : u.mem = t.mem) :
    HoldsImage u fb := by
  intro k hk r hr
  obtain ⟨hcfg', hmem'⟩ := encodeUnary_keeps_cfg_mem halloc hexec
  have hrows := replayedRowsAreImageRows s t fb k r hpln halloc hexec hk
  rw [← hcfg'] at hrows
  rw [hcfg] at hr ⊢
  rw [hplane, hmem, hmem', hrows hr]

/-- The full-panel operands are the panel's rect: the panel's sides fit their fields (rules R4, R62). -/
theorem rectOf_panel (cfg : Cfg) : rectOf 0 0 (.ofNat 16 cfg.panelW) (.ofNat 16 cfg.panelH) = panelRect cfg := by
  have hw : (BitVec.ofNat 16 cfg.panelW).toNat = cfg.panelW := Nat.mod_eq_of_lt (panelW_lt cfg)
  have hh : (BitVec.ofNat 16 cfg.panelH).toNat = cfg.panelH :=
    Nat.mod_eq_of_lt (Nat.lt_succ_of_le (panelH_le cfg))
  rw [rectOf, panelRect, Rect.mk.injEq]
  exact ⟨rfl, rfl, hw, hh⟩

/-- The panel's rect lies within the panel (rule R154). -/
theorem rectError_panelRect (cfg : Cfg) : rectError cfg (panelRect cfg) = none :=
  rectError_none ⟨(Nat.zero_add _).le, (Nat.zero_add _).le⟩

/-- The full-panel image at 4 bits per pixel has the check of `DRAW_UNARY`, that of `ALLOC_OK`, and no other (rule R151). -/
theorem exec_drawImage_panel (u : State) (fb : Word) :
    exec (.drawImage 0 0 (.ofNat 16 u.cfg.panelW) (.ofNat 16 u.cfg.panelH) fb 4) u =
      .next (checkAndRun (allocError u.allocOk) (imageOps u.cfg (panelRect u.cfg) fb .four) u) := by
  have hdepth : bitDepthOf 4 = some .four := rfl
  simp only [exec, execDrawImage, hdepth, rectOf_panel, rectError_panelRect, Option.none_or]

/-- No row of the panel is outside the panel's rect, so each is output (rule R129). -/
theorem imageRowEvents_panelRect {cfg : Cfg} (m : Memory) (fb : Word) (k : Nat) {r : Nat} (hr : r < cfg.panelH) :
    imageRowEvents cfg m (panelRect cfg) fb .four k r =
      [.bufWrite (imageRow cfg (compiledLut .four k) m r fb .four 0 cfg.panelW), .commitRow (contrast cfg .four k)] := by
  have hin : rowInside (panelRect cfg) r = true := by simpa [rowInside, panelRect] using hr
  rw [imageRowEvents, if_pos hin, panelRect]

/-- A frame is determined by the events of the panel's rows. -/
theorem frameTrace_congr {cfg : Cfg} (p k : Nat) {ev ev' : Nat → List Event} (d : Half)
    (h : ∀ r < cfg.panelH, ev r = ev' r) : frameTrace cfg p k ev d = frameTrace cfg p k ev' d := by
  rw [frameTrace, frameTrace, flatMap_range_congr _ _ _ fun r hr => congrArg (List.map (stamp p k r)) (h r hr)]

/-- A frame of the replay is the frame of the image the planes hold (rule R134). -/
theorem unaryFrameTrace_eq_image {u : State} {fb : Word} (h : HoldsImage u fb) (p : Nat) {k : Nat} (hk : k < 15) :
    unaryFrameTrace u.cfg u.pln p k = imageFrameTrace u.cfg u.mem (panelRect u.cfg) fb .four p k := by
  refine frameTrace_congr p k _ fun r hr => ?_
  rw [h k hk r hr, imageRowEvents_panelRect u.mem fb k hr]

/-- The run stages of the two commands, from one state that holds the image (rules R126, R133, R134). -/
theorem runMicros_unaryOps_eq_image {u : State} {fb : Word} (h : HoldsImage u fb) :
    runMicros (unaryOps u.cfg) u = withLutOf u (runMicros (imageOps u.cfg (panelRect u.cfg) fb .four) u) := by
  have hpass : u.pass = BitVec.ofNat 5 u.pass.toNat := by simp
  have hframes : frameCount .four = 15 := rfl
  rw [runMicros_unaryOps u _ hpass, runMicros_imageOps u _ fb .four _ hpass, hframes,
    flatMap_range_congr 15 _ _ fun k hk => unaryFrameTrace_eq_image h u.pass.toNat hk, unaryRegs_eq_withLutOf,
    played_withLutOf]

/-- The two commands after the same check: an error ends both alike, or both run (rules R125, R134). -/
theorem checkAndRun_unaryOps_eq_image {u : State} {fb : Word} (h : HoldsImage u fb) (error : Option ErrCode) :
    checkAndRun error (unaryOps u.cfg) u =
      withLutOf u (checkAndRun error (imageOps u.cfg (panelRect u.cfg) fb .four) u) := by
  cases error with
  | some e => rfl
  | none => rw [checkAndRun, checkAndRun, runMicros_unaryOps_eq_image h, endWith_withLutOf]

/-- The LUT and tag that an image at 4 bits per pixel and `ENCODE_UNARY` leave: `compile(14, 4)` (rules R85, R102, R126). -/
def LastTable (u : State) : Prop := u.lut = compiledLut .four 14 ∧ u.lutValid = true ∧ u.lutK = 14 ∧ u.lutBd = 4

/-- `ENCODE_UNARY` compiles last for frame 14 (rule R102). -/
theorem lastTable_of_encodeUnary {s t : State} {fb : Word} (halloc : s.allocOk = true)
    (hexec : exec (.encodeUnary fb) s = .next t) : LastTable t := by
  rw [exec_encodeUnary fb halloc, Host.Outcome.next.injEq] at hexec
  subst hexec
  exact ⟨rfl, rfl, rfl, rfl⟩

/-- The image path compiles last for frame 14 (rule R126). -/
theorem lastTable_runMicros_imageOps (u : State) (rc : Rect) (fb : Word) :
    LastTable (runMicros (imageOps u.cfg rc fb .four) u) := by
  rw [runMicros_imageOps u rc fb .four u.pass.toNat (by simp)]
  exact ⟨rfl, rfl, rfl, rfl⟩

/-- A full-panel image leaves the LUT as it was where it held the last table, on an error as on a normal end. -/
theorem withLutOf_checkAndRun_imageOps {u : State} (hu : LastTable u) (error : Option ErrCode) (rc : Rect) (fb : Word) :
    withLutOf u (checkAndRun error (imageOps u.cfg rc fb .four) u) = checkAndRun error (imageOps u.cfg rc fb .four) u := by
  cases error with
  | some e => rfl
  | none =>
    obtain ⟨hlut, hvalid, hk, hbd⟩ := hu
    obtain ⟨hlut', hvalid', hk', hbd'⟩ := lastTable_runMicros_imageOps u rc fb
    rw [checkAndRun, ← endWith_withLutOf, withLutOf_eq_self (hlut'.trans hlut.symm) (hvalid'.trans hvalid.symm)
      (hk'.trans hk.symm) (hbd'.trans hbd.symm)]

/-- Settles O40: both commands pass the same check, then their run stages agree but for the LUT, which `ENCODE_UNARY` has left
as the image path does. -/
theorem replayEqualsFullPanelImage : Obligations.ReplayEqualsFullPanelImage := by
  intro s t u fb hpln halloc hexec hcfg hplane hmem
  have hcfg' : u.cfg = s.cfg := hcfg.trans (encodeUnary_keeps_cfg_mem halloc hexec).1
  have heq := checkAndRun_unaryOps_eq_image (holdsImage_of_encodeUnary hpln halloc hexec hcfg hplane hmem)
    (allocError u.allocOk)
  refine ⟨_, _, rfl, hcfg' ▸ exec_drawImage_panel u fb, by rw [heq, withLutOf_trace], heq, fun hut => ?_⟩
  have hlast : LastTable u := hut ▸ lastTable_of_encodeUnary halloc hexec
  rw [heq, withLutOf_checkAndRun_imageOps hlast]

end Sys2Proof.Machine
end

section
/-! The recipe of `CLEAR` by groups of three passes (rule R146): the byte of a pass depends on the parity of its group alone, and
its duration on whether that group is the first. -/

namespace Sys2Proof.Machine

/-- The byte and duration of group `g` of the recipe (rule R146), tied to the recipe by `recipe_eq_recipeGroup`. -/
def recipeGroup (cfg : Cfg) (g : Nat) : Byte × Half :=
  (if g % 2 = 0 then darkByte else clearByte, if g = 0 then cfg.darkTime else cfg.clearTime)

/-- The three passes of a group share one byte and one duration. -/
theorem recipe_eq_recipeGroup (cfg : Cfg) (g : Nat) {i : Nat} (hi : i < 3) :
    (recipeByte (3 * g + i), recipeDuration cfg (3 * g + i)) = recipeGroup cfg g := by
  have hgroup : (3 * g + i) / 3 = g := by omega
  have hfirst : 3 * g + i < 3 ↔ g = 0 := by omega
  simp only [recipeByte, recipeDuration, recipeGroup, hgroup, hfirst]

/-- The recipe's first `n` groups, each of its entries three times. -/
theorem map_recipe_range_three_mul (cfg : Cfg) (n : Nat) :
    (List.range (3 * n)).map (fun p => (recipeByte p, recipeDuration cfg p)) =
      (List.range n).flatMap fun g => List.replicate 3 (recipeGroup cfg g) := by
  induction n with
  | zero => rfl
  | succ n ih =>
    have hlast : (List.range 3).map (fun i => (recipeByte (3 * n + i), recipeDuration cfg (3 * n + i))) =
        List.replicate 3 (recipeGroup cfg n) :=
      List.map_eq_replicate_iff.2 fun i hi => recipe_eq_recipeGroup cfg n (List.mem_range.1 hi)
    rw [Nat.mul_succ, List.range_add, List.map_append, ih, List.map_map, List.range_succ (n := n), List.flatMap_append,
      List.flatMap_singleton, ← hlast]
    rfl

/-- Settles O42: the 18 passes are six groups of three, dark and clear in turn, the first with `DARK_TIME`. -/
theorem recipeTable : Obligations.RecipeTable := by
  intro cfg
  have hgroups : (List.range 6).map (recipeGroup cfg) =
      [(0x55, cfg.darkTime), (0xAA, cfg.clearTime), (0x55, cfg.clearTime), (0xAA, cfg.clearTime),
        (0x55, cfg.clearTime), (0xAA, cfg.clearTime)] := rfl
  rw [map_recipe_range_three_mul cfg 6, ← List.flatMap_map, hgroups]
  rfl

end Sys2Proof.Machine
end

section
/-! Exceptional outcomes (rules R151 to R153): from an idle block an error ending writes `DESC` and `ERR` only, whichever check
raised it, and the error raised is the first one due; a command with no error due ends with `OK`. -/

namespace Sys2Proof.Machine

/-- Settles O17: no micro-operation raises an error, and the ending after the run stage writes `OK`. -/
theorem passingCommandReportsOk : Obligations.PassingCommandReportsOk := fun _ _ hpasses =>
  ⟨_, exec_of_passes hpasses, endWith_err ..⟩

/-- An error ending takes back the `BUSY` of the accept and zeroes a position that is 0 in an idle block, so that the latched
descriptor, the port, the sampled `ALLOC_OK` and `ERR` are all that is left of the command (rules R61, R152). -/
theorem afterError_accept_of_idle {s : State} (hidle : Idle s) (p : Presented) (rest : List Presented) (e : ErrCode) :
    afterError e (accept p { s with port := rest }) =
      { s with port := rest, desc := p.data, allocOk := p.allocOk, err := e } := by
  obtain ⟨hbusy, -, hpass, hk, hrow⟩ := hidle
  simp only [afterError, accept, hbusy, hpass, hk, hrow]

section
variable {s : State} {p : Presented} {rest : List Presented} (hidle : Idle s) (hport : s.port = p :: rest)
include hidle hport

/-- A step on an illegal descriptor ends in `ERR_OPCODE` (rules R66, R152). -/
theorem step_of_illegal {e : Illegal} (hdecode : decode p.data = .error e) :
    step s = .next { s with port := rest, desc := p.data, allocOk := p.allocOk, err := .opcode } := by
  rw [step_of_presented hidle.1 hport, runDescriptor, hdecode, ← afterError_accept_of_idle hidle]
  rfl

/-- A step on a command with an error due ends in that error (rules R151, R152). -/
theorem step_of_errorDue {i : Instr} {e : ErrCode} (hdecode : decode p.data = .ok i)
    (hdue : ErrorDue i (accept p { s with port := rest }) e) :
    step s = .next { s with port := rest, desc := p.data, allocOk := p.allocOk, err := e } := by
  rw [step_of_presented hidle.1 hport, runDescriptor, hdecode, ← afterError_accept_of_idle hidle]
  exact exec_of_errorDue hdue
end

/-- Settles O16: an illegal descriptor before any check, then the clauses of `ErrorDue` in the order of rule R151; the checks see
the configuration of `s` and the `ALLOC_OK` of `p`. -/
theorem firstErrorIsReported : Obligations.FirstErrorIsReported := by
  intro s p rest hidle hport
  refine ⟨fun ⟨_, hillegal⟩ => step_of_illegal hidle hport hillegal, fun i hdecode => ?_⟩
  have ends {e : ErrCode} := step_of_errorDue (e := e) hidle hport hdecode
  exact ⟨fun hdepth => ends (.bitDepth hdepth),
    fun hdepth hframe => ends (.frame hdepth hframe),
    fun hdepth hframe hrect => ends (.rect hdepth hframe hrect),
    fun hdepth hframe hrect halloc => ends (.noMem hdepth hframe hrect halloc)⟩

end Sys2Proof.Machine
end

section
/-! Noninterference between commands (rule R173): the trace a command adds and the planes it leaves are functions of `CFG`, the
two memories and the sequencer position, so that no register of an earlier command reaches them. -/

namespace Sys2Proof.Machine

/-- The trace the run stage of a command adds (rules R102, R126, R133, R141, R145), tied to the model by `leaves_runOps`. -/
def runTrace (cfg : Cfg) (mem pln : Memory) (p k : Nat) : Instr → List Emitted
  | .lutCompile _ _ => []
  | .drawImage x y w h fb bd => match bitDepthOf bd with
    | some dep => (List.range (frameCount dep)).flatMap (imageFrameTrace cfg mem (rectOf x y w h) fb dep p)
    | none => []
  | .drawSolidByte x y w h d b => frameTrace cfg p k (patternRowEvents cfg (rectOf x y w h) d b) d
  | .clear x y w h => (List.range 18).flatMap (clearPassTrace cfg (rectOf x y w h) k)
  | .encodeUnary _ => []
  | .drawUnary => (List.range 15).flatMap (unaryFrameTrace cfg pln p)

/-- The plane store the run stage of a command leaves (rules R28, R102), tied to the model by `leaves_runOps`. -/
def runPlanes (cfg : Cfg) (mem pln : Memory) : Instr → Memory
  | .encodeUnary fb => storePlanes cfg mem fb 15 pln
  | _ => pln

/-- `t` is `s` after the events `es`, with plane store `pln`, whatever the registers. -/
def Leaves (es : List Emitted) (pln : Memory) (s t : State) : Prop :=
  t.trace = s.trace ++ es ∧ t.pln = pln ∧ t.periph = periphRun (eventsOf es) s.periph

/-- What a run stage that emits nothing does. -/
theorem leaves_nil {pln : Memory} {s t : State} (htrace : t.trace = s.trace) (hpln : t.pln = pln)
    (hperiph : t.periph = s.periph) : Leaves [] pln s t :=
  ⟨by rw [htrace, List.append_nil], hpln, hperiph⟩

/-- What a run stage that leaves `PLN` alone does, from its equation. -/
theorem leaves_played (es : List Emitted) {s u : State} (htrace : u.trace = s.trace) (hpln : u.pln = s.pln)
    (hperiph : u.periph = s.periph) : Leaves es s.pln s (played es u) :=
  ⟨by rw [played_trace, htrace], by rw [played_pln, hpln], by rw [played_periph, hperiph]⟩

/-- The run stage of every command: its trace and planes are functions of `CFG`, the memories and the position (rule R173). -/
theorem leaves_runOps (i : Instr) (s : State) :
    Leaves (runTrace s.cfg s.mem s.pln s.pass.toNat s.k.toNat i) (runPlanes s.cfg s.mem s.pln i) s
      (runMicros (runOps s.cfg i) s) := by
  have hpass : s.pass = BitVec.ofNat 5 s.pass.toNat := by simp
  have hk : s.k = BitVec.ofNat 4 s.k.toNat := by simp
  cases i with
  | lutCompile k bd =>
    cases hbd : bitDepthOf bd with
    | none =>
      simp only [runOps, hbd, runMicros_nil]
      exact leaves_nil rfl rfl rfl
    | some dep =>
      simp only [runOps, hbd, runMicros_compile]
      exact leaves_nil rfl rfl rfl
  | drawImage x y w h fb bd =>
    cases hbd : bitDepthOf bd with
    | none =>
      simp only [runOps, runTrace, hbd, runMicros_nil]
      exact leaves_nil rfl rfl rfl
    | some dep =>
      simp only [runOps, runTrace, hbd, runMicros_imageOps s _ fb dep _ hpass]
      exact leaves_played _ (imageRegs_trace ..) (imageRegs_pln ..) (imageRegs_periph ..)
  | drawSolidByte x y w h d b =>
    rw [runOps, runMicros_patternFrameOps s _ d b _ _ hpass hk]
    exact leaves_played _ rfl rfl rfl
  | clear x y w h =>
    rw [runOps, runMicros_clearOps s _ _ hk]
    exact leaves_played _ (clearRegs_trace ..) (clearRegs_pln ..) (clearRegs_periph ..)
  | encodeUnary fb =>
    obtain ⟨row, hrun⟩ := runMicros_encodePlanes s fb 14
    rw [runOps, encodeOps, hrun]
    exact leaves_nil rfl rfl rfl
  | drawUnary =>
    rw [runOps, runMicros_unaryOps s _ hpass]
    exact leaves_played _ (unaryRegs_trace ..) (unaryRegs_pln ..) (unaryRegs_periph ..)

/-- The check stage reads `CFG` and the sampled `ALLOC_OK` only (rule R151). -/
theorem ErrorDue.congr {i : Instr} {s u : State} {e : ErrCode} (hcfg : u.cfg = s.cfg) (halloc : u.allocOk = s.allocOk)
    (h : ErrorDue i s e) : ErrorDue i u e := by
  cases h with
  | bitDepth hdepth => exact .bitDepth hdepth
  | frame hdepth hframe => exact .frame hdepth hframe
  | rect hdepth hframe hrect => exact .rect hdepth hframe (hcfg ▸ hrect)
  | noMem hdepth hframe hrect hno => exact .noMem hdepth hframe (hcfg ▸ hrect) (halloc.trans hno)

/-- Settles O50: the two states have one configuration and one `ALLOC_OK`, hence the same error or none, and then the same trace
and planes by `leaves_runOps`. -/
theorem earlierCommandsLeaveNoMeaning : Obligations.EarlierCommandsLeaveNoMeaning := by
  intro i s lut valid bd k fill sk err desc per
  rcases exec_cases i s with ⟨hpasses, hexec⟩ | ⟨e, hdue, hexec⟩
  · refine ⟨_, _, hexec, exec_of_passes hpasses, ?_⟩
    obtain ⟨htrace, hpln, hperiph⟩ := leaves_runOps i s
    obtain ⟨htrace', hpln', hperiph'⟩ := leaves_runOps i { s with
      lut := lut, lutValid := valid, lutBd := bd, lutK := k, fillRow := fill, skipping := sk, err := err, desc := desc
      periph := per }
    exact ⟨htrace'.trans htrace.symm, hpln'.trans hpln.symm, rfl, fun hper =>
      hperiph'.trans ((congrArg _ hper).trans hperiph.symm)⟩
  · exact ⟨_, _, hexec, exec_of_errorDue (ErrorDue.congr (s := s) rfl rfl hdue), rfl, rfl, rfl, id⟩

end Sys2Proof.Machine
end

section
/-! Inside a command, at every look-up (rule R177): a property of the micro-operation that comes next and of the state it finds
is followed along a run; every frame that translates begins with its own compile, and nothing after the compile touches
the table, its tag or `K`. -/

namespace Sys2Proof.Machine

/-- `P` holds of every micro-operation of the list and of the state it finds in the run from `s`. -/
def AllAlong (P : Micro → State → Prop) : List Micro → State → Prop
  | [], _ => True
  | u :: us, s => P u s ∧ AllAlong P us (doMicro u s)

section
variable {P : Micro → State → Prop}

/-- What `AllAlong` says of the run stopped before its micro-operation number `n`. -/
theorem AllAlong.holdsAt {us : List Micro} {s : State} (h : AllAlong P us s) {n : Nat} {u : Micro} (hu : us[n]? = some u) :
    P u (runMicros (us.take n) s) := by
  induction us generalizing s n with
  | nil => simp at hu
  | cons v us ih =>
    obtain ⟨hv, hus⟩ := h
    cases n with
    | zero =>
      obtain rfl : v = u := by simpa using hu
      exact hv
    | succ n => exact ih hus (by simpa using hu)

theorem AllAlong.append {us vs : List Micro} {s : State} (hus : AllAlong P us s) (hvs : AllAlong P vs (runMicros us s)) :
    AllAlong P (us ++ vs) s := by
  induction us generalizing s with
  | nil => exact hvs
  | cons u us ih =>
    obtain ⟨hu, hus⟩ := hus
    exact ⟨hu, ih hus hvs⟩

/-- A loop whose body satisfies `P` from any state does so as a whole. -/
theorem AllAlong.flatMap {α : Type} {l : List α} {f : α → List Micro} (h : ∀ a ∈ l, ∀ t, AllAlong P (f a) t) (s : State) :
    AllAlong P (l.flatMap f) s := by
  induction l generalizing s with
  | nil => trivial
  | cons a l ih =>
    rw [List.flatMap_cons]
    exact (h a List.mem_cons_self s).append (ih (fun b hb => h b (List.mem_cons_of_mem _ hb)) _)

/-- A list whose every micro-operation satisfies `P` under an invariant and keeps it. -/
theorem AllAlong.of_invariant {I : State → Prop} {us : List Micro} {s : State} (hs : I s)
    (h : ∀ u ∈ us, ∀ t, I t → P u t ∧ I (doMicro u t)) : AllAlong P us s := by
  induction us generalizing s with
  | nil => trivial
  | cons u us ih =>
    obtain ⟨hu, hnext⟩ := h u List.mem_cons_self s hs
    exact ⟨hu, ih hnext fun v hv => h v (List.mem_cons_of_mem _ hv)⟩
end

/-- A micro-operation that neither uses the LUT nor writes it, its tag or `K`. -/
def neutral : Micro → Bool
  | .setK _ | .lutInvalidate | .lutFill _ _ | .lutTag _ _ | .writeImage _ _ _ _ _ | .storePlane _ _ _ => false
  | _ => true

/-- What rule R177 asks where `u` comes next in command `i`, in state `t`. -/
def LookupFinds (i : Instr) (u : Micro) (t : State) : Prop :=
  match u with
  | .writeImage _ _ bd _ _ => t.lutValid = true ∧ t.lutK = t.k ∧ t.lutBd = BitVec.ofNat 3 (depthBits bd)
      ∧ t.lut = compiledLut bd t.k.toNat ∧ depthOperand i = some (BitVec.ofNat 8 (depthBits bd))
  | .storePlane k _ _ => t.lutValid = true ∧ t.lutK = t.k ∧ t.lutBd = 4 ∧ t.lut = compiledLut .four k ∧ t.k.toNat = k
  | .lutFill _ _ => t.lutValid = false
  | _ => True

/-- A micro-operation that does not use the LUT asks nothing. -/
theorem lookupFinds_of_neutral (i : Instr) {u : Micro} (hu : neutral u = true) (t : State) : LookupFinds i u t := by
  cases u with
  | writeImage | storePlane | lutFill => cases hu
  | _ => trivial

/-- `K` is `k`, and the LUT holds the table of frame `k` at depth `bd` under its tag (rule R85). -/
def HoldsTable (bd : BitDepth) (k : Nat) (t : State) : Prop :=
  t.k = BitVec.ofNat 4 k ∧ t.lutValid = true ∧ t.lutK = BitVec.ofNat 4 k ∧ t.lutBd = BitVec.ofNat 3 (depthBits bd)
    ∧ t.lut = compiledLut bd k

/-- A compile establishes its table (rule R85). -/
theorem holdsTable_compile (bd : BitDepth) (k : Nat) (s : State) : HoldsTable bd k (runMicros (compileOps bd k) s) :=
  ⟨rfl, rfl, rfl, rfl, rfl⟩

/-- A compile writes the table under an invalid tag, its first micro-operation having cleared `LUT_VALID` (rules R85, R177). -/
theorem allAlong_compile (i : Instr) (bd : BitDepth) (k : Nat) (s : State) :
    AllAlong (LookupFinds i) (compileOps bd k) s :=
  ⟨trivial, trivial, rfl, trivial, trivial⟩

theorem HoldsTable.doMicro_neutral {bd : BitDepth} {k : Nat} {t : State} (h : HoldsTable bd k t) {u : Micro}
    (hu : neutral u = true) : HoldsTable bd k (doMicro u t) := by
  cases u with
  | skipRow =>
    obtain ⟨c, hskip⟩ := doMicro_skipRow t
    rw [hskip]
    exact h
  | setK | lutInvalidate | lutFill | lutTag | writeImage | storePlane => cases hu
  | _ => exact h

/-- The table in the LUT is the one `K` names, `K` having room for every frame index (rule R12). -/
theorem HoldsTable.lookup {bd : BitDepth} {k : Nat} {t : State} (h : HoldsTable bd k t) (hk : k < 16) :
    t.lutValid = true ∧ t.lutK = t.k ∧ t.lutBd = BitVec.ofNat 3 (depthBits bd) ∧ t.lut = compiledLut bd k ∧ t.k.toNat = k := by
  obtain ⟨hkreg, hvalid, hlutK, hlutBd, hlut⟩ := h
  exact ⟨hvalid, hlutK.trans hkreg.symm, hlutBd, hlut, by rw [hkreg]; exact Nat.mod_eq_of_lt hk⟩

/-- A legal depth operand is the number of bits per pixel it stands for (rule R155). -/
theorem eq_depthBits_of_bitDepthOf {a : Byte} {dep : BitDepth} (h : bitDepthOf a = some dep) :
    a = BitVec.ofNat 8 (depthBits dep) := by
  unfold bitDepthOf at h
  split_ifs at h with h2 h4
  · cases h; exact h2
  · cases h; exact h4

theorem frameCount_le (bd : BitDepth) : frameCount bd ≤ 15 := by cases bd <;> decide

/-- A frame with nothing before its scan consists of the micro-operations of its rows and neutral ones (rule R116). -/
theorem mem_frameOps_nil {cfg : Cfg} {rowOps : Nat → List Micro} {d : Half} {u : Micro}
    (h : u ∈ frameOps cfg [] rowOps d) : neutral u = true ∨ ∃ r, u ∈ rowOps r := by
  simp only [frameOps, List.nil_append, List.mem_append, List.mem_flatMap, List.mem_cons, List.not_mem_nil, or_false] at h
  rcases h with (hstart | ⟨r, -, hset | hr⟩) | hend
  · rcases hstart with rfl | rfl | rfl <;> exact .inl rfl
  · exact .inl (hset ▸ rfl)
  · exact .inr ⟨r, hr⟩
  · rcases hend with rfl | rfl | rfl <;> exact .inl rfl

/-- A frame follows an invariant `I` that its leading micro-operations establish and that its rows and the neutral ones keep. -/
theorem allAlong_frameOps {i : Instr} {I : State → Prop} {cfg : Cfg} {before : List Micro} {rowOps : Nat → List Micro}
    {d : Half} {s : State} (hbefore : AllAlong (LookupFinds i) before s) (hI : I (runMicros before s))
    (hneutral : ∀ u t, neutral u = true → I t → I (doMicro u t))
    (hrows : ∀ r, ∀ u ∈ rowOps r, neutral u = true ∨ ∀ t, I t → LookupFinds i u t ∧ I (doMicro u t)) :
    AllAlong (LookupFinds i) (frameOps cfg before rowOps d) s := by
  have hsplit : frameOps cfg before rowOps d = before ++ frameOps cfg [] rowOps d := by simp [frameOps]
  rw [hsplit]
  refine hbefore.append (.of_invariant hI fun u hu t ht => ?_)
  have hcases : neutral u = true ∨ ∀ t, I t → LookupFinds i u t ∧ I (doMicro u t) :=
    (mem_frameOps_nil hu).elim .inl fun ⟨r, hr⟩ => hrows r u hr
  rcases hcases with hu | hu
  · exact ⟨lookupFinds_of_neutral i hu t, hneutral u t hu ht⟩
  · exact hu t ht

/-- A frame without look-ups asks nothing. -/
theorem allAlong_frameOps_of_neutral {i : Instr} {cfg : Cfg} {before : List Micro} {rowOps : Nat → List Micro} {d : Half}
    {s : State} (hbefore : AllAlong (LookupFinds i) before s) (hrows : ∀ r, ∀ u ∈ rowOps r, neutral u = true) :
    AllAlong (LookupFinds i) (frameOps cfg before rowOps d) s :=
  allAlong_frameOps (I := fun _ => True) hbefore trivial (fun _ _ _ _ => trivial) fun r u hu => .inl (hrows r u hu)

/-- A pattern frame does not use the LUT (rules R141, R142). -/
theorem allAlong_patternFrameOps (i : Instr) (cfg : Cfg) (rc : Rect) (d : Half) (b : Byte) (s : State) :
    AllAlong (LookupFinds i) (patternFrameOps cfg rc d b) s := by
  refine allAlong_frameOps_of_neutral ⟨trivial, trivial⟩ fun r u hu => ?_
  unfold patternRowOps at hu
  split_ifs at hu <;> fin_cases hu <;> rfl

/-- A frame of the image path looks up in the table it compiled (rules R126, R177). -/
theorem allAlong_imageFrameOps {i : Instr} (cfg : Cfg) (rc : Rect) (fb : Word) {bd : BitDepth} {k : Nat} (d : Half) (s : State)
    (hdepth : depthOperand i = some (BitVec.ofNat 8 (depthBits bd))) (hk : k < 16) :
    AllAlong (LookupFinds i) (frameOps cfg (compileOps bd k) (imageRowOps cfg rc fb bd k) d) s := by
  refine allAlong_frameOps (allAlong_compile i bd k s) (holdsTable_compile bd k s) (fun u t hu ht => ht.doMicro_neutral hu)
    fun r u hu => ?_
  unfold imageRowOps at hu
  split_ifs at hu
  · rcases List.mem_pair.1 hu with rfl | rfl
    · refine .inr fun t ht => ⟨?_, ht⟩
      obtain ⟨hvalid, hlutK, hlutBd, hlut, hkreg⟩ := ht.lookup hk
      exact ⟨hvalid, hlutK, hlutBd, by rw [hkreg, hlut], hdepth⟩
    · exact .inl rfl
  · obtain rfl := List.mem_singleton.1 hu
    exact .inl rfl

/-- A plane of `ENCODE_UNARY` looks up in the table it compiled (rules R102, R177). -/
theorem allAlong_encodePlane (i : Instr) (cfg : Cfg) (fb : Word) {k : Nat} (hk : k < 16) (s : State) :
    AllAlong (LookupFinds i)
      (compileOps .four k ++ (List.range cfg.panelH).flatMap fun r => [.setRow r, .storePlane k r fb]) s := by
  refine (allAlong_compile i .four k s).append (.of_invariant (holdsTable_compile .four k s) fun u hu t ht => ?_)
  obtain ⟨r, -, hu⟩ := List.mem_flatMap.1 hu
  rcases List.mem_pair.1 hu with rfl | rfl
  · exact ⟨trivial, ht⟩
  · exact ⟨ht.lookup hk, ht⟩

/-- Every command, at every micro-operation of its run stage (rule R177). -/
theorem allAlong_runOps (i : Instr) (s : State) : AllAlong (LookupFinds i) (runOps s.cfg i) s := by
  cases i with
  | lutCompile k bd =>
    cases hbd : bitDepthOf bd with
    | none => simp only [runOps, hbd]; trivial
    | some dep => simpa only [runOps, hbd] using allAlong_compile _ dep k.toNat s
  | drawImage x y w h fb bd =>
    cases hbd : bitDepthOf bd with
    | none => simp only [runOps, hbd]; trivial
    | some dep =>
      simp only [runOps, hbd]
      refine .flatMap (fun k hk t => allAlong_imageFrameOps s.cfg _ fb _ t ?_ ?_) s
      · exact congrArg some (eq_depthBits_of_bitDepthOf hbd)
      · have := List.mem_range.1 hk
        have := frameCount_le dep
        omega
  | drawSolidByte x y w h d b => exact allAlong_patternFrameOps _ s.cfg _ d b s
  | clear x y w h =>
    have hset (p : Nat) (t : State) : AllAlong (LookupFinds (.clear x y w h)) [.setPass p] t := ⟨trivial, trivial⟩
    exact .flatMap (fun p _ t => (hset p t).append (allAlong_patternFrameOps _ s.cfg _ _ _ _)) s
  | encodeUnary fb =>
    refine .flatMap (fun k hk t => allAlong_encodePlane _ s.cfg fb ?_ t) s
    have := List.mem_range.1 hk
    omega
  | drawUnary =>
    have hset (k : Nat) (t : State) : AllAlong (LookupFinds .drawUnary) [.setK k] t := ⟨trivial, trivial⟩
    refine .flatMap (fun k _ t => allAlong_frameOps_of_neutral (hset k t) fun r u hu => ?_) s
    rcases List.mem_pair.1 hu with rfl | rfl <;> rfl

/-- Settles O52: `allAlong_runOps` at micro-operation number `n`, for each of the three kinds. -/
theorem lookupsFindTheFramesTable : Obligations.LookupsFindTheFramesTable := fun i _ s =>
  have along := allAlong_runOps i s
  ⟨fun _ _ _ _ _ hu => along.holdsAt hu, fun _ _ _ hu => along.holdsAt hu, fun _ _ hu => along.holdsAt hu⟩

end Sys2Proof.Machine
end

section
/-! The decoder and the encoder undo each other: a descriptor decodes to a command exactly when it is that command's encoding
(rules R62 to R66, R73). Each row of the opcode table fixes the opcode and the must-be-zero fields of its descriptors, and the
other fields are the operands. -/

namespace Sys2Proof

/-- A descriptor that decodes to a command is its encoding: the command's row fixes the opcode and the must-be-zero fields, and
the operands are the fields it leaves free (rules R64, R65). -/
theorem encode_of_decode {d : Desc} {i : Instr} (h : decode d = .ok i) : encode i = d := by
  unfold decode at h
  split_ifs at h with hlut himage hsolid hclear hencode hunary
  all_goals cases h
  · obtain ⟨hop, hx, hy, hw, hh, haddr⟩ := (selects_rowLutCompile d).1 hlut
    simpa only [encode, hop, hx, hy, hw, hh, haddr] using formatD_fields d
  · obtain ⟨hop, hb⟩ := (selects_rowDrawImage d).1 himage
    simpa only [encode, hop, hb] using formatD_fields d
  · obtain ⟨hop, haddr⟩ := (selects_rowDrawSolidByte d).1 hsolid
    simpa only [encode, hop, haddr] using formatD_fields d
  · obtain ⟨hop, ha, hb, haddr⟩ := (selects_rowClear d).1 hclear
    simpa only [encode, hop, ha, hb, haddr] using formatD_fields d
  · obtain ⟨hop, ha, hb, hx, hy, hw, hh⟩ := (selects_rowEncodeUnary d).1 hencode
    simpa only [encode, hop, ha, hb, hx, hy, hw, hh] using formatD_fields d
  · obtain ⟨hop, ha, hb, hx, hy, hw, hh, haddr⟩ := (selects_rowDrawUnary d).1 hunary
    simpa only [encode, hop, ha, hb, hx, hy, hw, hh, haddr] using formatD_fields d

theorem rowOf_mem_opcodeTable (i : Instr) : rowOf i ∈ opcodeTable := by
  cases i <;> simp [rowOf, opcodeTable]

/-- The encoding of a command selects the command's own row (rules R62, R64, R65). -/
theorem selectsRow_encode (i : Instr) : selectsRow (rowOf i) (encode i) = true := by
  cases i with
  | lutCompile k bd => exact Laws.EncodedRow.lutCompile k bd
  | drawImage x y w h fb bd => exact Laws.EncodedRow.drawImage x y w h fb bd
  | drawSolidByte x y w h d b => exact Laws.EncodedRow.drawSolidByte x y w h d b
  | clear x y w h => exact Laws.EncodedRow.clear x y w h
  | encodeUnary fb => exact Laws.EncodedRow.encodeUnary fb
  | drawUnary => exact Laws.EncodedRow.drawUnary

/-- Settles O11: the row that the decoder matched gives the fixed fields, and the operands are the other fields. -/
theorem encodeInvertsDecode : Obligations.EncodeInvertsDecode := fun _ _ h => encode_of_decode h

/-- Settles O10: the rows before the command's own have another opcode, its own row matches, and the operands are read back from
their fields. -/
theorem decodeInvertsEncode : Obligations.DecodeInvertsEncode := by
  intro i
  cases i with
  | lutCompile k bd => simp [decode, encode, selects_rowLutCompile]
  | drawImage x y w h fb bd => simp [decode, encode, selects_rowLutCompile, selects_rowDrawImage]
  | drawSolidByte x y w h d b =>
    simp [decode, encode, selects_rowLutCompile, selects_rowDrawImage, selects_rowDrawSolidByte]
  | clear x y w h =>
    simp [decode, encode, selects_rowLutCompile, selects_rowDrawImage, selects_rowDrawSolidByte, selects_rowClear]
  | encodeUnary fb =>
    simp [decode, encode, selects_rowLutCompile, selects_rowDrawImage, selects_rowDrawSolidByte, selects_rowClear,
      selects_rowEncodeUnary]
  | drawUnary =>
    simp [decode, encode, selects_rowLutCompile, selects_rowDrawImage, selects_rowDrawSolidByte, selects_rowClear,
      selects_rowEncodeUnary, selects_rowDrawUnary]

/-- Every row of the table fixes the opcode (rule R65). -/
theorem fieldOP_of_selectsRow {r : OpRow} {d : Desc} (hr : r ∈ opcodeTable) (h : selectsRow r d = true) :
    fieldOP d = fieldOP r.value := by
  simp only [opcodeTable, List.mem_cons, List.not_mem_nil, or_false] at hr
  rcases hr with rfl | rfl | rfl | rfl | rfl | rfl
  · exact ((selects_rowLutCompile d).1 h).1
  · exact ((selects_rowDrawImage d).1 h).1
  · exact ((selects_rowDrawSolidByte d).1 h).1
  · exact ((selects_rowClear d).1 h).1
  · exact ((selects_rowEncodeUnary d).1 h).1
  · exact ((selects_rowDrawUnary d).1 h).1

/-- No two rows of the table have one opcode (rule R65). -/
theorem row_eq_of_fieldOP_eq : ∀ r ∈ opcodeTable, ∀ q ∈ opcodeTable, fieldOP r.value = fieldOP q.value → r = q := by
  decide

/-- A descriptor is illegal exactly when it selects no row (rules R66, R73). -/
theorem decode_eq_error_iff (d : Desc) : (∃ e, decode d = .error e) ↔ ∀ r ∈ opcodeTable, selectsRow r d = false := by
  rcases decode_cases d with ⟨i, hdecode, hrow⟩ | ⟨hnone, hdecode⟩
  · refine iff_of_false (fun ⟨e, he⟩ => ?_) fun hnone => ?_
    · rw [hdecode] at he
      cases he
    · rw [hnone _ (rowOf_mem_opcodeTable i)] at hrow
      cases hrow
  · exact iff_of_true ⟨_, hdecode⟩ hnone

/-- Settles O12: what the decoder answers case by case; two rows that match have one opcode. -/
theorem decodeFollowsTheTable : Obligations.DecodeFollowsTheTable := by
  refine ⟨fun d => ?_, fun d i h => ?_, fun d r q hr hq hrd hqd => ?_⟩
  · rcases decode_cases d with ⟨i, hdecode, hrow⟩ | ⟨hnone, hdecode⟩
    · exact iff_of_true ⟨i, hdecode⟩ ⟨_, rowOf_mem_opcodeTable i, hrow⟩
    · refine iff_of_false (fun ⟨i, hi⟩ => ?_) fun ⟨r, hr, hrd⟩ => ?_
      · rw [hdecode] at hi
        cases hi
      · rw [hnone r hr] at hrd
        cases hrd
  · rw [← encode_of_decode h]
    exact selectsRow_encode i
  · exact row_eq_of_fieldOP_eq r hr q hq ((fieldOP_of_selectsRow hr hrd).symm.trans (fieldOP_of_selectsRow hq hqd))

/-- An opcode is 0, one of the six, or at least 7 (rule R64). -/
theorem opcode_cases (op : Byte) : op = 0 ∨ op = 1 ∨ op = 2 ∨ op = 3 ∨ op = 4 ∨ op = 5 ∨ op = 6 ∨ 7 ≤ op.toNat := by
  bv_omega

/-- Settles O13: an illegal descriptor selects no row; for each opcode that says which of its command's must-be-zero fields are
not all 0. -/
theorem illegalDescriptorsExactly : Obligations.IllegalDescriptorsExactly := by
  intro d
  rw [decode_eq_error_iff]
  simp only [opcodeTable, List.mem_cons, List.not_mem_nil, or_false, forall_eq_or_imp, forall_eq, ← Bool.not_eq_true,
    selects_rowLutCompile, selects_rowDrawImage, selects_rowDrawSolidByte, selects_rowClear, selects_rowEncodeUnary,
    selects_rowDrawUnary]
  rcases opcode_cases (fieldOP d) with h | h | h | h | h | h | h | h
  case inr.inr.inr.inr.inr.inr.inr =>
    have hne (op : Byte) (hop : op.toNat < 7) : fieldOP d ≠ op := fun e => by rw [e] at h; omega
    simp [h, hne]
  all_goals simp [h]

/-- Settles O14: each descriptor is the encoding of its command. -/
theorem specDescriptorsDecode : Obligations.SpecDescriptorsDecode :=
  ⟨decodeInvertsEncode (.lutCompile 14 4), decodeInvertsEncode (.drawImage 3 3 10 2 0x20000000 4),
    decodeInvertsEncode (.drawSolidByte 4 2 8 2 40 0x55), decodeInvertsEncode (.clear 0 1 16 2),
    decodeInvertsEncode (.encodeUnary 0x1000), decodeInvertsEncode .drawUnary⟩

/-- The panel's sides fit their fields (rules R4, R62). -/
theorem rectFits_panel (cfg : Cfg) : rectFits 0 0 cfg.panelW cfg.panelH = true := by
  have hw := Machine.panelW_lt cfg
  have hh := Machine.panelH_le cfg
  simp only [rectFits, fitsField, Bool.and_eq_true, decide_eq_true_eq]
  omega

/-- Settles O15: the lines of each pair are well formed together and expand to one command. -/
theorem pseudoCommandsExpand : Obligations.PseudoCommandsExpand := by
  intro cfg fb bd x y w h d hscreen hfill
  have hpanel := rectFits_panel cfg
  have hdark : fitsField 8 0x55 = true := by decide
  have hclear : fitsField 8 0xAA = true := by decide
  simp only [Line.wellFormed] at hscreen hfill
  refine ⟨?_, ?_, ?_, ?_⟩
  · simp only [assemble, Line.wellFormed, hpanel, expandLine]; rfl
  · simp only [assemble, Line.wellFormed, hpanel, hscreen, Bool.true_and, expandLine]; rfl
  · simp only [assemble, Line.wellFormed, hfill, hdark, Bool.and_true, expandLine]; rfl
  · simp only [assemble, Line.wellFormed, hfill, hclear, Bool.and_true, expandLine]; rfl

end Sys2Proof
end

section
/-! Accepting a command, reset, and the operand checks: what a step does with the command port, the state after a reset, and
when each check refuses (rules R60, R61, R66, R154, R155, R170). -/

namespace Sys2Proof.Machine

/-- Settles O1: the accept of the first descriptor, then the command it decodes to. -/
theorem stepRunsTheDecodedCommand : Obligations.StepRunsTheDecodedCommand := by
  intro s p rest i hbusy hport hdecode
  rw [step_of_presented hbusy hport, runDescriptor, hdecode]
  rfl

/-- Settles O2: an illegal encoding is an error ending from an idle block. -/
theorem illegalDescriptorRaisesOpcodeError : Obligations.IllegalDescriptorRaisesOpcodeError :=
  fun _ _ _ _ hidle hport hdecode => step_of_illegal hidle hport hdecode

/-- Settles O3: nothing is presented, so nothing is fetched. -/
theorem stepWithoutDescriptorChangesNothing : Obligations.StepWithoutDescriptorChangesNothing := by
  intro s hbusy hport
  simp [step, fetch, hbusy, hport]

/-- Settles O4: `BUSY` is looked at before the port. -/
theorem busyBlockAcceptsNothing : Obligations.BusyBlockAcceptsNothing := by
  intro s hbusy
  simp [cmdReady, step, hbusy]

/-- The registers below the ROM read 0 after reset: the three status words and the descriptor are 0, and the word between them
is reserved (rules R20, R32). -/
theorem regWord_resetWith (u : PowerUp) {n : Nat} (hn : n < 8) : regWord (State.resetWith u) n = 0 := by
  obtain rfl | rfl | rfl | rfl | hn : n = 0 ∨ n = 1 ∨ n = 2 ∨ n = 3 ∨ n = 4 ∨ n = 5 ∨ n = 6 ∨ n = 7 := by omega
  · exact statusWord_resetWith u
  · exact seqWord_resetWith u
  · exact skipcntWord_resetWith u
  · rfl
  · rcases hn with rfl | rfl | rfl | rfl <;> exact BitVec.extractLsb'_zero

/-- From index 26 on there is no register (rule R17). -/
theorem regWord_above (s : State) {i : Nat} (hi : 26 ≤ i) : regWord s i = 0 := by
  obtain ⟨m, rfl⟩ := Nat.exists_eq_add_of_le' hi
  rfl

/-- The ROM registers are read from the configuration alone (rule R20). -/
theorem regWord_rom {s t : State} (hcfg : s.cfg = t.cfg) {n : Nat} (hn : 8 ≤ n) : regWord s n = regWord t n := by
  rcases Nat.lt_or_ge n 26 with hrom | habove
  · interval_cases n <;> simp only [regWord, hcfg]
  · rw [regWord_above s habove, regWord_above t habove]

/-- Settles O5: the fields are those of `State.resetWith`; then the register words. -/
theorem resetLeavesRegistersZero : Obligations.ResetLeavesRegistersZero := fun u =>
  ⟨rfl, rfl, rfl, rfl, rfl, rfl, rfl, rfl, rfl, rfl, rfl, fun _ hn => regWord_resetWith u hn,
    fun _ hcfg _ hn => regWord_rom hcfg.symm hn, rfl⟩

theorem idle_assertReset (lut : Lut) (fill : Row) (s : State) : Idle (assertReset lut fill s) :=
  ⟨rfl, rfl, rfl, rfl, rfl⟩

theorem statusWord_assertReset (lut : Lut) (fill : Row) (s : State) : statusWord (assertReset lut fill s) = 0 := by
  simp [statusWord, flagBit, errBits]

/-- Settles O55: the fields of `assertReset`. -/
theorem assertedResetTouchesNoMemory : Obligations.AssertedResetTouchesNoMemory := fun lut fill s =>
  ⟨idle_assertReset lut fill s, rfl, rfl, rfl, rfl, rfl, rfl, rfl, rfl, rfl, rfl⟩

theorem rectError_eq_none_iff (cfg : Cfg) (r : Rect) :
    rectError cfg r = none ↔ r.x + r.w ≤ cfg.panelW ∧ r.y + r.h ≤ cfg.panelH := by
  by_cases hfits : r.x + r.w ≤ cfg.panelW ∧ r.y + r.h ≤ cfg.panelH
  · exact iff_of_true (rectError_none hfits) hfits
  · exact iff_of_false (by rw [rectError_some hfits]; nofun) hfits

theorem frameError_eq_some_iff (bd : BitDepth) (k : Half) : frameError bd k = some .frame ↔ frameCount bd ≤ k.toNat := by
  by_cases hk : k.toNat < frameCount bd
  · exact iff_of_false (by rw [frameError_none hk]; nofun) (by omega)
  · exact iff_of_true (frameError_some (by omega)) (by omega)

/-- Settles O18: each check as an equivalence; the sum at `X = 0xFFFF` exceeds every panel width, which is below 65536. -/
theorem operandChecksAreExact : Obligations.OperandChecksAreExact := by
  refine ⟨fun a => ?_, fun k => ⟨frameError_eq_some_iff .two k, frameError_eq_some_iff .four k⟩, rfl, rfl,
    fun cfg x y w h => rectError_eq_none_iff cfg _, fun cfg y h => rectError_some ?_⟩
  · rw [bitDepthOf_none, not_or]
  · have hwidth := panelW_lt cfg
    have hx : (rectOf 0xFFFF y 1 h).x = 65535 := rfl
    have hw : (rectOf 0xFFFF y 1 h).w = 1 := rfl
    omega

/-- Settles O60: a record is built exactly when it is valid, and validity is the conjunction of the constraints. -/
theorem invalidConfigurationIsRefused : Obligations.InvalidConfigurationIsRefused := by
  intro c
  have hbuild : (∃ g : Cfg, c.build = some g ∧ g.toRawCfg = c) ↔ c.valid = true := by
    unfold RawCfg.build
    split
    · next hvalid => exact iff_of_true ⟨_, rfl, rfl⟩ hvalid
    · next hvalid => exact iff_of_false (fun ⟨_, hg, _⟩ => nomatch hg) hvalid
  rw [hbuild]
  simp only [RawCfg.valid, Bool.and_eq_true, decide_eq_true_eq, List.all_eq_true, and_assoc]

end Sys2Proof.Machine
end

section
/-! Host reads of `REG` (rules R17, R20, R21, R46) and two-byte reads of `MEM` (rules R40, R43, R44). -/

namespace Sys2Proof.Machine

/-- A busy block shows every word from index 3 on as an idle one does (rule R21). -/
theorem hostReadReg_of_le (s : State) (n : Nat) {off : Nat} (hoff : 12 ≤ off) :
    hostReadReg n off s = regWord s (off / 4) := by
  obtain ⟨m, hm⟩ : ∃ m, off / 4 = m + 3 := Nat.exists_eq_add_of_le' (by omega)
  rw [hostReadReg, hm, busyRegWord]
  · split <;> rfl
  all_goals omega

theorem toNat_append_add {m n : Nat} (x : BitVec m) (y : BitVec n) : (x ++ y).toNat = x.toNat * 2 ^ n + y.toNat := by
  rw [BitVec.toNat_append, ← Nat.shiftLeft_add_eq_or_of_lt y.isLt, Nat.shiftLeft_eq]

theorem toNat_halves (lo hi : Half) : (halves lo hi).toNat = lo.toNat + 2 ^ 16 * hi.toNat := by
  rw [halves, toNat_append_add, Nat.add_comm, Nat.mul_comm]

/-- The four words of the descriptor, put together (rules R20, R62). -/
theorem append_words_eq (d : Desc) :
    d.extractLsb' 96 32 ++ d.extractLsb' 64 32 ++ d.extractLsb' 32 32 ++ d.extractLsb' 0 32 = d := by
  refine BitVec.eq_of_getLsbD_eq fun i hi => ?_
  simp only [BitVec.getLsbD_append, BitVec.getLsbD_extractLsb']
  split_ifs <;> rw [decide_eq_true (by omega), Bool.true_and] <;> congr 1 <;> omega

/-- The register word of index 16 to 22 holds two entries of `CONTRAST_4` (rule R20). -/
theorem regWord_contrast4 (s : State) {j : Nat} (hj : j < 7) :
    regWord s (16 + j) = halves (s.cfg.contrast4.getD (2 * j) 0) (s.cfg.contrast4.getD (2 * j + 1) 0) := by
  interval_cases j <;> rfl

/-- Indices 13 to 15 are reserved (rule R17). -/
theorem regWord_reserved (s : State) {i : Nat} (hlo : 13 ≤ i) (hhi : i < 16) : regWord s i = 0 := by
  interval_cases i <;> rfl

theorem getLsbD_zero_statusWord (s : State) : (statusWord s).getLsbD 0 = s.busy := by
  have hbit := congrArg (BitVec.getLsbD · 0) (busyField_statusWord s)
  simp only [BitVec.getLsbD_extractLsb', Nat.lt_add_one, decide_true, Bool.true_and, Nat.add_zero] at hbit
  rw [hbit]
  cases s.busy <;> rfl

/-- Bit 0 of `STATUS` is `BUSY`, whatever else a busy block shows (rules R18, R21). -/
theorem getLsbD_zero_hostReadReg_status (n : Nat) (s : State) : (hostReadReg n 0 s).getLsbD 0 = s.busy := by
  cases hbusy : s.busy with
  | false => rw [hostReadReg_of_idle hbusy, Nat.zero_div, regWord_status, getLsbD_zero_statusWord, hbusy]
  | true => simp [hostReadReg, hbusy, busyRegWord]

/-- Settles O58: each offset as the word of its index, and the word's layout. -/
theorem hostRegisterReads : Obligations.HostRegisterReads := by
  intro s n off
  have word (o : Nat) (ho : 12 ≤ o) : hostReadReg n o s = regWord s (o / 4) := hostReadReg_of_le s n ho
  have layout (o : Nat) (ho : 12 ≤ o) {lo hi : Half} (hw : regWord s (o / 4) = halves lo hi) :
      (hostReadReg n o s).toNat = lo.toNat + 2 ^ 16 * hi.toNat := by rw [word o ho, hw, toNat_halves]
  have hwidth : (BitVec.ofNat 16 s.cfg.panelW).toNat = s.cfg.panelW := Nat.mod_eq_of_lt (panelW_lt s.cfg)
  have hheight : (BitVec.ofNat 16 s.cfg.panelH).toNat = s.cfg.panelH :=
    Nat.mod_eq_of_lt (Nat.lt_succ_of_le (panelH_le s.cfg))
  refine ⟨?_, ?_, layout 0x24 (by decide) rfl, word 0x28 (by decide), word 0x2C (by decide), layout 0x30 (by decide) rfl,
    fun j hj => ?_, layout 0x5C (by decide) rfl, layout 0x60 (by decide) rfl, layout 0x64 (by decide) rfl,
    word 0x0C (by decide), fun hlo hhi => ?_,
    fun hlo => ?_, ?_, getLsbD_zero_hostReadReg_status n s, fun hlo => ?_⟩
  · rw [word 0x1C (by decide), word 0x18 (by decide), word 0x14 (by decide), word 0x10 (by decide)]
    exact append_words_eq s.desc
  · exact (layout 0x20 (by decide) rfl).trans (by rw [hwidth, hheight])
  · refine layout _ (by omega) ?_
    rw [show (0x40 + 4 * j) / 4 = 16 + j by omega, regWord_contrast4 s hj]
  · rw [word off (by omega), regWord_reserved s (by omega) (by omega)]
  · rw [word off (by omega), regWord_above s (by omega)]
  · rw [hostReadReg, hostReadReg, Nat.mul_div_cancel_left _ (by decide)]
  · rw [hostReadReg_of_le _ n (by omega), hostReadReg_of_le _ n (by omega)]
    exact regWord_rom (by rfl) (by omega)

/-- Settles O59: the second byte is at the next address, which wraps as the 32-bit sum does. -/
theorem chunkReadsWrap : Obligations.ChunkReadsWrap := by
  intro m a
  have hnext : (a + 1).toNat = (a.toNat + 1) % 2 ^ 32 := by rw [BitVec.toNat_add]; rfl
  rw [memRead16, toNat_append_add, memRead8, memRead8, hnext]
  omega

end Sys2Proof.Machine
end

section
/-! The LUT compiler: which frames activate an intensity, the packed algorithm, and what `LUT_COMPILE` leaves (rules R85 to
R88). -/

namespace Sys2Proof.Machine

/-- The numbers of an initial segment that are below `v` are the initial segment of length `v`. -/
theorem filter_lt_range {n v : Nat} (hv : v ≤ n) : (List.range n).filter (fun k => decide (k < v)) = List.range v := by
  obtain ⟨m, rfl⟩ := Nat.exists_eq_add_of_le hv
  have hbelow : (List.range v).filter (fun k => decide (k < v)) = List.range v :=
    List.filter_eq_self.2 fun k hk => decide_eq_true (List.mem_range.1 hk)
  have habove : ((List.range m).map (v + ·)).filter (fun k => decide (k < v)) = [] := by
    simp [List.filter_eq_nil_iff]
  rw [List.range_add, List.filter_append, hbelow, habove, List.append_nil]

/-- Settles O19: frame `k` activates `v` when `k < v`, and every intensity is at most the frame count. -/
theorem firstFramesActivate : Obligations.FirstFramesActivate := by
  intro bd v hv
  exact filter_lt_range (by rw [frameCount]; omega)

/-! The packed algorithm holds the four nibbles of the index in the four bytes of a word, adds `15 - k` to each, and reads
bit 4 of each sum (rule R88). -/

/-- The word with the four given numbers as its bytes. -/
def packBytes (n0 n1 n2 n3 : Nat) : Nat := n0 + 2 ^ 8 * n1 + 2 ^ 16 * n2 + 2 ^ 24 * n3

theorem packBytes_byte {v : Nat → Nat} (hv : ∀ j, v j < 256) {j : Nat} (hj : j < 4) :
    packBytes (v 0) (v 1) (v 2) (v 3) / 2 ^ (8 * j) % 256 = v j := by
  have h0 := hv 0
  have h1 := hv 1
  have h2 := hv 2
  have h3 := hv 3
  unfold packBytes
  interval_cases j <;> omega

/-- A nibble of a word. -/
def nibble (i : Half) (j : Nat) : Nat := (i.extractLsb' (4 * j) 4).toNat

theorem nibble_lt (i : Half) (j : Nat) : nibble i j < 16 := (i.extractLsb' (4 * j) 4).isLt

/-- The nibbles spread into the bytes of a word (rule R88), as the algorithm does it. -/
def spreadNibbles (i : Half) : Word :=
  let v1 := (i.setWidth 32 ||| (i.setWidth 32 <<< 8)) &&& 0x00FF00FF#32
  (v1 ||| (v1 <<< 4)) &&& 0x0F0F0F0F#32

/-- Each nibble is the low half of its byte, and the high halves are 0. -/
theorem spreadNibbles_eq_append (i : Half) : spreadNibbles i = BitVec.cast rfl
    (0#4 ++ i.extractLsb' 12 4 ++ 0#4 ++ i.extractLsb' 8 4 ++ 0#4 ++ i.extractLsb' 4 4 ++ 0#4 ++ i.extractLsb' 0 4) := by
  refine BitVec.eq_of_getLsbD_eq fun n hn => ?_
  rw [BitVec.getLsbD_cast]
  simp only [spreadNibbles, BitVec.getLsbD_and, BitVec.getLsbD_or, BitVec.getLsbD_shiftLeft, BitVec.getLsbD_setWidth,
    BitVec.getLsbD_append, BitVec.getLsbD_extractLsb']
  interval_cases n <;> simp

theorem toNat_spreadNibbles (i : Half) :
    (spreadNibbles i).toNat = packBytes (nibble i 0) (nibble i 1) (nibble i 2) (nibble i 3) := by
  rw [spreadNibbles_eq_append, BitVec.toNat_cast]
  simp only [toNat_append_add, BitVec.toNat_ofNat, packBytes, nibble, Nat.reduceMul]
  omega

/-- The word of the four sums (rule R88). -/
def nibbleSums (i : Half) (k : Nat) : Word := spreadNibbles i + BitVec.ofNat 32 (15 - k) * 0x01010101#32

/-- No sum carries out of its byte. -/
theorem toNat_nibbleSums (i : Half) (k : Nat) : (nibbleSums i k).toNat =
    packBytes (nibble i 0 + (15 - k)) (nibble i 1 + (15 - k)) (nibble i 2 + (15 - k)) (nibble i 3 + (15 - k)) := by
  have h0 := nibble_lt i 0
  have h1 := nibble_lt i 1
  have h2 := nibble_lt i 2
  have h3 := nibble_lt i 3
  rw [nibbleSums, BitVec.toNat_add, BitVec.toNat_mul, toNat_spreadNibbles, BitVec.toNat_ofNat, BitVec.toNat_ofNat]
  simp only [packBytes]
  omega

/-- Bit 4 of byte `j` of a word, read from that byte. -/
theorem getLsbD_byte_bit4 (w : Word) (j : Nat) :
    w.getLsbD (8 * j + 4) = decide (w.toNat / 2 ^ (8 * j) % 256 / 16 % 2 = 1) := by
  rw [BitVec.getLsbD, Nat.testBit_eq_decide_div_mod_eq, Nat.pow_add, ← Nat.div_div_eq_div_mul]
  congr 1
  rw [eq_iff_iff]
  omega

/-- Bit 4 of byte `j` of the sums is the comparison of nibble `j` with `k`. -/
theorem getLsbD_nibbleSums (i : Half) {k : Nat} (hk : k < 15) {j : Nat} (hj : j < 4) :
    (nibbleSums i k).getLsbD (8 * j + 4) = activate (nibble i j) k := by
  have hlt := nibble_lt i
  have hj' := hlt j
  rw [Bool.eq_iff_iff, activate_eq_true_iff, getLsbD_byte_bit4, decide_eq_true_iff, toNat_nibbleSums,
    packBytes_byte (v := fun j => nibble i j + (15 - k)) (fun j => by have := hlt j; omega) hj]
  omega

/-- Bit `2j` of the packed algorithm's result is bit 4 of byte `j` of the sums, and the odd bits are 0. -/
theorem getLsbD_trick4 (i : Half) (k : Nat) {n : Nat} (hn : n < 8) :
    (trick4 i k).getLsbD n = (decide (n % 2 = 0) && (nibbleSums i k).getLsbD (4 * n + 4)) := by
  have hdef : trick4 i k =
      (((nibbleSums i k &&& 0x10101010#32).extractLsb' 4 1).setWidth 8
        ||| (((nibbleSums i k &&& 0x10101010#32).extractLsb' 12 1).setWidth 8 <<< 2)
        ||| (((nibbleSums i k &&& 0x10101010#32).extractLsb' 20 1).setWidth 8 <<< 4)
        ||| (((nibbleSums i k &&& 0x10101010#32).extractLsb' 28 1).setWidth 8 <<< 6)) := rfl
  rw [hdef]
  simp only [BitVec.getLsbD_or, BitVec.getLsbD_shiftLeft, BitVec.getLsbD_setWidth, BitVec.getLsbD_extractLsb',
    BitVec.getLsbD_and]
  interval_cases n <;> simp

/-- Settles O22: the two results agree in the low bit of every lane, and the high bits are 0 in both. -/
theorem packedAlgorithmGivesTheTable : Obligations.PackedAlgorithmGivesTheTable := by
  intro i k hk
  refine BitVec.eq_of_getLsbD_eq fun n hn => ?_
  rw [getLsbD_trick4 i k hn]
  rcases Nat.mod_two_eq_zero_or_one n with heven | hodd
  · obtain ⟨j, rfl⟩ := Nat.dvd_of_mod_eq_zero heven
    rw [decide_eq_true heven, Bool.true_and, show 4 * (2 * j) + 4 = 8 * j + 4 by omega,
      getLsbD_nibbleSums i hk (by omega), getLsbD_lut4_even k i (by omega), nibble]
  · obtain ⟨j, rfl⟩ : ∃ j, n = 2 * j + 1 := ⟨n / 2, by omega⟩
    rw [decide_eq_false (by omega), Bool.false_and, getLsbD_lut4_odd]

theorem allocError_none {allocOk : Bool} (h : allocOk = true) : allocError allocOk = none := by rw [allocError, if_pos h]

/-- `LUT_COMPILE` with legal operands as one equation (rule R86). -/
theorem exec_lutCompile {s : State} {k : Half} {bd : Byte} {dep : BitDepth} (hdepth : bitDepthOf bd = some dep)
    (hframe : k.toNat < frameCount dep) (halloc : s.allocOk = true) :
    exec (.lutCompile k bd) s = .next { s with
      lut := compiledLut dep k.toNat, lutValid := true, lutK := BitVec.ofNat 4 k.toNat
      lutBd := BitVec.ofNat 3 (depthBits dep), err := .ok, busy := false, pass := 0, k := 0, row := 0 } := by
  simp only [exec, execLutCompile, hdepth, frameError_none hframe, allocError_none halloc]
  rfl

/-- An idle block with a valid tag shows the LUT to the host (rule R23). -/
theorem hostReadLut_of_valid {s : State} (hidle : s.busy = false) (hvalid : s.lutValid = true) (n : Nat) (i : Half) :
    hostReadLut n i s = s.lut.read i := by
  simp [hostReadLut, hidle, hvalid]

/-- Settles O23: the equation of the command, the entries of its table, and the host's view of them. -/
theorem lutCompileWritesTheTable : Obligations.LutCompileWritesTheTable := by
  intro s k bd dep hdepth hframe halloc
  refine ⟨_, exec_lutCompile hdepth hframe halloc, rfl, fun i => ?_, fun n i => hostReadLut_of_valid rfl rfl n i⟩
  rw [read_compiledLut]
  rfl

end Sys2Proof.Machine
end

section
/-! The codec pixel by pixel and the plane store's layout: what the image path drives on every pixel, the round trip of `compact`
and `expand`, and the planes `ENCODE_UNARY` writes (rules R42, R45, R91 to R96, R100 to R102). -/

namespace Sys2Proof.Machine

/-- `compact` undoes `expand`: the activation bits of the two output bytes are the nibbles they were made from (rule R100). -/
theorem activationBits_lanesOfBits (h : BitVec 4) : activationBits (lanesOfBits h) = h := by
  refine BitVec.eq_of_getLsbD_eq fun j hj => ?_
  rw [getLsbD_activationBits _ hj, getLsbD_lanesOfBits h (by omega)]
  simp

theorem compact_expand (q : Row) : compact (expand q) = q := by
  induction q with
  | nil => rfl
  | cons b q ih =>
    have hnibbles : b = b.extractLsb' 4 4 ++ b.extractLsb' 0 4 := (append_extract (m := 4) (n := 4) b).symm
    rw [hnibbles, expand_cons, compact_cons_cons, activationBits_lanesOfBits, activationBits_lanesOfBits, ih]

/-- Settles O26: the premise on the lanes is `PlainLanes`. -/
theorem compactAndExpandRoundTrip : Obligations.CompactAndExpandRoundTrip :=
  ⟨fun _ hlen hlanes => expand_compact hlen hlanes, compact_expand⟩

/-- A bit of a translated byte: that of the table's entry, where the mask keeps it (rule R93). -/
theorem getLsbD_preByte (t : Lut) (m : Memory) (a : Word) (bd : BitDepth) (x w c n : Nat) :
    (preByte t m a bd x w c).getLsbD n =
      ((t.read (groupIndex m a bd c)).getLsbD n && (groupMask c x w).getLsbD n) := by
  unfold preByte
  split
  · next hmask => rw [hmask]; simp
  · exact BitVec.getLsbD_and

/-- The low bit of a lane of a table entry is the activation bit of its field of the index (rules R82 to R84). -/
theorem getLsbD_lutEntry_even (bd : BitDepth) (k : Nat) (i : Half) {j : Nat} (hj : j < 4) :
    (lutEntry bd k i).getLsbD (2 * j) = activate (i.extractLsb' (depthBits bd * j) (depthBits bd)).toNat k := by
  cases bd with
  | two => exact getLsbD_lut2_even k i hj
  | four => exact getLsbD_lut4_even k i hj

theorem getLsbD_lutEntry_odd (bd : BitDepth) (k : Nat) (i : Half) (j : Nat) :
    (lutEntry bd k i).getLsbD (2 * j + 1) = false := by
  cases bd with
  | two => exact getLsbD_lut2_odd k i j
  | four => exact getLsbD_lut4_odd k i j

/-- Field `j` of the index of group `c` is the intensity of pixel `4c + j` (rule R42). -/
theorem field_groupIndex (cfg : Cfg) (m : Memory) (fb : Word) (bd : BitDepth) (r c : Nat) {j : Nat} (hj : j < 4) :
    ((groupIndex m (rowBase cfg fb bd r) bd c).extractLsb' (depthBits bd * j) (depthBits bd)).toNat =
      pixelAt cfg m fb bd r (4 * c + j) := by
  cases bd with
  | two =>
    have hbyte : (4 * c + j) / 4 = c := by omega
    have hfield : (4 * c + j) % 4 = j := by omega
    rw [pixelAt, hbyte, hfield, groupIndex]
    refine congrArg BitVec.toNat (BitVec.eq_of_getLsbD_eq fun n hn => ?_)
    simp only [depthBits] at hn ⊢
    rw [BitVec.getLsbD_extractLsb', BitVec.getLsbD_extractLsb', BitVec.getLsbD_setWidth,
      decide_eq_true (show 2 * j + n < 16 by omega), Bool.true_and]
  | four =>
    have hfield : (4 * c + j) % 2 = j % 2 := by omega
    rw [pixelAt, hfield, groupIndex, memRead16]
    congr 1
    rcases Nat.lt_or_ge j 2 with hlow | hhigh
    · have hbyte : (4 * c + j) / 2 = 2 * c := by omega
      rw [hbyte, Nat.mod_eq_of_lt hlow]
      exact extract_append_low _ _ _ _ (by simp only [depthBits]; omega)
    · have hbyte : (4 * c + j) / 2 = 2 * c + 1 := by omega
      have hsum : BitVec.ofNat 32 (2 * c + 1) = BitVec.ofNat 32 (2 * c) + 1 := BitVec.ofNat_add ..
      rw [hbyte, hsum, ← BitVec.add_assoc]
      exact extract_append_high _ _ _ _ _ (by simp only [depthBits]; omega)

/-- Settles O27: byte `i` is the translated byte of group `i xor 2`; its even bits are activation bits under the mask. -/
theorem imageRowDrivesEachPixel : Obligations.ImageRowDrivesEachPixel := by
  intro cfg m r fb bd k x w i j hi hj
  have hgroup : i ^^^ 2 < lineBytes cfg := xor_two_lt (lineBytes_mod cfg) hi
  refine ⟨?_, ?_, ?_⟩
  · rw [getD_imageRow _ _ _ _ _ _ _ _ _ hi, getLsbD_preByte, read_compiledLut, getLsbD_lutEntry_even bd k _ hj,
      field_groupIndex cfg m fb bd r _ hj, Bool.and_eq_true, getLsbD_groupMask_iff _ x w (by omega),
      show 2 * j / 2 = j by omega]
    tauto
  · rw [getD_imageRow _ _ _ _ _ _ _ _ _ hi, getLsbD_preByte, read_compiledLut, getLsbD_lutEntry_odd, Bool.false_and]
  · rw [lineBytes] at hgroup
    omega

/-- An index of the plane store is within it (rule R45). -/
theorem plnIndex_lt_plnSize {cfg : Cfg} {k r b : Nat} (hk : k < 15) (hr : r < cfg.panelH) (hb : b < planeRowBytes cfg) :
    plnIndex cfg k r b < plnSize cfg := by
  have hrow : k * cfg.panelH + r + 1 ≤ 15 * cfg.panelH := by
    calc k * cfg.panelH + r + 1 ≤ (k + 1) * cfg.panelH := by rw [Nat.succ_mul]; omega
      _ ≤ 15 * cfg.panelH := Nat.mul_le_mul_right _ hk
  calc plnIndex cfg k r b < (k * cfg.panelH + r + 1) * planeRowBytes cfg := by
        rw [plnIndex, Nat.succ_mul (k * cfg.panelH + r)]; omega
    _ ≤ plnSize cfg := Nat.mul_le_mul_right _ hrow

/-- An index of the plane store determines its plane, row and byte (rule R45). -/
theorem plnIndex_inj {cfg : Cfg} {k r b k' r' b' : Nat} (hr : r < cfg.panelH) (hr' : r' < cfg.panelH)
    (hb : b < planeRowBytes cfg) (hb' : b' < planeRowBytes cfg) (h : plnIndex cfg k r b = plnIndex cfg k' r' b') :
    k = k' ∧ r = r' ∧ b = b' := by
  obtain rfl : k = k' := plane_eq_of_plnIndex_eq hr hr' hb hb' h
  obtain rfl : r = r' := Nat.add_left_cancel (row_eq_of_plnIndex_eq hb hb' h)
  exact ⟨rfl, rfl, Nat.add_left_cancel h⟩

/-- Settles O29: the range of an index, and the plane, row and byte read back from it. -/
theorem planeIndexInRangeAndInjective : Obligations.PlaneIndexInRangeAndInjective :=
  fun _ _ _ _ _ _ _ hk hr hb _ hr' hb' => ⟨plnIndex_lt_plnSize hk hr hb, plnIndex_inj hr hr' hb hb'⟩

/-- Settles O30: the equation of the command; the cells its stores put are the bytes of the plane rows. -/
theorem encodeUnaryWritesThePlanes : Obligations.EncodeUnaryWritesThePlanes := by
  intro s fb hpln halloc
  have stores := stores_storePlanes s.cfg s.mem fb 15
  refine ⟨_, exec_encodeUnary fb halloc, rfl, fun k r b hk hr hb => ?_, fun a ha => ?_, stores.wf hpln⟩
  · exact stores.read_cell hpln ⟨k, hk, r, hr, b, hb, rfl, rfl⟩
  · refine stores.read_other hpln ?_
    rintro v ⟨k, hk, r, hr, b, hb, rfl, -⟩
    exact ha k r b hk hr hb rfl

end Sys2Proof.Machine
end

section
/-! The busy-wait over readings of `CCOUNT` that count up from `t0` (rules R114, R163, R184). -/

namespace Sys2Proof.Machine

/-- The wait is over `i` ticks after `t0` when `i` has reached `n`, in particular across a wrap of `CCOUNT`. -/
theorem waitOver_add_ofNat (n t0 : Word) {i : Nat} (hi : i < 2 ^ 32) :
    waitOver n t0 (t0 + BitVec.ofNat 32 i) = decide (n.toNat ≤ i) := by
  have hticks : (t0 + BitVec.ofNat 32 i - t0).toNat = i := by
    rw [add_sub_cancel_left, BitVec.toNat_ofNat, Nat.mod_eq_of_lt hi]
  rw [waitOver, hticks, ← decide_not]
  exact decide_eq_decide.2 Nat.not_lt

/-- Over the readings from `j` ticks after `t0` on, the loop polls in vain until `n` ticks have passed. -/
theorem pollsInVain_range' (n t0 : Word) (m : Nat) {j : Nat} (hj : j ≤ n.toNat) :
    pollsInVain n t0 ((List.range' j m).map fun i => t0 + BitVec.ofNat 32 i) =
      if n.toNat < j + m then some (n.toNat - j) else none := by
  have hn := n.isLt
  induction m generalizing j with
  | zero => rw [if_neg (by omega)]; rfl
  | succ m ih =>
    rw [List.range'_succ, List.map_cons, pollsInVain, waitOver_add_ofNat n t0 (by omega)]
    rcases Nat.lt_or_eq_of_le hj with hlt | rfl
    · rw [decide_eq_false (by omega), if_neg Bool.false_ne_true, ih hlt]
      by_cases hends : n.toNat < j + (m + 1)
      · rw [if_pos (by omega), if_pos hends, Option.map_some]
        congr 1
        omega
      · rw [if_neg (by omega), if_neg hends, Option.map_none]
    · rw [decide_eq_true (by omega), if_pos rfl, if_pos (by omega), Nat.sub_self]

/-- A counter that stands still never ends a wait of any ticks (rule R163). -/
theorem pollsInVain_replicate {n : Word} (hn : n ≠ 0) (t0 : Word) (m : Nat) :
    pollsInVain n t0 (List.replicate m t0) = none := by
  have hwait : waitOver n t0 t0 = false := by
    have hpos : 0 < n.toNat := Nat.pos_of_ne_zero fun h => hn (BitVec.eq_of_toNat_eq h)
    simpa [waitOver] using hpos
  induction m with
  | zero => rfl
  | succ m ih => rw [List.replicate_succ, pollsInVain, hwait, if_neg Bool.false_ne_true, ih, Option.map_none]

/-- Settles O35: the readings start at `t0` itself. -/
theorem busyWaitLastsItsTicks : Obligations.BusyWaitLastsItsTicks := by
  intro n t0 m
  have hpolls := pollsInVain_range' n t0 m (Nat.zero_le _)
  rw [← List.range_eq_range', Nat.zero_add, Nat.sub_zero] at hpolls
  refine ⟨fun hends => ?_, fun hshort => ?_, fun hn => pollsInVain_replicate hn t0 m⟩
  · rw [hpolls, if_pos hends]
  · rw [hpolls, if_neg (by omega)]

end Sys2Proof.Machine
end

section
/-! The drawing commands with legal operands, each as one equation: the trace it adds and the registers it leaves (rules R126, R133,
R141, R143, R145). -/

namespace Sys2Proof.Machine

section
variable {s : State} {x y w h : Half}

theorem exec_drawImage {bd : Byte} {dep : BitDepth} (fb : Word) (hdepth : bitDepthOf bd = some dep)
    (hrect : x.toNat + w.toNat ≤ s.cfg.panelW ∧ y.toNat + h.toNat ≤ s.cfg.panelH) (halloc : s.allocOk = true) :
    exec (.drawImage x y w h fb bd) s =
      .next (endWith .ok (runMicros (imageOps s.cfg (rectOf x y w h) fb dep) s)) := by
  have hfits : rectError s.cfg (rectOf x y w h) = none := rectError_none hrect
  simp only [exec, execDrawImage, hdepth, hfits, allocError_none halloc]
  rfl

theorem exec_drawSolidByte (d : Half) (b : Byte)
    (hrect : x.toNat + w.toNat ≤ s.cfg.panelW ∧ y.toNat + h.toNat ≤ s.cfg.panelH) (halloc : s.allocOk = true) :
    exec (.drawSolidByte x y w h d b) s =
      .next (endWith .ok (runMicros (patternFrameOps s.cfg (rectOf x y w h) d b) s)) := by
  have hfits : rectError s.cfg (rectOf x y w h) = none := rectError_none hrect
  simp only [exec, execDrawSolidByte, hfits, allocError_none halloc]
  rfl

theorem exec_clear (hrect : x.toNat + w.toNat ≤ s.cfg.panelW ∧ y.toNat + h.toNat ≤ s.cfg.panelH)
    (halloc : s.allocOk = true) :
    exec (.clear x y w h) s = .next (endWith .ok (runMicros (clearOps s.cfg (rectOf x y w h)) s)) := by
  have hfits : rectError s.cfg (rectOf x y w h) = none := rectError_none hrect
  simp only [exec, execClear, hfits, allocError_none halloc]
  rfl

theorem exec_drawUnary (halloc : s.allocOk = true) :
    exec .drawUnary s = .next (endWith .ok (runMicros (unaryOps s.cfg) s)) := by
  simp only [exec, execDrawUnary, allocError_none halloc]
  rfl
end

/-- The ending leaves a position at rest where it is, so that of a command's registers only `ERR` and `BUSY` are left. -/
theorem endWith_eq_of_atRest {s : State} (hrest : AtRest s) (e : ErrCode) (u : State) :
    endWith e u = { u with err := e, pass := s.pass, k := s.k, row := s.row, busy := false } := by
  obtain ⟨hpass, hk, hrow⟩ := hrest
  rw [hpass, hk, hrow]
  rfl

/-- Settles O36: at pass 0 the run stage plays the trace of the frames, and its last frame leaves the registers. -/
theorem drawImageEmitsItsFrames : Obligations.DrawImageEmitsItsFrames := by
  intro s x y w h fb bd dep hrest hdepth hw hh halloc
  obtain ⟨n, hn⟩ : ∃ n, frameCount dep = n + 1 := by cases dep <;> exact ⟨_, rfl⟩
  rw [exec_drawImage fb hdepth ⟨hw, hh⟩ halloc, runMicros_imageOps s _ fb dep 0 hrest.1, endWith_eq_of_atRest hrest, hn]
  have htrace : imageTrace s.cfg s.mem (rectOf x y w h) fb dep =
      (List.range (n + 1)).flatMap (imageFrameTrace s.cfg s.mem (rectOf x y w h) fb dep 0) := by rw [← hn]; rfl
  rw [htrace]
  rfl

/-- Settles O37: at pass 0 and frame index 0 the run stage is one pattern frame. -/
theorem drawSolidByteEmitsOneFrame : Obligations.DrawSolidByteEmitsOneFrame := by
  intro s x y w h d b hrest hw hh halloc
  obtain ⟨hpass, hk, -⟩ := id hrest
  rw [exec_drawSolidByte d b ⟨hw, hh⟩ halloc, runMicros_patternFrameOps s _ d b 0 0 hpass hk, endWith_eq_of_atRest hrest]
  rfl

/-- Settles O38: at frame index 0 the run stage is the eighteen passes, the last of which loads the clear byte. -/
theorem clearEmitsTheRecipe : Obligations.ClearEmitsTheRecipe := by
  intro s x y w h hrest hw hh halloc
  obtain ⟨-, hk, -⟩ := id hrest
  rw [exec_clear ⟨hw, hh⟩ halloc, runMicros_clearOps s _ 0 hk, endWith_eq_of_atRest hrest]
  rfl

/-- Settles O39: at pass 0 the run stage is the fifteen frames of the replay. -/
theorem drawUnaryReplaysThePlanes : Obligations.DrawUnaryReplaysThePlanes := by
  intro s hrest halloc
  rw [exec_drawUnary halloc, runMicros_unaryOps s 0 hrest.1, endWith_eq_of_atRest hrest]
  rfl

end Sys2Proof.Machine
end

section
/-! `CLEAR` against the eighteen `DRAW_SOLID_BYTE` commands of its recipe (rule R145): the commands one after another leave what
the passes of one `CLEAR` leave, but for the position of their events. -/

namespace Sys2Proof.Machine

/-- Commands one after another, split into two parts. -/
theorem execAll_append {is js : List Instr} {s t : State} (h : execAll is s = .next t) :
    execAll (is ++ js) s = execAll js t := by
  induction is generalizing s with
  | nil =>
    cases h
    rfl
  | cons i is ih =>
    rw [List.cons_append, execAll]
    rw [execAll] at h
    cases hexec : exec i s with
    | next u =>
      rw [hexec] at h
      exact ih h
    | fault f =>
      rw [hexec] at h
      cases h
    | refused r =>
      rw [hexec] at h
      cases h

theorem execAll_singleton {i : Instr} {s t : State} (h : exec i s = .next t) : execAll [i] s = .next t := by
  rw [execAll, h]
  rfl

/-! ### With an error due -/

/-- The commands of the recipe have the checks of the `CLEAR`, on the same rect (rules R143, R145, R151). -/
theorem errorDue_drawSolidByte_of_clear {s : State} {x y w h : Half} {e : ErrCode}
    (hdue : ErrorDue (.clear x y w h) s e) (d : Half) (b : Byte) : ErrorDue (.drawSolidByte x y w h d b) s e := by
  have hframe : ¬ badFrame (.drawSolidByte x y w h d b) := by rintro ⟨_, _, _, heq, _⟩; cases heq
  cases hdue with
  | bitDepth hdepth => exact .bitDepth hdepth
  | frame _ hbad =>
    obtain ⟨_, _, _, heq, _⟩ := hbad
    cases heq
  | rect hdepth _ hrect => exact .rect hdepth hframe hrect
  | noMem hdepth _ hrect halloc => exact .noMem hdepth hframe hrect halloc

/-- Commands that all have the error `e` due leave what one of them leaves (rule R152). -/
theorem execAll_of_errorDue {is : List Instr} {s : State} {e : ErrCode} (hne : is ≠ [])
    (hdue : ∀ i ∈ is, ErrorDue i s e) : execAll is s = .next (afterError e s) := by
  induction is generalizing s with
  | nil => exact absurd rfl hne
  | cons i is ih =>
    rw [execAll, exec_of_errorDue (hdue i List.mem_cons_self)]
    by_cases hnil : is = []
    · rw [hnil]
      rfl
    · exact ih hnil fun j hj => (hdue j (List.mem_cons_of_mem _ hj)).congr (s := s) rfl rfl

/-! ### With no error due -/

/-- The trace of fill `n` of the recipe, which begins at the position `p`, `k` if it is the first, else at rest. -/
def fillTrace (cfg : Cfg) (rc : Rect) (p k n : Nat) : List Emitted :=
  frameTrace cfg (if n = 0 then p else 0) (if n = 0 then k else 0)
    (patternRowEvents cfg rc (recipeDuration cfg n) (recipeByte n)) (recipeDuration cfg n)

/-- The registers after the first `n` fills of the recipe (rules R125, R143). -/
def fillRegs (s : State) (rc : Rect) : Nat → State
  | 0 => s
  | n + 1 =>
    { s with
      pass := 0, k := 0, row := 0, skipping := 0, err := .ok, busy := false
      fillRow := fillRowOf s.cfg (recipeByte n) rc.x rc.w }

@[simp] theorem fillRegs_cfg (s : State) (rc : Rect) (n : Nat) : (fillRegs s rc n).cfg = s.cfg := by cases n <;> rfl
@[simp] theorem fillRegs_allocOk (s : State) (rc : Rect) (n : Nat) : (fillRegs s rc n).allocOk = s.allocOk := by
  cases n <;> rfl

/-- One fill of the recipe, after those before it. -/
theorem exec_fill {s : State} {x y w h : Half}
    (hrect : x.toNat + w.toNat ≤ s.cfg.panelW ∧ y.toNat + h.toNat ≤ s.cfg.panelH)
    (halloc : s.allocOk = true) (es : List Emitted) (n : Nat) :
    exec (.drawSolidByte x y w h (recipeDuration s.cfg n) (recipeByte n)) (played es (fillRegs s (rectOf x y w h) n)) =
      .next (played (es ++ fillTrace s.cfg (rectOf x y w h) s.pass.toNat s.k.toNat n)
        (fillRegs s (rectOf x y w h) (n + 1))) := by
  rw [exec_drawSolidByte _ _ (by simpa using hrect) (by simpa using halloc)]
  cases n with
  | zero =>
    rw [fillRegs, runMicros_patternFrameOps (played es s) _ _ _ s.pass.toNat s.k.toNat (by simp) (by simp)]
    simp [fillRegs, fillTrace, played, endWith]
  | succ n =>
    rw [runMicros_patternFrameOps (played es (fillRegs s _ (n + 1))) _ _ _ 0 0 rfl rfl]
    simp [fillRegs, fillTrace, played, endWith]

/-- The first `n` fills of the recipe. -/
theorem execAll_fills {s : State} {x y w h : Half}
    (hrect : x.toNat + w.toNat ≤ s.cfg.panelW ∧ y.toNat + h.toNat ≤ s.cfg.panelH)
    (halloc : s.allocOk = true) (n : Nat) :
    execAll ((List.range n).map fun m => .drawSolidByte x y w h (recipeDuration s.cfg m) (recipeByte m)) s =
      .next (played ((List.range n).flatMap (fillTrace s.cfg (rectOf x y w h) s.pass.toNat s.k.toNat))
        (fillRegs s (rectOf x y w h) n)) := by
  induction n with
  | zero => simp [execAll, fillRegs]
  | succ n ih =>
    rw [List.range_succ, List.map_append, execAll_append ih, List.flatMap_append]
    simpa using execAll_singleton (exec_fill hrect halloc _ n)

/-- The events of a frame do not depend on the position they carry. -/
theorem eventsOf_frameTrace_congr (cfg : Cfg) (p k p' k' : Nat) (ev : Nat → List Event) (d : Half) :
    eventsOf (frameTrace cfg p k ev d) = eventsOf (frameTrace cfg p' k' ev d) := by
  rw [eventsOf_frameTrace, eventsOf_frameTrace]

theorem eventsOf_flatMap {α : Type} (l : List α) (tr : α → List Emitted) :
    eventsOf (l.flatMap tr) = l.flatMap fun a => eventsOf (tr a) := List.map_flatMap

/-- The eighteen fills emit the events of the `CLEAR` (rule R145). -/
theorem eventsOf_fills (cfg : Cfg) (rc : Rect) (p k k' n : Nat) :
    eventsOf ((List.range n).flatMap (fillTrace cfg rc p k)) =
      eventsOf ((List.range n).flatMap (clearPassTrace cfg rc k')) := by
  rw [eventsOf_flatMap, eventsOf_flatMap]
  exact flatMap_range_congr _ _ _ fun m _ => eventsOf_frameTrace_congr ..

@[simp] theorem withoutPass_append (t u : List Emitted) : withoutPass (t ++ u) = withoutPass t ++ withoutPass u :=
  List.map_append

theorem withoutPass_flatMap {α : Type} (l : List α) (tr : α → List Emitted) :
    withoutPass (l.flatMap tr) = l.flatMap fun a => withoutPass (tr a) := List.map_flatMap

/-- A frame with the pass of its entries erased. -/
theorem withoutPass_frameTrace (cfg : Cfg) (p k : Nat) (ev : Nat → List Event) (d : Half) :
    withoutPass (frameTrace cfg p k ev d) = frameTrace cfg 0 k ev d := by
  simp [withoutPass, frameTrace, stamp, List.map_flatMap, Function.comp_def]
  rfl

/-- From rest the fills' trace is that of the `CLEAR` but for the pass (rules R12, R145). -/
theorem withoutPass_fills (cfg : Cfg) (rc : Rect) (n : Nat) :
    withoutPass ((List.range n).flatMap (fillTrace cfg rc 0 0)) =
      withoutPass ((List.range n).flatMap (clearPassTrace cfg rc 0)) := by
  rw [withoutPass_flatMap, withoutPass_flatMap]
  refine flatMap_range_congr _ _ _ fun m _ => ?_
  rw [fillTrace, clearPassTrace, withoutPass_frameTrace, withoutPass_frameTrace, ite_self]

/-- Settles O41: an error due in the `CLEAR` is due in every fill; with none due, the closed forms of the two agree. -/
theorem clearEqualsItsEighteenFills : Obligations.ClearEqualsItsEighteenFills := by
  intro s x y w h
  rcases exec_cases (.clear x y w h) s with ⟨⟨-, -, hrect, halloc⟩, hexec⟩ | ⟨e, hdue, hexec⟩
  · have hfits : x.toNat + w.toNat ≤ s.cfg.panelW ∧ y.toNat + h.toNat ≤ s.cfg.panelH := by
      by_contra hno
      exact hrect ⟨_, rfl, hno⟩
    have hevents := eventsOf_fills s.cfg (rectOf x y w h) s.pass.toNat s.k.toNat s.k.toNat 18
    rw [runOps, runMicros_clearOps s _ s.k.toNat (by simp)] at hexec
    refine ⟨_, _, hexec, execAll_fills hfits halloc 18, ?_, ?_, fun hrest => ?_⟩
    · simp only [endWith_trace, played_trace, clearRegs_trace, eventsOf_append]
      rw [hevents]
      rfl
    · simp only [endWith, played, hevents]
      rfl
    · obtain ⟨hpass, hk, -⟩ := hrest
      simp only [endWith_trace, played_trace, clearRegs_trace, withoutPass_append, hpass, hk]
      rw [show (0 : BitVec 4).toNat = 0 from rfl, ← withoutPass_fills]
      rfl
  · refine ⟨_, _, hexec, execAll_of_errorDue (by simp [recipeCommands]) fun i hi => ?_, rfl, rfl, fun _ => rfl⟩
    obtain ⟨p, -, rfl⟩ := List.mem_map.1 hi
    exact errorDue_drawSolidByte_of_clear hdue _ _

end Sys2Proof.Machine
end

section
/-! The position every event carries (rules R12, R13): inside a frame `ROW` runs from 0 to `PANEL_H`, and each command has its own
range of `PASS` and `K`. -/

namespace Sys2Proof.Machine

/-- An entry of a frame at pass `p` and frame index `k` (rules R13, R116). -/
structure InFrame (cfg : Cfg) (p k : Nat) (e : Emitted) : Prop where
  pass : e.pass = BitVec.ofNat 5 p
  k : e.k = BitVec.ofNat 4 k
  atStart : e.event = .frameStart → e.row = 0
  atEnd : e.event = .frameEnd → e.row.toNat = cfg.panelH
  row_le : e.row.toNat ≤ cfg.panelH

theorem toNat_ofNat_row {cfg : Cfg} {r : Nat} (hr : r ≤ cfg.panelH) : (BitVec.ofNat 16 r).toNat = r :=
  Nat.mod_eq_of_lt (Nat.lt_succ_of_le (hr.trans (panelH_le cfg)))

/-- Between its brackets a frame stays in the rows of the panel; the flush is at `PANEL_H` (rules R116, R119). -/
theorem inFrame_of_mem_frameTrace {cfg : Cfg} {p k : Nat} {ev : Nat → List Event} {d : Half} {e : Emitted}
    (hrows : ∀ r < cfg.panelH, IsRow cfg (ev r)) (he : e ∈ frameTrace cfg p k ev d) : InFrame cfg p k e := by
  simp only [frameTrace, List.mem_append, List.mem_cons, List.not_mem_nil, or_false, List.mem_flatMap, List.mem_map,
    List.mem_range] at he
  have hflush := toNat_ofNat_row (le_refl cfg.panelH)
  rcases he with (rfl | ⟨r, hr, x, hx, rfl⟩) | rfl | rfl
  · exact ⟨rfl, rfl, fun _ => rfl, nofun, Nat.zero_le _⟩
  · obtain ⟨hbrackets, -, -⟩ := hrows r hr
    have hno := List.all_eq_true.1 hbrackets x hx
    refine ⟨rfl, rfl, fun hstart => ?_, fun hend => ?_, (toNat_ofNat_row hr.le).trans_le hr.le⟩
    · rw [show x = .frameStart from hstart] at hno
      cases hno
    · rw [show x = .frameEnd from hend] at hno
      cases hno
  · exact ⟨rfl, rfl, nofun, nofun, hflush.le⟩
  · exact ⟨rfl, rfl, nofun, fun _ => hflush, hflush.le⟩

/-- Where a command, begun at rest, has its frames: their pass and frame index (rules R12, R126, R133, R141, R145). -/
def FrameAt (p k : Nat) : Instr → Prop
  | .lutCompile _ _ => False
  | .drawImage _ _ _ _ _ _ => p = 0 ∧ k < 15
  | .drawSolidByte _ _ _ _ _ _ => p = 0 ∧ k = 0
  | .clear _ _ _ _ => p < 18 ∧ k = 0
  | .encodeUnary _ => False
  | .drawUnary => p = 0 ∧ k < 15

/-- Every entry a command adds, begun at rest, belongs to one of its frames. -/
theorem inFrame_of_mem_runTrace {cfg : Cfg} {mem pln : Memory} {i : Instr} {e : Emitted}
    (he : e ∈ runTrace cfg mem pln 0 0 i) : ∃ p k, FrameAt p k i ∧ InFrame cfg p k e := by
  cases i with
  | lutCompile k bd => cases he
  | drawImage x y w h fb bd =>
    cases hbd : bitDepthOf bd with
    | none => simp [runTrace, hbd] at he
    | some dep =>
      simp only [runTrace, hbd, List.mem_flatMap, List.mem_range] at he
      obtain ⟨k, hk, he⟩ := he
      exact ⟨0, k, ⟨rfl, hk.trans_le (frameCount_le dep)⟩,
        inFrame_of_mem_frameTrace (fun r _ => isRow_imageRowEvents ..) he⟩
  | drawSolidByte x y w h d b =>
    exact ⟨0, 0, ⟨rfl, rfl⟩, inFrame_of_mem_frameTrace (fun r _ => isRow_patternRowEvents ..) he⟩
  | clear x y w h =>
    obtain ⟨p, hp, he⟩ := List.mem_flatMap.1 he
    exact ⟨p, 0, ⟨List.mem_range.1 hp, rfl⟩, inFrame_of_mem_frameTrace (fun r _ => isRow_patternRowEvents ..) he⟩
  | encodeUnary fb => cases he
  | drawUnary =>
    obtain ⟨k, hk, he⟩ := List.mem_flatMap.1 he
    exact ⟨0, k, ⟨rfl, List.mem_range.1 hk⟩, inFrame_of_mem_frameTrace (fun r _ => isRow_unaryRowEvents ..) he⟩

/-- Every command's frames are within the ranges of `PASS` and `K` (rule R12). -/
theorem FrameAt.bounds {p k : Nat} {i : Instr} (h : FrameAt p k i) : p < 18 ∧ k < 15 := by
  cases i <;> simp only [FrameAt] at h <;> omega

/-- Settles O44: the entries a command adds are those of its frames, and none where an error ends it. -/
theorem eventsCarryTheirPosition : Obligations.EventsCarryTheirPosition := by
  intro i s hrest
  rcases exec_cases i s with ⟨-, hexec⟩ | ⟨e, -, hexec⟩
  · obtain ⟨htrace, -, -⟩ := leaves_runOps i s
    obtain ⟨hpass, hk, -⟩ := hrest
    rw [hpass, hk] at htrace
    refine ⟨_, _, hexec, htrace, fun e he => ?_⟩
    obtain ⟨p, k, hat, hin⟩ := inFrame_of_mem_runTrace he
    obtain ⟨hp, hk⟩ := hat.bounds
    have hpass : e.pass.toNat = p := by rw [hin.pass]; exact Nat.mod_eq_of_lt (by omega)
    have hkreg : e.k.toNat = k := by rw [hin.k]; exact Nat.mod_eq_of_lt (by omega)
    refine ⟨hin.atStart, hin.atEnd, hin.row_le, by omega, by omega, ?_, ?_, ?_, ?_⟩
    · rintro x y w h fb bd rfl
      rw [hin.pass, hat.1]
      rfl
    · rintro rfl
      rw [hin.pass, hat.1]
      rfl
    · rintro x y w h d b rfl
      rw [hin.pass, hin.k, hat.1, hat.2]
      exact ⟨rfl, rfl⟩
    · rintro x y w h rfl
      rw [hin.k, hat.2]
      rfl
  · exact ⟨_, [], hexec, (List.append_nil _).symm, nofun⟩

end Sys2Proof.Machine
end

section
/-! Events counted (rules R132, R187): a predicate that looks at the kind of an event only counts a frame from the number of its
slow skips, fast skips and rect rows. -/

namespace Sys2Proof.Machine

/-- The predicate does not look at an event's payload. -/
structure KindOnly (f : Event → Bool) : Prop where
  write : ∀ row, f (.bufWrite row) = f (.bufWrite [])
  commit : ∀ d, f (.commitRow d) = f (.commitRow 0)
  dwell : ∀ n, f (.dwell n) = f (.dwell 0)

section
variable (f : Event → Bool)

/-- What one event of each kind counts. -/
def eventWeight (e : Event) : Nat := (f e).toNat

/-- What a slow skip counts: a write, a commit, a dwell (rule R112). -/
def slowWeight : Nat := eventWeight f (.bufWrite []) + eventWeight f (.commitRow 0) + eventWeight f (.dwell 0)

/-- What the skips of one frame over a rect count (rule R132). -/
def skipsWeight (cfg : Cfg) (rc : Rect) : Nat :=
  slowCount cfg rc * slowWeight f + fastCount cfg rc * eventWeight f .fastSkip

/-- What a frame counts besides its rows: its brackets and the flush (rule R116). -/
def edgesWeight : Nat := eventWeight f .frameStart + eventWeight f (.commitRow 0) + eventWeight f .frameEnd
end

section
variable {f : Event → Bool} (hf : KindOnly f)

theorem countP_cons_eventWeight (f : Event → Bool) (e : Event) (es : List Event) :
    (e :: es).countP f = es.countP f + eventWeight f e := by
  rw [List.countP_cons, eventWeight]
  cases f e <;> rfl

/-- Parts that count alike. -/
theorem countP_flatMap_range_const (g : Nat → List Event) {c : Nat} (n : Nat) (h : ∀ r, (g r).countP f = c) :
    ((List.range n).flatMap g).countP f = n * c := by
  induction n with
  | zero => simp
  | succ n ih => rw [List.range_succ, List.flatMap_append, List.countP_append, ih, List.flatMap_singleton, h, Nat.succ_mul]

include hf

theorem KindOnly.eventWeight_write (row : Row) : eventWeight f (.bufWrite row) = eventWeight f (.bufWrite []) :=
  congrArg Bool.toNat (hf.write row)

theorem KindOnly.eventWeight_commit (d : Half) : eventWeight f (.commitRow d) = eventWeight f (.commitRow 0) :=
  congrArg Bool.toNat (hf.commit d)

theorem KindOnly.eventWeight_dwell (n : Word) : eventWeight f (.dwell n) = eventWeight f (.dwell 0) :=
  congrArg Bool.toNat (hf.dwell n)

theorem KindOnly.countP_slowEvents (cfg : Cfg) : (slowEvents cfg).countP f = slowWeight f := by
  simp only [slowEvents, countP_cons_eventWeight, List.countP_nil, hf.eventWeight_write (nullRow cfg),
    hf.eventWeight_commit cfg.minPulse, hf.eventWeight_dwell cfg.dissipation, slowWeight]
  omega

theorem KindOnly.countP_skipRunEvents (cfg : Cfg) (m : Nat) :
    (skipRunEvents cfg m).countP f = min m 2 * slowWeight f + (m - 2) * eventWeight f .fastSkip := by
  rw [countP_skipRun, hf.countP_slowEvents, countP_cons_eventWeight, List.countP_nil, Nat.zero_add]

/-- The row loop over a rect counts its skips and the rows of the rect (rules R129, R132). -/
theorem KindOnly.countP_rows (cfg : Cfg) {rc : Rect} (inside : Nat → List Event) (hb : rc.y + rc.h ≤ cfg.panelH) :
    ((List.range cfg.panelH).flatMap fun r => if rowInside rc r then inside r else skipEvents cfg (skipIndex rc r)).countP f =
      skipsWeight f cfg rc + ((List.range rc.h).flatMap fun j => inside (rc.y + j)).countP f := by
  rw [rows_split cfg rc inside hb, skipsWeight, slowCount, fastCount]
  split
  · next hempty => simp [hf.countP_skipRunEvents, hempty]
  · simp only [List.countP_append, hf.countP_skipRunEvents, Nat.add_mul]
    omega

/-- A frame counts its edges and its row loop (rule R116). -/
theorem KindOnly.countP_frameTrace (cfg : Cfg) (p k : Nat) (ev : Nat → List Event) (d : Half) :
    (eventsOf (frameTrace cfg p k ev d)).countP f = edgesWeight f + ((List.range cfg.panelH).flatMap ev).countP f := by
  rw [eventsOf_frameTrace]
  simp only [List.countP_append, countP_cons_eventWeight, List.countP_nil, hf.eventWeight_commit d, edgesWeight]
  omega

/-- A frame of the image path writes and commits every row of the rect (rules R126, R132). -/
theorem KindOnly.countP_imageFrame (cfg : Cfg) (m : Memory) {rc : Rect} (fb : Word) (bd : BitDepth) (p k : Nat)
    (hb : rc.y + rc.h ≤ cfg.panelH) :
    (eventsOf (imageFrameTrace cfg m rc fb bd p k)).countP f =
      edgesWeight f + skipsWeight f cfg rc + rc.h * (eventWeight f (.bufWrite []) + eventWeight f (.commitRow 0)) := by
  rw [imageFrameTrace, hf.countP_frameTrace]
  unfold imageRowEvents
  rw [hf.countP_rows cfg _ hb, countP_flatMap_range_const _ _ fun j => ?_, Nat.add_assoc]
  simp only [countP_cons_eventWeight, List.countP_nil, hf.eventWeight_write (imageRow ..),
    hf.eventWeight_commit (contrast ..)]
  omega

/-- A row of the rect counts its commit, and the first one the priming of both halves as well (rules R141, R142). -/
theorem KindOnly.countP_patternRow (row : Row) (d : Half) (first : Prop) [Decidable first] :
    ((if first then [Event.switchBuf, .bufWrite row, .switchBuf, .bufWrite row] else []) ++ [Event.commitRow d]).countP f =
      (if first then 2 else 0) * (eventWeight f .switchBuf + eventWeight f (.bufWrite []))
        + eventWeight f (.commitRow 0) := by
  rw [List.countP_append, countP_cons_eventWeight _ (.commitRow d), hf.eventWeight_commit d, List.countP_nil, Nat.zero_add]
  congr 1
  split
  · simp only [countP_cons_eventWeight, List.countP_nil, hf.eventWeight_write row]
    omega
  · simp

/-- A pattern frame commits every row of the rect, and primes both halves before the first (rules R141, R142). -/
theorem KindOnly.countP_patternFrame (cfg : Cfg) {rc : Rect} (d : Half) (b : Byte) (p k : Nat)
    (hb : rc.y + rc.h ≤ cfg.panelH) :
    (eventsOf (frameTrace cfg p k (patternRowEvents cfg rc d b) d)).countP f =
      edgesWeight f + skipsWeight f cfg rc + ((if rc.h = 0 then 0 else 2) * (eventWeight f .switchBuf
        + eventWeight f (.bufWrite [])) + rc.h * eventWeight f (.commitRow 0)) := by
  have hinside (n : Nat) : ((List.range n).flatMap fun j => (if rc.y + j = rc.y then
      [.switchBuf, .bufWrite (fillRowOf cfg b rc.x rc.w), .switchBuf, .bufWrite (fillRowOf cfg b rc.x rc.w)]
      else []) ++ [.commitRow d]).countP f = (if n = 0 then 0 else 2) * (eventWeight f .switchBuf
        + eventWeight f (.bufWrite [])) + n * eventWeight f (.commitRow 0) := by
    induction n with
    | zero => simp
    | succ n ih =>
      rw [List.range_succ, List.flatMap_append, List.countP_append, ih, List.flatMap_singleton, hf.countP_patternRow,
        Nat.succ_mul]
      by_cases hn : n = 0
      · subst hn
        simp
      · simp [hn, Nat.add_assoc]
  rw [hf.countP_frameTrace]
  unfold patternRowEvents
  rw [hf.countP_rows cfg _ hb, hinside, Nat.add_assoc]
end

/-- The predicates of rule R132 look at the kind only. -/
theorem kindOnly_isCommit : KindOnly isCommit := ⟨fun _ => rfl, fun _ => rfl, fun _ => rfl⟩
theorem kindOnly_isWrite : KindOnly isWrite := ⟨fun _ => rfl, fun _ => rfl, fun _ => rfl⟩
theorem kindOnly_isDwell : KindOnly isDwell := ⟨fun _ => rfl, fun _ => rfl, fun _ => rfl⟩
theorem kindOnly_fastSkip : KindOnly (· == .fastSkip) := ⟨fun _ => rfl, fun _ => rfl, fun _ => rfl⟩
theorem kindOnly_switchBuf : KindOnly (· == .switchBuf) := ⟨fun _ => rfl, fun _ => rfl, fun _ => rfl⟩
theorem kindOnly_true : KindOnly fun _ => true := ⟨fun _ => rfl, fun _ => rfl, fun _ => rfl⟩

/-- All frames of a `DRAW_IMAGE` together. -/
theorem KindOnly.countP_imageFrames {f : Event → Bool} (hf : KindOnly f) (cfg : Cfg) (m : Memory) {rc : Rect} (fb : Word)
    (bd : BitDepth) (p n : Nat) (hb : rc.y + rc.h ≤ cfg.panelH) :
    (eventsOf ((List.range n).flatMap (imageFrameTrace cfg m rc fb bd p))).countP f =
      n * (edgesWeight f + skipsWeight f cfg rc
        + rc.h * (eventWeight f (.bufWrite []) + eventWeight f (.commitRow 0))) := by
  rw [eventsOf_flatMap]
  exact countP_flatMap_range_const _ _ fun k => hf.countP_imageFrame cfg m fb bd p k hb

/-- Settles O45: both closed forms counted, with the weights of each predicate. -/
theorem eventCountsPerCommand : Obligations.EventCountsPerCommand := by
  intro s x y w h rc hrc hrest hw hh halloc
  subst hrc
  refine ⟨fun fb bd dep hdepth => ?_, fun d b => ?_⟩
  · refine ⟨_, eventsOf (imageTrace s.cfg s.mem (rectOf x y w h) fb dep),
      drawImageEmitsItsFrames s x y w h fb bd dep hrest hdepth hw hh halloc, eventsOf_append .., ?_⟩
    have counts {f : Event → Bool} (hf : KindOnly f) :=
      hf.countP_imageFrames s.cfg s.mem fb dep 0 (frameCount dep) hh
    refine ⟨(counts kindOnly_isCommit).trans (congrArg (frameCount dep * ·) ?_),
      (counts kindOnly_isWrite).trans (congrArg (frameCount dep * ·) ?_),
      (counts kindOnly_isDwell).trans (congrArg (frameCount dep * ·) ?_),
      (counts kindOnly_fastSkip).trans (congrArg (frameCount dep * ·) ?_),
      (counts kindOnly_switchBuf).trans ((congrArg (frameCount dep * ·) ?_).trans (Nat.mul_zero _))⟩
    all_goals simp [edgesWeight, skipsWeight, slowWeight, eventWeight, isCommit, isWrite, isDwell, beq_eq_decide]
    all_goals omega
  · refine ⟨_, eventsOf (patternTrace s.cfg 0 (rectOf x y w h) d b),
      drawSolidByteEmitsOneFrame s x y w h d b hrest hw hh halloc, eventsOf_append .., ?_⟩
    have counts {f : Event → Bool} (hf : KindOnly f) := hf.countP_patternFrame s.cfg d b 0 0 hh
    refine ⟨(counts kindOnly_isCommit).trans ?_, (counts kindOnly_isWrite).trans ?_, (counts kindOnly_isDwell).trans ?_,
      (counts kindOnly_fastSkip).trans ?_, (counts kindOnly_switchBuf).trans ?_⟩
    all_goals simp [edgesWeight, skipsWeight, slowWeight, eventWeight, isCommit, isWrite, isDwell, beq_eq_decide]
    all_goals omega

theorem length_eq_countP_eventsOf (es : List Emitted) : es.length = (eventsOf es).countP fun _ => true := by
  rw [List.countP_true, eventsOf, List.length_map]

/-- The weights where every event counts one. -/
theorem edgesWeight_true : edgesWeight (fun _ => true) = 3 := rfl

theorem skipsWeight_true (cfg : Cfg) (rc : Rect) :
    skipsWeight (fun _ => true) cfg rc = slowCount cfg rc * 3 + fastCount cfg rc :=
  congrArg (_ + ·) (Nat.mul_one _)

/-- The panel's rect leaves no row to skip (rule R132). -/
theorem skipsWeight_panelRect (f : Event → Bool) (cfg : Cfg) : skipsWeight f cfg (panelRect cfg) = 0 := by
  have hrows : cfg.panelH ≠ 0 := (panelH_pos cfg).ne'
  simp [skipsWeight, slowCount, fastCount, panelRect, hrows]

/-- Settles O46: every event of the frames counted, on the panel's rect without skips, on an empty rect without rows. -/
theorem eventTotals : Obligations.EventTotals := by
  intro s halloc
  refine ⟨fun fb => ?_, fun hrows x y w hw hy => ?_⟩
  · refine ⟨_, exec_drawImage_panel s fb, ?_⟩
    have htotal := kindOnly_true.countP_imageFrames s.cfg s.mem (rc := panelRect s.cfg) fb .four s.pass.toNat 15
      (Nat.zero_add _).le
    rw [edgesWeight_true, skipsWeight_panelRect, ← length_eq_countP_eventsOf] at htotal
    rw [allocError_none halloc, checkAndRun, runMicros_imageOps s _ fb .four s.pass.toNat (by simp), endWith_trace,
      played_trace, imageRegs_trace, List.length_append]
    refine congrArg (s.trace.length + ·) (htotal.trans (congrArg (15 * ·) ?_))
    have hwrite : eventWeight (fun _ => true) (.bufWrite []) = 1 := rfl
    have hcommit : eventWeight (fun _ => true) (.commitRow 0) = 1 := rfl
    have hheight : (panelRect s.cfg).h = s.cfg.panelH := rfl
    rw [hwrite, hcommit, hheight]
    omega
  · have hrect : x.toNat + w.toNat ≤ s.cfg.panelW ∧ y.toNat + (0 : Half).toNat ≤ s.cfg.panelH := ⟨hw, hy⟩
    refine ⟨_, exec_clear hrect halloc, ?_⟩
    have htotal : ((List.range 18).flatMap (clearPassTrace s.cfg (rectOf x y w 0) s.k.toNat)).length =
        18 * (s.cfg.panelH + 7) := by
      rw [length_eq_countP_eventsOf, eventsOf_flatMap]
      refine countP_flatMap_range_const _ _ fun p => ?_
      have hempty : (rectOf x y w 0).h = 0 := rfl
      rw [clearPassTrace, kindOnly_true.countP_patternFrame _ _ _ _ _ hrect.2, edgesWeight_true, skipsWeight_true, slowCount,
        fastCount, hempty]
      simp only [if_true]
      omega
    rw [runMicros_clearOps s _ s.k.toNat (by simp), endWith_trace, played_trace, clearRegs_trace, List.length_append,
      htotal]

end Sys2Proof.Machine
end

section
/-! What a frame presents to the reference peripheral (rules R117, R118, R120, R142). An open peripheral that takes the events of
row `r` logs the entry of row `r`; its two buffers are followed as the current and the other one. -/

namespace Sys2Proof.Machine

/-- `BUF[not CUR]` (rule R118). -/
def otherBuf (q : Peripheral) : Row := if q.cur then q.buf0 else q.buf1

/-- The peripheral after a `SwitchBuf` (rule R118). -/
def switched (q : Peripheral) : Peripheral := { q with cur := !q.cur }

/-- The peripheral after a `CommitRow` it took (rule R118). -/
def committed (d : Half) (q : Peripheral) : Peripheral :=
  { q with rows := q.rows ++ [⟨q.pos, some (currentBuf q), some d⟩], pos := q.pos + 1, cur := !q.cur }

/-- The peripheral after a `FastSkip` it took (rule R118). -/
def fastSkipped (q : Peripheral) : Peripheral := { q with rows := q.rows ++ [⟨q.pos, none, none⟩], pos := q.pos + 1 }

@[simp] theorem periphTake_bufWrite (row : Row) (q : Peripheral) :
    periphTake (.bufWrite row) q = some (writeCurrentBuf row q) := rfl
@[simp] theorem periphTake_switchBuf (q : Peripheral) : periphTake .switchBuf q = some (switched q) := rfl
@[simp] theorem periphTake_dwell (n : Word) (q : Peripheral) : periphTake (.dwell n) q = some q := rfl

theorem periphTake_commitRow {q : Peripheral} (ho : q.isOpen = true) (d : Half) :
    periphTake (.commitRow d) q = some (committed d q) := if_pos ho

theorem periphTake_fastSkip {q : Peripheral} (ho : q.isOpen = true) : periphTake .fastSkip q = some (fastSkipped q) :=
  if_pos ho

@[simp] theorem currentBuf_writeCurrentBuf (row : Row) (q : Peripheral) : currentBuf (writeCurrentBuf row q) = row := by
  cases h : q.cur <;> simp [currentBuf, writeCurrentBuf, h]
@[simp] theorem otherBuf_writeCurrentBuf (row : Row) (q : Peripheral) : otherBuf (writeCurrentBuf row q) = otherBuf q := by
  cases h : q.cur <;> simp [otherBuf, writeCurrentBuf, h]
@[simp] theorem currentBuf_switched (q : Peripheral) : currentBuf (switched q) = otherBuf q := by
  cases h : q.cur <;> simp [currentBuf, otherBuf, switched, h]
@[simp] theorem otherBuf_switched (q : Peripheral) : otherBuf (switched q) = currentBuf q := by
  cases h : q.cur <;> simp [currentBuf, otherBuf, switched, h]
@[simp] theorem currentBuf_committed (d : Half) (q : Peripheral) : currentBuf (committed d q) = otherBuf q :=
  currentBuf_switched q
@[simp] theorem otherBuf_committed (d : Half) (q : Peripheral) : otherBuf (committed d q) = currentBuf q :=
  otherBuf_switched q

/-- In a scan, before row `r`: the peripheral is open and has logged the entries of the rows above. -/
structure ScanAt (entry : Nat → RowEntry) (r : Nat) (q : Peripheral) : Prop where
  isOpen : q.isOpen = true
  pos : q.pos = r
  rows : q.rows = (List.range r).map entry

section
variable {entry : Nat → RowEntry} {r : Nat} {q : Peripheral} (h : ScanAt entry r q)
include h

theorem ScanAt.writeCurrentBuf (row : Row) : ScanAt entry r (writeCurrentBuf row q) := by
  obtain ⟨ho, hp, hr⟩ := h
  unfold Machine.writeCurrentBuf
  split <;> exact ⟨ho, hp, hr⟩

theorem ScanAt.switched : ScanAt entry r (switched q) := ⟨h.isOpen, h.pos, h.rows⟩

theorem ScanAt.committed {d : Half} (he : entry r = ⟨r, some (currentBuf q), some d⟩) :
    ScanAt entry (r + 1) (committed d q) :=
  ⟨h.isOpen, congrArg (· + 1) h.pos, by
    rw [List.range_succ, List.map_append, ← h.rows, List.map_singleton, he, ← h.pos]
    rfl⟩

theorem ScanAt.fastSkipped (he : entry r = ⟨r, none, none⟩) : ScanAt entry (r + 1) (fastSkipped q) :=
  ⟨h.isOpen, congrArg (· + 1) h.pos, by
    rw [List.range_succ, List.map_append, ← h.rows, List.map_singleton, he, ← h.pos]
    rfl⟩
end

/-- A frame that takes the scan from each row to the next, with a property `B` of the buffers, presents the entries of its rows
and then what the current buffer holds at the flush (rules R116, R117). -/
theorem periphRun_frameTrace {cfg : Cfg} (pass k : Nat) {ev : Nat → List Event} (d : Half) {p : Peripheral}
    (hp : p.isOpen = false) (entry : Nat → RowEntry) (B : Nat → Peripheral → Prop)
    (hstart : B 0 { p with isOpen := true, pos := 0, rows := [] })
    (hrow : ∀ r < cfg.panelH, ∀ q, ScanAt entry r q → B r q →
      ∃ q', periphRun (ev r) (some q) = some q' ∧ ScanAt entry (r + 1) q' ∧ B (r + 1) q') :
    ∃ q last, periphRun (eventsOf (frameTrace cfg pass k ev d)) (some p) = some q ∧ q.isOpen = false
      ∧ q.rows = (List.range cfg.panelH).map entry ++ [⟨cfg.panelH, some (currentBuf last), some d⟩]
      ∧ B cfg.panelH last := by
  have scan (n : Nat) (hn : n ≤ cfg.panelH) :
      ∃ q, periphRun ((List.range n).flatMap ev) (some { p with isOpen := true, pos := 0, rows := [] }) = some q
        ∧ ScanAt entry n q ∧ B n q := by
    induction n with
    | zero => exact ⟨_, rfl, ⟨rfl, rfl, rfl⟩, hstart⟩
    | succ n ih =>
      obtain ⟨q, hq, hscan, hB⟩ := ih (by omega)
      obtain ⟨q', hq', hscan', hB'⟩ := hrow n (by omega) q hscan hB
      exact ⟨q', by rw [List.range_succ, List.flatMap_append, periphRun_append, hq, List.flatMap_singleton, hq'],
        hscan', hB'⟩
  obtain ⟨q, hq, ⟨ho, hpos, hrows⟩, hB⟩ := scan cfg.panelH le_rfl
  refine ⟨{ committed d q with isOpen := false }, q, ?_, rfl, ?_, hB⟩
  · have hbegin : periphTake .frameStart p = some { p with isOpen := true, pos := 0, rows := [] } := by
      simp [periphTake, hp]
    have hend : periphTake .frameEnd (committed d q) = some { committed d q with isOpen := false } := if_pos ho
    simp only [eventsOf_frameTrace, periphRun_append, periphRun_cons, periphRun_nil, Option.bind_some, hbegin, hq,
      periphTake_commitRow ho, hend]
  · rw [← hrows, ← hpos]
    rfl

/-- A skipped row presents its entry (rules R112, R120 (b), (c)); a slow skip exchanges the buffers and leaves the neutral row in
the one that is then not current, a fast skip leaves both. -/
theorem periphRun_skip {cfg : Cfg} {rc : Rect} {entry : Nat → RowEntry} {r : Nat} {q : Peripheral} (h : ScanAt entry r q)
    (he : entry r = skippedEntry cfg rc r) :
    ∃ q', periphRun (skipEvents cfg (skipIndex rc r)) (some q) = some q' ∧ ScanAt entry (r + 1) q'
      ∧ (currentBuf q' = otherBuf q ∧ otherBuf q' = nullRow cfg
        ∨ 2 ≤ skipIndex rc r ∧ currentBuf q' = currentBuf q ∧ otherBuf q' = otherBuf q) := by
  by_cases hslow : skipIndex rc r < 2
  · have hwritten := h.writeCurrentBuf (nullRow cfg)
    rw [skippedEntry, if_pos hslow] at he
    refine ⟨committed cfg.minPulse (writeCurrentBuf (nullRow cfg) q), ?_, hwritten.committed (by simpa using he),
      .inl ⟨by simp, by simp⟩⟩
    simp [skipEvents, hslow, slowEvents, periphTake_commitRow hwritten.isOpen]
  · rw [skippedEntry, if_neg hslow] at he
    refine ⟨fastSkipped q, ?_, h.fastSkipped he, .inr ⟨by omega, rfl, rfl⟩⟩
    simp [skipEvents, hslow, periphTake_fastSkip h.isOpen]

/-- A row of the image path presents its entry (rules R117, R120 (a) to (c), R126). -/
theorem periphRun_imageRow {cfg : Cfg} {m : Memory} {rc : Rect} {fb : Word} {bd : BitDepth} {k r : Nat} {q : Peripheral}
    {entry : Nat → RowEntry} (hscan : ScanAt entry r q) (he : entry r = presentedEntry cfg rc
      (fun r => imageRow cfg (compiledLut bd k) m r fb bd rc.x rc.w) (contrast cfg bd k) r) :
    ∃ q', periphRun (imageRowEvents cfg m rc fb bd k r) (some q) = some q' ∧ ScanAt entry (r + 1) q' := by
  unfold imageRowEvents
  by_cases hin : rowInside rc r = true
  · have hwritten := hscan.writeCurrentBuf (imageRow cfg (compiledLut bd k) m r fb bd rc.x rc.w)
    refine ⟨_, ?_, hwritten.committed (d := contrast cfg bd k) (by simp [he, presentedEntry, hin])⟩
    simp [hin, periphTake_commitRow hwritten.isOpen]
  · rw [if_neg hin]
    obtain ⟨q', hrun, hscan', -⟩ := periphRun_skip (cfg := cfg) (rc := rc) hscan (by simp [he, presentedEntry, hin])
    exact ⟨q', hrun, hscan'⟩

/-- Settles O47: nothing is asked of the buffers. -/
theorem imageFramePresentsItsRows : Obligations.ImageFramePresentsItsRows := by
  intro cfg m rc fb bd k p hp
  obtain ⟨q, last, hrun, hclosed, hrows, -⟩ := periphRun_frameTrace (cfg := cfg) 0 k (contrast cfg bd k) hp
    (presentedEntry cfg rc (fun r => imageRow cfg (compiledLut bd k) m r fb bd rc.x rc.w) (contrast cfg bd k))
    (fun _ _ => True) trivial fun r _ q hscan _ => by
      obtain ⟨q', hrun, hscan'⟩ := periphRun_imageRow (m := m) (fb := fb) hscan rfl
      exact ⟨q', hrun, hscan', trivial⟩
  exact ⟨q, currentBuf last, hrun, hclosed, hrows⟩

/-- The buffers before row `r` of a pattern frame with fill row `fill`, whose other buffer held `old` at its start (rules R120 (d),
R142): both hold the fill row after a row of the rect; the other one holds the fill row or the neutral row after any row, and
so does the current one but in the first two rows. -/
structure PatternBufs (cfg : Cfg) (rc : Rect) (fill old : Row) (r : Nat) (q : Peripheral) : Prop where
  filled : ∀ n, r = n + 1 → rowInside rc n = true → currentBuf q = fill ∧ otherBuf q = fill
  other : r = 0 ∧ otherBuf q = old ∨ otherBuf q = fill ∨ otherBuf q = nullRow cfg
  current : r = 0 ∨ (r = 1 ∧ rowInside rc 0 = false ∧ currentBuf q = old) ∨ currentBuf q = fill ∨ currentBuf q = nullRow cfg

theorem patternBufs_of_filled {cfg : Cfg} {rc : Rect} {fill old : Row} {r : Nat} {q : Peripheral}
    (hcurrent : currentBuf q = fill) (hother : otherBuf q = fill) : PatternBufs cfg rc fill old r q :=
  ⟨fun _ _ _ => ⟨hcurrent, hother⟩, .inr (.inl hother), .inr (.inr (.inl hcurrent))⟩

/-- A skipped row keeps the property of the buffers. -/
theorem PatternBufs.skip {cfg : Cfg} {rc : Rect} {fill old : Row} {r : Nat} {q q' : Peripheral}
    (h : PatternBufs cfg rc fill old r q) (hout : rowInside rc r = false)
    (hskip : currentBuf q' = otherBuf q ∧ otherBuf q' = nullRow cfg
      ∨ 2 ≤ skipIndex rc r ∧ currentBuf q' = currentBuf q ∧ otherBuf q' = otherBuf q) :
    PatternBufs cfg rc fill old (r + 1) q' := by
  have hfilled : ∀ n, r + 1 = n + 1 → rowInside rc n = true → currentBuf q' = fill ∧ otherBuf q' = fill := by
    intro n hn hin
    obtain rfl : r = n := by omega
    rw [hout] at hin
    cases hin
  rcases hskip with ⟨hcurrent, hother⟩ | ⟨hfast, hcurrent, hother⟩
  · refine ⟨hfilled, .inr (.inr hother), ?_⟩
    rcases h.other with ⟨rfl, hold⟩ | hknown
    · exact .inr (.inl ⟨rfl, hout, hcurrent.trans hold⟩)
    · exact .inr (.inr (hcurrent ▸ hknown))
  · have hr : 2 ≤ r := by
      unfold skipIndex at hfast
      split at hfast <;> omega
    refine ⟨hfilled, ?_, ?_⟩
    · rw [hother]
      exact h.other.imp_left fun ⟨h0, _⟩ => by omega
    · rw [hcurrent]
      rcases h.current with h0 | ⟨h1, _⟩ | hknown
      · omega
      · omega
      · exact .inr (.inr hknown)

/-- A row of a pattern frame presents its entry: the first row of the rect primes both halves, and a commit only exchanges
them (rule R142). -/
theorem periphRun_patternRow {cfg : Cfg} {rc : Rect} {d : Half} {b : Byte} {old : Row} {entry : Nat → RowEntry} {r : Nat}
    {q : Peripheral} (hscan : ScanAt entry r q) (hbufs : PatternBufs cfg rc (fillRowOf cfg b rc.x rc.w) old r q)
    (he : entry r = presentedEntry cfg rc (fun _ => fillRowOf cfg b rc.x rc.w) d r) :
    ∃ q', periphRun (patternRowEvents cfg rc d b r) (some q) = some q' ∧ ScanAt entry (r + 1) q'
      ∧ PatternBufs cfg rc (fillRowOf cfg b rc.x rc.w) old (r + 1) q' := by
  rw [presentedEntry] at he
  cases hin : rowInside rc r with
  | false =>
    rw [hin] at he
    obtain ⟨q', hrun, hscan', hskip⟩ := periphRun_skip hscan he
    exact ⟨q', by rw [patternRowEvents, hin, if_neg Bool.false_ne_true, hrun], hscan', hbufs.skip hin hskip⟩
  | true =>
  rw [hin, if_pos rfl] at he
  by_cases hfirst : r = rc.y
  · have hprimed := ((hscan.switched.writeCurrentBuf (fillRowOf cfg b rc.x rc.w)).switched).writeCurrentBuf
      (fillRowOf cfg b rc.x rc.w)
    refine ⟨_, ?_, hprimed.committed (d := d) (by simpa using he), patternBufs_of_filled (by simp) (by simp)⟩
    simp only [patternRowEvents, if_pos hin, if_pos hfirst, List.cons_append, List.nil_append, periphRun_cons,
      Option.bind_some, periphTake_switchBuf, periphTake_bufWrite, periphTake_commitRow hprimed.isOpen, periphRun_nil]
  · have habove : rowInside rc (r - 1) = true := by
      simp only [rowInside, Bool.and_eq_true, decide_eq_true_eq] at hin ⊢
      omega
    have hpos : r = r - 1 + 1 := by
      simp only [rowInside, Bool.and_eq_true, decide_eq_true_eq] at hin
      omega
    obtain ⟨hcurrent, hother⟩ := hbufs.filled (r - 1) hpos habove
    refine ⟨committed d q, ?_, hscan.committed (by rw [hcurrent, he]), patternBufs_of_filled (by simpa) (by simpa)⟩
    simp [patternRowEvents, hin, hfirst, periphTake_commitRow hscan.isOpen]

/-- Settles O48: the scan with the buffers of `PatternBufs`, which say what the flush finds after the last row. -/
theorem patternFramePresentsTheFillRow : Obligations.PatternFramePresentsTheFillRow := by
  intro cfg pass rc d b p hp
  have hstart : PatternBufs cfg rc (fillRowOf cfg b rc.x rc.w) (otherBuf p) 0 { p with isOpen := true, pos := 0, rows := [] } :=
    ⟨nofun, .inl ⟨rfl, rfl⟩, .inl rfl⟩
  obtain ⟨q, last, hrun, hclosed, hrows, hbufs⟩ := periphRun_frameTrace (cfg := cfg) pass 0 d hp
    (presentedEntry cfg rc (fun _ => fillRowOf cfg b rc.x rc.w) d) _ hstart
    fun r _ q hscan hbufs => periphRun_patternRow hscan hbufs rfl
  refine ⟨q, currentBuf last, hrun, hclosed, hrows, ?_⟩
  rcases hbufs.current with hzero | ⟨hone, hout, hold⟩ | hfill | hnull
  · exact absurd hzero (panelH_pos cfg).ne'
  · exact .inr (.inr ⟨hone, hout, hold⟩)
  · exact .inl hfill
  · exact .inr (.inl hnull)

end Sys2Proof.Machine
end

section
/-! What the drawing commands read of `MEM` (rule R54): the image path only the chunks of the groups that hold a pixel of the
span, in the rows of the rect; the unary replay nothing. -/

namespace Sys2Proof.Machine

/-- A group whose mask is not zero holds a pixel of the span (rule R92). -/
theorem exists_inSpan_of_groupMask_ne_zero {c x w : Nat} (h : groupMask c x w ≠ 0) :
    ∃ j < 4, inSpan x w (4 * c + j) = true := by
  by_contra hno
  refine h (BitVec.eq_of_getLsbD_eq fun n hn => ?_)
  have hbit : inSpan x w (4 * c + n / 2) = false :=
    Bool.eq_false_iff.2 fun hin => hno ⟨n / 2, by omega, hin⟩
  rw [getLsbD_groupMask c x w hn, hbit]
  exact BitVec.getLsbD_zero.symm

/-- The index of a group depends on the bytes of its chunk only (rules R42, R93). -/
theorem groupIndex_congr {m m' : Memory} (cfg : Cfg) (fb : Word) (bd : BitDepth) (r c : Nat)
    (h : ∀ n < 2, memRead8 m (chunkAddress cfg fb bd r c n) = memRead8 m' (chunkAddress cfg fb bd r c n)) :
    groupIndex m (rowBase cfg fb bd r) bd c = groupIndex m' (rowBase cfg fb bd r) bd c := by
  have hfirst := h 0 (by omega)
  have hsecond := h 1 (by omega)
  cases bd with
  | two => exact congrArg (BitVec.setWidth 16) hfirst
  | four =>
    simp only [chunkAddress, BitVec.add_zero] at hfirst
    simp only [groupIndex, memRead16, hfirst]
    exact congrArg (· ++ _) hsecond

section
variable {cfg : Cfg} {m m' : Memory} {rc : Rect} {fb : Word} {bd : BitDepth}
  (hagree : ∀ a, InReadSet cfg rc fb bd a → memRead8 m a = memRead8 m' a)
include hagree

/-- Memories that agree on the read set give one image row inside the rect (rules R93, R96). -/
theorem imageRow_congr (t : Lut) {r : Nat} (hr : rowInside rc r = true) :
    imageRow cfg t m r fb bd rc.x rc.w = imageRow cfg t m' r fb bd rc.x rc.w := by
  refine congrArg interleave (List.map_congr_left fun c hc => ?_)
  unfold preByte
  split
  · rfl
  · next hmask =>
    obtain ⟨j, hj, hspan⟩ := exists_inSpan_of_groupMask_ne_zero hmask
    rw [groupIndex_congr cfg fb bd r c fun n hn =>
      hagree _ ⟨r, c, n, j, hr, List.mem_range.1 hc, hn, hj, hspan, rfl⟩]

/-- Memories that agree on the read set give one trace of a frame (rules R126, R129). -/
theorem imageFrameTrace_congr (p k : Nat) : imageFrameTrace cfg m rc fb bd p k = imageFrameTrace cfg m' rc fb bd p k := by
  refine frameTrace_congr p k _ fun r _ => ?_
  unfold imageRowEvents
  split
  · next hr => rw [imageRow_congr hagree _ hr]
  · rfl
end

/-- The run stage of `DRAW_IMAGE` from a state whose memory is replaced by one that agrees on the read set. -/
theorem runMicros_imageOps_withMem {s : State} {m : Memory} {rc : Rect} {fb : Word} {bd : BitDepth}
    (hagree : ∀ a, InReadSet s.cfg rc fb bd a → memRead8 s.mem a = memRead8 m a) :
    runMicros (imageOps s.cfg rc fb bd) { s with mem := m } = { runMicros (imageOps s.cfg rc fb bd) s with mem := m } := by
  have hframes : imageFrameTrace s.cfg s.mem rc fb bd s.pass.toNat = imageFrameTrace s.cfg m rc fb bd s.pass.toNat :=
    funext fun k => imageFrameTrace_congr hagree _ k
  have hregs : imageRegs { s with mem := m } bd (frameCount bd) = { imageRegs s bd (frameCount bd) with mem := m } := by
    cases frameCount bd <;> rfl
  have hrun := runMicros_imageOps { s with mem := m } rc fb bd s.pass.toNat (by simp)
  rw [runMicros_imageOps s rc fb bd s.pass.toNat (by simp), hframes]
  rw [hregs] at hrun
  exact hrun

/-- Settles O49: an error ends both runs alike; with none due, the bit depth is legal and the traces agree. -/
theorem drawImageReadsOnlyItsReadSet : Obligations.DrawImageReadsOnlyItsReadSet := by
  intro s m x y w h fb bd hagree
  rcases exec_cases (.drawImage x y w h fb bd) s with ⟨hpasses, hexec⟩ | ⟨e, hdue, hexec⟩
  · refine ⟨_, hexec, (exec_of_passes (s := { s with mem := m }) hpasses).trans ?_⟩
    cases hdepth : bitDepthOf bd with
    | none => exact absurd ⟨_, rfl, bitDepthOf_none.1 hdepth⟩ hpasses.1
    | some dep =>
      have hrun := runMicros_imageOps_withMem (m := m) (rc := rectOf x y w h) (fb := fb) (bd := dep) fun a =>
        hagree dep a hdepth
      simp only [runOps, hdepth, hrun]
      rfl
  · exact ⟨_, hexec, exec_of_errorDue (hdue.congr (s := s) rfl rfl)⟩

/-- Settles O51: the closed form of the replay has `PLN` and not `MEM` in it. -/
theorem drawUnaryDoesNotReadMem : Obligations.DrawUnaryDoesNotReadMem := by
  intro s m
  rcases exec_cases .drawUnary s with ⟨hpasses, hexec⟩ | ⟨e, hdue, hexec⟩
  · refine ⟨_, hexec, (exec_of_passes (s := { s with mem := m }) hpasses).trans ?_⟩
    have hrun := runMicros_unaryOps { s with mem := m } s.pass.toNat (by simp)
    rw [runOps, hrun, runMicros_unaryOps s s.pass.toNat (by simp)]
    rfl
  · exact ⟨_, hexec, exec_of_errorDue (hdue.congr (s := s) rfl rfl)⟩

end Sys2Proof.Machine
end

section
/-! Inside a command: the skip counter stays at most `PANEL_H` and is 0 at the end, a command stopped anywhere has emitted a
beginning of its trace, and what no micro-operation writes is as it was (rules R11, R14, R15, R112, R168). -/

namespace Sys2Proof.Machine

/-- The micro-operation is `skip_row()`, the one that counts (rule R112). -/
def isSkipRow : Micro → Bool
  | .skipRow => true
  | _ => false

/-- A micro-operation counts at most one skip, and only `skip_row` counts. -/
theorem skipping_doMicro_le (u : Micro) (s : State) :
    (doMicro u s).skipping.toNat ≤ s.skipping.toNat + (isSkipRow u).toNat := by
  cases u with
  | skipRow =>
    rw [doMicro, skipRow_eq_countSkip, countSkip_eq_min, setSkipping_skipping, BitVec.toNat_ofNat]
    exact (Nat.mod_le ..).trans (Nat.min_le_left ..)
  | scanStart | outputRow => exact Nat.zero_le _
  | _ => exact le_rfl

theorem skipping_runMicros_le (us : List Micro) (s : State) :
    (runMicros us s).skipping.toNat ≤ s.skipping.toNat + us.countP isSkipRow := by
  induction us generalizing s with
  | nil => exact le_rfl
  | cons u us ih =>
    have hnext := ih (doMicro u s)
    have hone := skipping_doMicro_le u s
    rw [runMicros_cons, List.countP_cons]
    cases hskip : isSkipRow u <;> simp [hskip] at hone ⊢ <;> omega

/-- From a zero counter, the counter is at most `H` after every beginning of the run, and 0 after the whole of it. -/
structure SkipsWithin (H : Nat) (us : List Micro) : Prop where
  upTo : ∀ {s : State}, s.skipping = 0 → ∀ n, (runMicros (us.take n) s).skipping.toNat ≤ H
  atEnd : ∀ {s : State}, s.skipping = 0 → (runMicros us s).skipping = 0

/-- A run with few skips that leaves the counter 0. -/
theorem skipsWithin_of_countP {H : Nat} {us : List Micro} (hcount : us.countP isSkipRow ≤ H)
    (hend : ∀ {s : State}, s.skipping = 0 → (runMicros us s).skipping = 0) : SkipsWithin H us := by
  refine ⟨fun {s} hs n => ?_, hend⟩
  have hle := skipping_runMicros_le (us.take n) s
  have htake : (us.take n).countP isSkipRow ≤ us.countP isSkipRow := (List.take_sublist n us).countP_le
  rw [hs, show (0 : Half).toNat = 0 from rfl] at hle
  omega

/-- A run without skips. -/
theorem skipsWithin_of_no_skip (H : Nat) {us : List Micro} (hcount : us.countP isSkipRow = 0) : SkipsWithin H us := by
  refine skipsWithin_of_countP (by omega) fun {s} hs => ?_
  have hle := skipping_runMicros_le us s
  rw [hs, hcount] at hle
  exact BitVec.eq_of_toNat_eq (Nat.le_zero.1 hle)

theorem SkipsWithin.append {H : Nat} {us vs : List Micro} (hus : SkipsWithin H us) (hvs : SkipsWithin H vs) :
    SkipsWithin H (us ++ vs) := by
  refine ⟨fun {s} hs n => ?_, fun hs => by rw [runMicros_append]; exact hvs.atEnd (hus.atEnd hs)⟩
  rw [List.take_append, runMicros_append]
  rcases Nat.le_total n us.length with hle | hge
  · rw [Nat.sub_eq_zero_of_le hle, List.take_zero, runMicros_nil]
    exact hus.upTo hs n
  · rw [List.take_of_length_le hge]
    exact hvs.upTo (hus.atEnd hs) _

theorem SkipsWithin.flatMap {H : Nat} {α : Type} {l : List α} {f : α → List Micro} (h : ∀ a ∈ l, SkipsWithin H (f a)) :
    SkipsWithin H (l.flatMap f) := by
  induction l with
  | nil => exact skipsWithin_of_no_skip H rfl
  | cons a l ih =>
    rw [List.flatMap_cons]
    exact (h a List.mem_cons_self).append (ih fun b hb => h b (List.mem_cons_of_mem _ hb))

theorem countP_flatMap_range_le {p : Micro → Bool} {c : Nat} (f : Nat → List Micro) (n : Nat)
    (h : ∀ r, (f r).countP p ≤ c) : ((List.range n).flatMap f).countP p ≤ n * c := by
  induction n with
  | zero => simp
  | succ n ih =>
    have hlast := h n
    rw [List.range_succ, List.flatMap_append, List.countP_append, List.flatMap_singleton, Nat.succ_mul]
    omega

/-- A frame skips at most every row of the panel once, and its flush leaves the counter 0 (rules R111, R116). -/
theorem skipsWithin_frameOps {cfg : Cfg} {before : List Micro} {rowOps : Nat → List Micro} (d : Half)
    (hbefore : before.countP isSkipRow = 0) (hrows : ∀ r, (rowOps r).countP isSkipRow ≤ 1) :
    SkipsWithin cfg.panelH (frameOps cfg before rowOps d) := by
  refine skipsWithin_of_countP ?_ fun _ => ?_
  · have hloop := countP_flatMap_range_le (p := isSkipRow) (fun r => .setRow r :: rowOps r) cfg.panelH fun r => by
      rw [List.countP_cons_of_neg (by simp [isSkipRow])]
      exact hrows r
    rw [Nat.mul_one] at hloop
    have hstart : [Micro.scanStart, .setRow 0, .emit .frameStart].countP isSkipRow = 0 := rfl
    have hend : [Micro.setRow cfg.panelH, .outputRow d, .emit .frameEnd].countP isSkipRow = 0 := rfl
    simp only [frameOps, List.countP_append, hbefore, hstart, hend]
    omega
  · simp only [frameOps, runMicros_append]
    rfl

theorem countP_patternRowOps_le (rc : Rect) (d : Half) (r : Nat) : (patternRowOps rc d r).countP isSkipRow ≤ 1 := by
  unfold patternRowOps
  split_ifs <;> simp [isSkipRow]

theorem countP_imageRowOps_le (cfg : Cfg) (rc : Rect) (fb : Word) (bd : BitDepth) (k r : Nat) :
    (imageRowOps cfg rc fb bd k r).countP isSkipRow ≤ 1 := by
  unfold imageRowOps
  split <;> simp [isSkipRow]

/-- The run stage of every command, the panel's height bounding the rows of each frame (rule R15). -/
theorem skipsWithin_runOps (cfg : Cfg) (i : Instr) : SkipsWithin cfg.panelH (runOps cfg i) := by
  cases i with
  | lutCompile k bd =>
    cases hbd : bitDepthOf bd <;> simp only [runOps, hbd] <;> exact skipsWithin_of_no_skip _ (by rfl)
  | drawImage x y w h fb bd =>
    cases hbd : bitDepthOf bd with
    | none => simp only [runOps, hbd]; exact skipsWithin_of_no_skip _ (by rfl)
    | some dep =>
      simp only [runOps, hbd]
      exact .flatMap fun k _ => skipsWithin_frameOps _ (by rfl) fun r => countP_imageRowOps_le ..
  | drawSolidByte x y w h d b => exact skipsWithin_frameOps _ (by rfl) fun r => countP_patternRowOps_le ..
  | clear x y w h =>
    have hset (p : Nat) : SkipsWithin cfg.panelH [.setPass p] := skipsWithin_of_no_skip _ rfl
    exact .flatMap fun p _ => (hset p).append (skipsWithin_frameOps _ (by rfl) fun r => countP_patternRowOps_le ..)
  | encodeUnary fb =>
    have hcompile (k : Nat) : SkipsWithin cfg.panelH (compileOps .four k) := skipsWithin_of_no_skip _ rfl
    have hrow (k r : Nat) : SkipsWithin cfg.panelH [.setRow r, .storePlane k r fb] := skipsWithin_of_no_skip _ rfl
    exact .flatMap fun k _ => (hcompile k).append (.flatMap fun r _ => hrow k r)
  | drawUnary => exact .flatMap fun k _ => skipsWithin_frameOps _ (by rfl) fun r => Nat.zero_le _

theorem skipping_partMicro_le (j : Nat) (u : Micro) (s : State) :
    (partMicro j u s).skipping.toNat ≤ s.skipping.toNat := by
  cases u with
  | skipRow =>
    simp only [partMicro, foldl_emit]
    exact le_rfl
  | outputRow d => by_cases hj : j = 0 <;> simp [partMicro, hj]
  | _ => exact le_rfl

/-- Where a stopped command stands: between two micro-operations, or inside the one that comes next. -/
theorem midWay_cases (i : Instr) (n j : Nat) (s : State) :
    midWay i n j s = partWay i n s
      ∨ ∃ u, (runOps s.cfg i)[n]? = some u ∧ midWay i n j s = partMicro j u (partWay i n s) := by
  unfold midWay
  split
  · next u hu => exact .inr ⟨u, hu, rfl⟩
  · exact .inl rfl

/-- A stopped command has written none of what no micro-operation writes (rules R11, R14, R43). -/
theorem midWay_frame (i : Instr) (n j : Nat) (s : State) :
    (midWay i n j s).cfg = s.cfg ∧ (midWay i n j s).desc = s.desc ∧ (midWay i n j s).busy = s.busy
      ∧ (midWay i n j s).err = s.err ∧ (midWay i n j s).mem = s.mem := by
  obtain ⟨hcfg, hdesc, hbusy, herr, hmem, -, -⟩ := runMicros_frame ((runOps s.cfg i).take n) s
  rcases midWay_cases i n j s with heq | ⟨u, -, heq⟩
  · rw [heq]
    exact ⟨hcfg, hdesc, hbusy, herr, hmem⟩
  · obtain ⟨hcfg', hdesc', hbusy', herr', hmem', -, -⟩ := partMicro_frame j u (partWay i n s)
    rw [heq]
    exact ⟨hcfg'.trans hcfg, hdesc'.trans hdesc, hbusy'.trans hbusy, herr'.trans herr, hmem'.trans hmem⟩

/-- Settles O53: the frame of a stopped command, and the bound of `skipsWithin_runOps`. -/
theorem runningCommandHoldsItsDescriptor : Obligations.RunningCommandHoldsItsDescriptor := by
  intro i n j s hskip
  obtain ⟨hcfg, hdesc, hbusy, herr, hmem⟩ := midWay_frame i n j s
  refine ⟨hdesc, hbusy, herr, hcfg, fun a => by rw [hmem], ?_⟩
  have hbound : (partWay i n s).skipping.toNat ≤ s.cfg.panelH := (skipsWithin_runOps s.cfg i).upTo hskip n
  rcases midWay_cases i n j s with heq | ⟨u, -, heq⟩
  · rwa [heq]
  · rw [heq]
    exact (skipping_partMicro_le ..).trans hbound

/-- A run of micro-operations only adds to the trace. -/
theorem trace_begins_runMicros (us : List Micro) (s : State) : s.trace <+: (runMicros us s).trace := by
  obtain ⟨es, htrace, -⟩ := runMicros_trace us s
  exact ⟨es, htrace.symm⟩

/-- The whole run stage goes on from where it was stopped. -/
theorem runMicros_runOps_eq (i : Instr) (n : Nat) (s : State) :
    runMicros (runOps s.cfg i) s = runMicros ((runOps s.cfg i).drop n) (partWay i n s) := by
  rw [partWay, ← runMicros_append, List.take_append_drop]

/-- A stopped command's trace extends the one before it and begins the one of the whole command (rule R168). -/
theorem trace_midWay (i : Instr) (n j : Nat) (s : State) :
    s.trace <+: (midWay i n j s).trace ∧ (midWay i n j s).trace <+: (runMicros (runOps s.cfg i) s).trace := by
  have hbefore : s.trace <+: (partWay i n s).trace := trace_begins_runMicros _ s
  rw [runMicros_runOps_eq i n s]
  rcases midWay_cases i n j s with heq | ⟨u, hu, heq⟩
  · rw [heq]
    exact ⟨hbefore, trace_begins_runMicros ..⟩
  · obtain ⟨hlt, hget⟩ := List.getElem?_eq_some_iff.1 hu
    obtain ⟨hpart, hwhole⟩ := partMicro_trace j u (partWay i n s)
    rw [heq, List.drop_eq_getElem_cons hlt, hget, runMicros_cons]
    exact ⟨hbefore.trans hpart, hwhole.trans (trace_begins_runMicros ..)⟩

/-- Settles O54: the trace of the stopped command, which the reset leaves; the registers are those of any reset. -/
theorem resetAbandonsTheCommand : Obligations.ResetAbandonsTheCommand := by
  intro i n j s lut fill hpasses
  obtain ⟨hbefore, hwhole⟩ := trace_midWay i n j s
  obtain ⟨-, -, -, -, hmem⟩ := midWay_frame i n j s
  exact ⟨⟨_, exec_of_passes hpasses, hbefore, hwhole⟩, idle_assertReset .., rfl, rfl, rfl, rfl, rfl,
    statusWord_assertReset .., hmem⟩

/-- Settles O9: the ending zeroes `BUSY` and the position, on an error as on a normal end; the run stage leaves the rest. -/
theorem everyCommandEndsAtRest : Obligations.EveryCommandEndsAtRest := by
  intro i s
  rcases exec_cases i s with ⟨-, hexec⟩ | ⟨e, -, hexec⟩
  · obtain ⟨hcfg, hdesc, -, -, hmem, hport, halloc⟩ := runMicros_frame (runOps s.cfg i) s
    exact ⟨_, hexec, rfl, ⟨rfl, rfl, rfl⟩, (skipsWithin_runOps s.cfg i).atEnd, hdesc, hcfg, hport, halloc, fun a =>
      congrArg (memRead8 · a) hmem⟩
  · exact ⟨_, hexec, rfl, ⟨rfl, rfl, rfl⟩, id, rfl, rfl, rfl, rfl, fun _ => rfl⟩

end Sys2Proof.Machine
end

section
/-! The invariant of the states between steps (rules R16, R24, R26, R43, R45, R118, R119): reset establishes it, every command
keeps it, and so does every act of the host. -/

namespace Sys2Proof.Machine

/-! ### The plane store inside a command -/

/-- The plane store is canonical and inside its space (rule R45). -/
def PlnInside (cfg : Cfg) (pln : Memory) : Prop := Memory.wf pln ∧ ∀ c ∈ pln, c.1 < plnSize cfg

/-- The micro-operation, if it stores a plane row, stores one of the plane store (rules R45, R102). -/
def StoresInside (cfg : Cfg) : Micro → Prop
  | .storePlane k r _ => k < 15 ∧ r < cfg.panelH
  | _ => True

theorem storesInside_of_neutral (cfg : Cfg) {u : Micro} (hu : neutral u = true) : StoresInside cfg u := by
  cases u with
  | storePlane => cases hu
  | _ => trivial

theorem storesInside_of_mem_compileOps (cfg : Cfg) {bd : BitDepth} {k : Nat} {u : Micro} (hu : u ∈ compileOps bd k) :
    StoresInside cfg u := by
  unfold compileOps at hu
  fin_cases hu <;> trivial

theorem storesInside_of_mem_frameOps {cfg cfg' : Cfg} {before : List Micro} {rowOps : Nat → List Micro} {d : Half}
    (hbefore : ∀ u ∈ before, StoresInside cfg u) (hrows : ∀ r, ∀ u ∈ rowOps r, StoresInside cfg u) {u : Micro}
    (hu : u ∈ frameOps cfg' before rowOps d) : StoresInside cfg u := by
  have hsplit : frameOps cfg' before rowOps d = before ++ frameOps cfg' [] rowOps d := by simp [frameOps]
  rw [hsplit] at hu
  rcases List.mem_append.1 hu with hu | hu
  · exact hbefore u hu
  · exact (mem_frameOps_nil hu).elim (storesInside_of_neutral cfg) fun ⟨r, hr⟩ => hrows r u hr

theorem storesInside_of_mem_patternFrameOps (cfg : Cfg) {rc : Rect} {d : Half} {b : Byte} {u : Micro}
    (hu : u ∈ patternFrameOps cfg rc d b) : StoresInside cfg u := by
  refine storesInside_of_mem_frameOps ?_ (fun r u hu => ?_) hu
  · rw [List.forall_mem_singleton]
    trivial
  · unfold patternRowOps at hu
    split_ifs at hu <;> fin_cases hu <;> trivial

/-- Only `ENCODE_UNARY` stores, and it stores the rows of its fifteen planes (rule R102). -/
theorem storesInside_of_mem_runOps {cfg : Cfg} {i : Instr} {u : Micro} (hu : u ∈ runOps cfg i) : StoresInside cfg u := by
  cases i with
  | lutCompile k bd =>
    cases hbd : bitDepthOf bd with
    | none => simp [runOps, hbd] at hu
    | some dep =>
      simp only [runOps, hbd] at hu
      exact storesInside_of_mem_compileOps cfg hu
  | drawImage x y w h fb bd =>
    cases hbd : bitDepthOf bd with
    | none => simp [runOps, hbd] at hu
    | some dep =>
      simp only [runOps, hbd] at hu
      obtain ⟨k, -, hu⟩ := List.mem_flatMap.1 hu
      refine storesInside_of_mem_frameOps (fun u => storesInside_of_mem_compileOps cfg) (fun r u hu => ?_) hu
      unfold imageRowOps at hu
      split at hu <;> fin_cases hu <;> trivial
  | drawSolidByte x y w h d b => exact storesInside_of_mem_patternFrameOps cfg hu
  | clear x y w h =>
    obtain ⟨p, -, hu⟩ := List.mem_flatMap.1 hu
    rcases List.mem_cons.1 hu with rfl | hu
    · trivial
    · exact storesInside_of_mem_patternFrameOps cfg hu
  | encodeUnary fb =>
    obtain ⟨k, hk, hu⟩ := List.mem_flatMap.1 hu
    rcases List.mem_append.1 hu with hu | hu
    · exact storesInside_of_mem_compileOps cfg hu
    · obtain ⟨r, hr, hu⟩ := List.mem_flatMap.1 hu
      rcases List.mem_pair.1 hu with rfl | rfl
      · trivial
      · exact ⟨List.mem_range.1 hk, List.mem_range.1 hr⟩
  | drawUnary =>
    obtain ⟨k, -, hu⟩ := List.mem_flatMap.1 hu
    refine storesInside_of_mem_frameOps ?_ (fun r u hu => ?_) hu
    · rw [List.forall_mem_singleton]
      trivial
    · fin_cases hu <;> trivial

/-- Bytes of one of the rows of the plane store keep it canonical and inside its space (rules R45, R102). -/
theorem PlnInside.storeBytes {cfg : Cfg} {pln : Memory} (h : PlnInside cfg pln) {k r n : Nat} (hk : k < 15)
    (hr : r < cfg.panelH) (hn : n ≤ planeRowBytes cfg) (q : Row) : PlnInside cfg (storeBytes cfg k r q n pln) := by
  obtain ⟨hwf, hin⟩ := h
  obtain ⟨hwf', -, -, hcells⟩ := storeBytes_spec cfg k r q n pln hwf
  refine ⟨hwf', fun c hc => ?_⟩
  rcases hcells c hc with hold | ⟨b, hb, haddr⟩
  · exact hin c hold
  · rw [haddr]
    exact plnIndex_lt_plnSize hk hr (by omega)

theorem plnInside_doMicro {u : Micro} {s : State} (hu : StoresInside s.cfg u) (h : PlnInside s.cfg s.pln) :
    PlnInside s.cfg (doMicro u s).pln := by
  cases u with
  | storePlane k r fb => exact h.storeBytes hu.1 hu.2 le_rfl _
  | skipRow =>
    obtain ⟨c, hskip⟩ := doMicro_skipRow s
    rw [hskip]
    exact h
  | _ => exact h

theorem plnInside_partMicro (j : Nat) {u : Micro} {s : State} (hu : StoresInside s.cfg u) (h : PlnInside s.cfg s.pln) :
    PlnInside s.cfg (partMicro j u s).pln := by
  cases u with
  | storePlane k r fb => exact h.storeBytes hu.1 hu.2 (Nat.min_le_right ..) _
  | skipRow =>
    simp only [partMicro, foldl_emit]
    exact h
  | outputRow d => by_cases hj : j = 0 <;> simpa [partMicro, hj] using h
  | _ => exact h

theorem plnInside_runMicros {us : List Micro} {s : State} (hus : ∀ u ∈ us, StoresInside s.cfg u)
    (h : PlnInside s.cfg s.pln) : PlnInside s.cfg (runMicros us s).pln := by
  induction us generalizing s with
  | nil => exact h
  | cons u us ih =>
    obtain ⟨hu, hrest⟩ := List.forall_mem_cons.1 hus
    have hcfg : (doMicro u s).cfg = s.cfg := (doMicro_frame u s).1
    rw [runMicros_cons, ← hcfg]
    exact ih (by rwa [hcfg]) (by rw [hcfg]; exact plnInside_doMicro hu h)

/-- A command stopped anywhere keeps the plane store canonical and inside its space. -/
theorem plnInside_midWay (i : Instr) (n j : Nat) {s : State} (h : PlnInside s.cfg s.pln) :
    PlnInside s.cfg (midWay i n j s).pln := by
  have hpart : PlnInside s.cfg (partWay i n s).pln :=
    plnInside_runMicros (fun u hu => storesInside_of_mem_runOps (List.mem_of_mem_take hu)) h
  rcases midWay_cases i n j s with heq | ⟨u, hu, heq⟩
  · rwa [heq]
  · have hcfg : (partWay i n s).cfg = s.cfg := (runMicros_frame _ s).1
    rw [heq, ← hcfg]
    exact plnInside_partMicro j (hcfg ▸ storesInside_of_mem_runOps (List.mem_of_getElem? hu)) (hcfg ▸ hpart)

/-! ### The other parts of the invariant, along the run stage -/

/-- The row latch always holds a whole row (rules R26, R97). -/
theorem length_fillRow_runMicros (us : List Micro) {s : State} (h : s.fillRow.length = lineBytes s.cfg) :
    (runMicros us s).fillRow.length = lineBytes s.cfg := by
  induction us generalizing s with
  | nil => exact h
  | cons u us ih =>
    have hcfg : (doMicro u s).cfg = s.cfg := (doMicro_frame u s).1
    rw [runMicros_cons, ← hcfg]
    refine ih ?_
    rw [hcfg]
    cases u with
    | loadFill b x w => exact length_fillRowOf ..
    | skipRow =>
      obtain ⟨c, hskip⟩ := doMicro_skipRow s
      rw [hskip]
      exact h
    | _ => exact h

/-- A command that passes its checks leaves a true tag: that of its own last table, or the one it found (rules R24, R85). -/
theorem lutTagged_runOps {i : Instr} {s : State} (hpasses : Passes i s) (h : LutTagged s) :
    LutTagged (runMicros (runOps s.cfg i) s) := by
  cases i with
  | lutCompile k bd =>
    cases hbd : bitDepthOf bd with
    | none => simpa only [runOps, hbd, runMicros_nil] using h
    | some dep =>
      obtain ⟨-, hframe, -, -⟩ := hpasses
      have hk : k.toNat < frameCount dep := by
        by_contra hk
        exact hframe ⟨k, bd, dep, rfl, hbd, by omega⟩
      simp only [runOps, hbd, runMicros_compile]
      exact fun _ => ⟨dep, k.toNat, hk, rfl, rfl, rfl⟩
  | drawImage x y w h' fb bd =>
    cases hbd : bitDepthOf bd with
    | none => simpa only [runOps, hbd, runMicros_nil] using h
    | some dep =>
      obtain ⟨n, hn⟩ : ∃ n, frameCount dep = n + 1 := by cases dep <;> exact ⟨_, rfl⟩
      simp only [runOps, hbd, runMicros_imageOps s _ fb dep s.pass.toNat (by simp), hn]
      exact fun _ => ⟨dep, n, by omega, rfl, rfl, rfl⟩
  | drawSolidByte x y w h' d b =>
    rw [runOps, runMicros_patternFrameOps s _ d b s.pass.toNat s.k.toNat (by simp) (by simp)]
    exact h
  | clear x y w h' =>
    rw [runOps, runMicros_clearOps s _ s.k.toNat (by simp)]
    exact h
  | encodeUnary fb =>
    obtain ⟨row, hrun⟩ := runMicros_encodePlanes s fb 14
    rw [runOps, encodeOps, hrun]
    exact fun _ => ⟨.four, 14, by decide, rfl, rfl, rfl⟩
  | drawUnary =>
    rw [runOps, runMicros_unaryOps s s.pass.toNat (by simp)]
    exact h

/-- Every command's trace takes a peripheral between frames to one between frames (rules R118, R119). -/
theorem periphRun_runTrace (cfg : Cfg) (mem pln : Memory) (p k : Nat) (i : Instr) {q : Peripheral}
    (hq : BetweenFrames cfg q) :
    ∃ q', periphRun (eventsOf (runTrace cfg mem pln p k i)) (some q) = some q' ∧ BetweenFrames cfg q' := by
  have frames (n : Nat) (tr : Nat → List Emitted) (h : ∀ m q, BetweenFrames cfg q →
      ∃ q', periphRun (eventsOf (tr m)) (some q) = some q' ∧ BetweenFrames cfg q') :=
    periphRun_frames cfg (List.range n) tr (fun m _ => h m) q hq
  cases i with
  | lutCompile k bd => exact ⟨q, rfl, hq⟩
  | drawImage x y w h fb bd =>
    cases hbd : bitDepthOf bd with
    | none => exact ⟨q, by simp [runTrace, hbd], hq⟩
    | some dep =>
      simp only [runTrace, hbd]
      exact frames _ _ fun m => periphRun_frame cfg _ _ _ _ fun r _ => isRow_imageRowEvents ..
  | drawSolidByte x y w h d b => exact periphRun_frame cfg _ _ _ _ (fun r _ => isRow_patternRowEvents ..) q hq
  | clear x y w h => exact frames _ _ fun m => periphRun_frame cfg _ _ _ _ fun r _ => isRow_patternRowEvents ..
  | encodeUnary fb => exact ⟨q, rfl, hq⟩
  | drawUnary => exact frames _ _ fun m => periphRun_frame cfg _ _ _ _ fun r _ => isRow_unaryRowEvents ..

/-! ### Steps -/

/-- A command run from a state that is between steps but for its `BUSY` ends in a state with the invariant. -/
theorem inv_of_exec {i : Instr} {s t : State} (h : Inv { s with busy := false }) (hexec : exec i s = .next t) : Inv t := by
  obtain ⟨⟨-, hskip, -⟩, htagged, hfill, hmemWf, hmemIn, hplnWf, hplnIn, hperiph⟩ := h
  rcases exec_cases i s with ⟨hpasses, heq⟩ | ⟨e, -, heq⟩
  · rw [heq, Host.Outcome.next.injEq] at hexec
    subst hexec
    obtain ⟨hcfg, -, -, -, hmem, -, -⟩ := runMicros_frame (runOps s.cfg i) s
    have hpln : PlnInside s.cfg (runMicros (runOps s.cfg i) s).pln :=
      plnInside_runMicros (fun u => storesInside_of_mem_runOps) ⟨hplnWf, hplnIn⟩
    have hlatch := length_fillRow_runMicros (s := s) (runOps s.cfg i) hfill
    obtain ⟨-, -, htaken⟩ := leaves_runOps i s
    obtain ⟨q, hq, hbetween⟩ := hperiph
    obtain ⟨q', hrun, hbetween'⟩ := periphRun_runTrace s.cfg s.mem s.pln s.pass.toNat s.k.toNat i hbetween
    have hq' : (runMicros (runOps s.cfg i) s).periph = some q' := by
      rw [htaken, ← hrun]
      exact congrArg _ hq
    exact {
      idle := ⟨rfl, (skipsWithin_runOps s.cfg i).atEnd hskip, rfl, rfl, rfl⟩
      tagged := lutTagged_runOps hpasses htagged
      fillRow := hlatch.trans (congrArg lineBytes hcfg.symm)
      memWf := hmem ▸ hmemWf
      memIn := hmem ▸ hmemIn
      plnWf := hpln.1
      plnIn := fun c hc => (hpln.2 c hc).trans_eq (congrArg plnSize hcfg.symm)
      periph := ⟨q', hq', by rw [endWith_cfg, hcfg]; exact hbetween'⟩ }
  · rw [heq, Host.Outcome.next.injEq] at hexec
    subst hexec
    exact ⟨⟨rfl, hskip, rfl, rfl, rfl⟩, htagged, hfill, hmemWf, hmemIn, hplnWf, hplnIn, hperiph⟩

/-- Settles O7: the three things a step can do. The accept changes nothing the invariant speaks of but `BUSY`. -/
theorem stepKeepsTheInvariant : Obligations.StepKeepsTheInvariant := by
  intro s t hinv hstep
  obtain ⟨hbusy, ⟨-, rfl⟩ | ⟨p, rest, -, hran⟩⟩ := step_cases hstep
  · exact hinv
  · obtain ⟨⟨-, hskip, hrest⟩, htagged, hfill, hmemWf, hmemIn, hplnWf, hplnIn, hperiph⟩ := hinv
    have haccepted : Inv { accept p { s with port := rest } with busy := false } :=
      ⟨⟨rfl, hskip, hrest⟩, htagged, hfill, hmemWf, hmemIn, hplnWf, hplnIn, hperiph⟩
    rcases hran with ⟨i, -, hexec⟩ | ⟨e, -, rfl⟩
    · exact inv_of_exec haccepted hexec
    · exact ⟨⟨rfl, hskip, rfl, rfl, rfl⟩, htagged, hfill, hmemWf, hmemIn, hplnWf, hplnIn, hperiph⟩

/-! ### Reset and reachable states -/

theorem inv_resetWith {u : PowerUp} (h : u.Wf) : Inv (State.resetWith u) where
  idle := ⟨rfl, rfl, rfl, rfl, rfl⟩
  tagged := nofun
  fillRow := h.fillRow
  memWf := h.memWf
  memIn := h.memIn
  plnWf := h.plnWf
  plnIn := h.plnIn
  periph := ⟨_, rfl, rfl, h.buf0, h.buf1⟩

/-- All-zero contents have the right shape. -/
theorem wf_powerUp_zero (cfg : Cfg) : (PowerUp.zero cfg).Wf where
  fillRow := List.length_replicate
  buf0 := List.length_replicate
  buf1 := List.length_replicate
  memWf := Memory.wf_nil
  memIn := nofun
  plnWf := Memory.wf_nil
  plnIn := nofun

/-- Settles O6: the contents after reset are those of the power-up, and `State.reset` has all-zero ones. -/
theorem resetEstablishesTheInvariant : Obligations.ResetEstablishesTheInvariant :=
  ⟨fun _ h => inv_resetWith h, inv_resetWith (wf_powerUp_zero Cfg.reset)⟩

/-- A reset of the block with the peripheral needs of the state before it no more than sound memories (rule R170). -/
theorem inv_reset {s : State} {lut : Lut} {fillRow buf0 buf1 : Row} (hmemWf : Memory.wf s.mem)
    (hmemIn : ∀ c ∈ s.mem, c.1 < 2 ^ 32) (hpln : PlnInside s.cfg s.pln) (hfill : fillRow.length = lineBytes s.cfg)
    (hbuf0 : buf0.length = lineBytes s.cfg) (hbuf1 : buf1.length = lineBytes s.cfg) :
    Inv (resetPeripheral buf0 buf1 (assertReset lut fillRow s)) where
  idle := ⟨rfl, rfl, rfl, rfl, rfl⟩
  tagged := nofun
  fillRow := hfill
  memWf := hmemWf
  memIn := hmemIn
  plnWf := hpln.1
  plnIn := hpln.2
  periph := ⟨_, rfl, rfl, hbuf0, hbuf1⟩

/-- A host write keeps `MEM` canonical and inside its space (rule R43). -/
theorem Inv.hostWriteMem {s t : State} (h : Inv s) {a : Word} {v : Byte} (hwrite : hostWriteMem a v s = some t) : Inv t := by
  unfold Machine.hostWriteMem at hwrite
  split at hwrite
  · cases hwrite
  · cases hwrite
    refine { h with memWf := Memory.wf_write _ _ h.memWf, memIn := fun c hc => ?_ }
    rcases Memory.mem_write hc with haddr | hold
    · rw [haddr]
      exact a.isLt
    · exact h.memIn c hold

/-- A host write inside `PLN` keeps it canonical and inside its space (rule R45). -/
theorem Inv.hostWritePln {s t : State} (h : Inv s) {i : Nat} {v : Byte} (hwrite : hostWritePln i v s = some t) : Inv t := by
  unfold Machine.hostWritePln at hwrite
  split at hwrite
  · next hin =>
    cases hwrite
    refine { h with plnWf := Memory.wf_write _ _ h.plnWf, plnIn := fun c hc => ?_ }
    rcases Memory.mem_write hc with haddr | hold
    · rw [haddr]
      exact hin.1
    · exact h.plnIn c hold
  · cases hwrite

/-- Settles O8: each way to reach a state keeps the invariant. -/
theorem reachableStatesHaveTheInvariant : Obligations.ReachableStatesHaveTheInvariant := by
  intro s hs
  induction hs with
  | powerUp u hu => exact inv_resetWith hu
  | present p _ ih => exact { ih with }
  | writeMem a v _ hwrite ih => exact ih.hostWriteMem hwrite
  | writePln i v _ hwrite ih => exact ih.hostWritePln hwrite
  | step _ hstep ih => exact stepKeepsTheInvariant _ _ ih hstep
  | reset lut fillRow buf0 buf1 _ hf h0 h1 ih => exact inv_reset ih.memWf ih.memIn ⟨ih.plnWf, ih.plnIn⟩ hf h0 h1
  | @resetDuring p i n j lut fillRow buf0 buf1 s _ _ _ hf h0 h1 ih =>
    obtain ⟨hcfg, -, -, -, hmem⟩ := midWay_frame i n j (accept p s)
    have hpln : PlnInside s.cfg (midWay i n j (accept p s)).pln := plnInside_midWay i n j ⟨ih.plnWf, ih.plnIn⟩
    rw [accept_cfg] at hcfg
    rw [accept_mem] at hmem
    exact inv_reset (hmem ▸ ih.memWf) (hmem ▸ ih.memIn) (hcfg ▸ hpln) (hcfg ▸ hf) (hcfg ▸ h0) (hcfg ▸ h1)

end Sys2Proof.Machine
end
